-- ==== Sys2Proof/Word.lean ====
section
/-!
DEFINITION. The bit vectors of BMS-QPSK and the words that cross its streams
(spec/00_scope.md R14 and R15, spec/30_encoding.md R70 to R73).

A sample is `SAMPLE_BITS` wide and that width is a parameter of the instance (R12), so an `SI` item and an `SW`
word are kept as the number their bits spell; bit 0 is the least significant bit.
-/

namespace Sys2Proof

/-- One 8-bit character, format `CW` (R73) and the `ch` field of format `BI` (R70). -/
abbrev Char8 := BitVec 8

/-- One 2-bit symbol, `sym[1]` the bit consumed first and `sym[0]` the bit consumed second (R15). -/
abbrev Symbol := BitVec 2

/-- One bit-source item, format `BI`: `st` in bits 9:8, `ch` in bits 7:0 (R70). -/
abbrev BitItem := BitVec 10

/-- One sample-source item, format `SI`, as the number its `W + 2` bits spell: `st` in bits W+1:W, `smp` in bits
W-1:0 (R71). -/
abbrev SampleItem := Nat

/-- One sample as it crosses a stream, format `SW`, as the number its `W` bits spell (R72). -/
abbrev SampleWord := Nat

end Sys2Proof
end

