-- ==== Sys2Proof/Config.lean ====
section
/-!
DEFINITION. The configuration constants of an instance of BMS-QPSK (spec/00_scope.md R9 to R13,
spec/10_state.md R35): what an implementation fixes and no operation writes.
-/

namespace Sys2Proof

/-- The parameter `EOS_IN_SYNC` (spec/42_synchronizer.md R152): what the end of the sample stream inside the
preamble does. -/
inductive EosInSync where
  /-- `FAIL`: the run fails with `SyncEos`. -/
  | fail
  /-- `NORMAL`: the newline is written and the run ends in `DONE`. -/
  | normal
  deriving DecidableEq, Repr

/-- The constants of R9's table. `PREAMBLE` is not among them: it is a fixed literal. -/
structure Config where
  /-- `SAMPLE_RATE`, S (CFG0). -/
  sampleRate : Nat
  /-- `FREQUENCY`, F (CFG1). -/
  frequency : Nat
  /-- `AMPLITUDE`, A (CFG2). -/
  amplitude : Nat
  /-- `THRESHOLD`, TH (CFG3). -/
  threshold : Rat
  /-- `SYMBOL_LEN`, L (CFG4), used by `MOD` only. -/
  symbolLen : Nat
  /-- `SYMLEN_MAX`, the upper bound of `SYMBOL_LEN` (R11). -/
  symlenMax : Nat
  /-- `SAMPLE_BITS`, W, the width of a sample (R12). -/
  sampleBits : Nat
  /-- `EOS_IN_SYNC`. -/
  eosInSync : EosInSync
  deriving DecidableEq, Repr

/-- The part of R13 that concerns both units: `S >= 1`, `F >= 1`, `1 <= A <= 2^(W-1) - 1`, `TH > 0`. -/
def Config.wellFormed (c : Config) : Bool :=
  decide (1 ≤ c.sampleRate ∧ 1 ≤ c.frequency ∧ 1 ≤ c.amplitude ∧ c.amplitude < 2 ^ (c.sampleBits - 1) ∧
    0 < c.threshold.num)

/-- R13 whole, as it is asked of an instance whose `MOD` runs: also `1 <= L <= SYMLEN_MAX`. -/
def Config.wellFormedMod (c : Config) : Bool :=
  c.wellFormed && decide (1 ≤ c.symbolLen ∧ c.symbolLen ≤ c.symlenMax)

/-- The *reference configuration* of R9. -/
def Config.reference : Config where
  sampleRate := 18000
  frequency := 1000
  amplitude := 0x7F000000
  threshold := { num := 1, den := 10, den_nz := by decide, reduced := by decide }
  symbolLen := 30
  symlenMax := 36
  sampleBits := 32
  eosInSync := .fail

end Sys2Proof
end

