-- ==== Sys2Proof/Machine/State.lean ====
section
/-!
DEFINITION. The state of BMS-QPSK as plain data (spec/10_state.md R20 to R32), the environment's side of the
streams (spec/20_memory.md R50 to R53, R64), and the state right after `RESET` (R40).
-/

namespace Sys2Proof.Machine

open Sys2Proof

/-- `M_STATE` (R21). -/
inductive MState where
  | idle
  | run
  | done
  | failed
  deriving DecidableEq, Repr

/-- `D_STATE` (R25): the synchronizer's five states, then `CLS`, `DONE`, `FAILED`. -/
inductive DState where
  | init
  | fz
  | fo
  | sz
  | so
  | cls
  | done
  | failed
  deriving DecidableEq, Repr

/-- The causes of spec/60_exceptions.md R191, held in `M_CAUSE` and `D_CAUSE`. -/
inductive Cause where
  /-- `NONE`. -/
  | none
  /-- `ERR_SYNC`. -/
  | sync
  /-- `ERR_CHANNEL`. -/
  | channel
  /-- `ERR_SYNC_EOS`. -/
  | syncEos
  deriving DecidableEq, Repr

/-- The counter file `D_CNT[0..3]` (R29), one natural number per candidate symbol. -/
structure Counts where
  c0 : Nat
  c1 : Nat
  c2 : Nat
  c3 : Nat
  deriving DecidableEq, Repr

/-- The registers of `MOD` (R21 to R24). -/
structure ModRegs where
  /-- `M_STATE`. -/
  state : MState
  /-- `M_T`, an unbounded natural (R31). -/
  t : Nat
  /-- `M_HAVE`. -/
  held : Bool
  /-- `M_BIT`. -/
  bit : BitVec 1
  /-- `M_CAUSE`. -/
  cause : Cause
  deriving DecidableEq, Repr

/-- The registers of `DEM` (R25 to R32). -/
structure DemRegs where
  /-- `D_STATE`. -/
  state : DState
  /-- `D_T`, an unbounded natural. -/
  t : Nat
  /-- `D_SYMLEN`, an unbounded natural. -/
  symlen : Nat
  /-- `D_REM`, an unbounded natural. -/
  rem : Nat
  /-- `D_CNT[0..3]`. -/
  cnt : Counts
  /-- `D_POS`, an unbounded natural. -/
  pos : Nat
  /-- `D_CAUSE`. -/
  cause : Cause
  /-- `D_FSTATE`. -/
  fstate : DState
  deriving DecidableEq, Repr

/-- A sink's answer to one `SinkWrite` (R53, R72, R73). -/
inductive Answer where
  | ok
  | fail
  deriving DecidableEq, Repr

/-- One moment of the environment's schedule (R64): the `RESET` strobe, or one unit's turn to take a step, with
the value of that unit's `START` wire (spec/30_encoding.md R74) at that moment. -/
inductive Turn where
  | reset
  | mod (start : Bool)
  | dem (start : Bool)
  deriving DecidableEq, Repr

/-- The environment (R64): its three kinds of free choice, held as lists the step reads from the front, and
the sequences the two sinks have received, oldest first. -/
structure Env where
  /-- Which turn comes next. -/
  turns : List Turn
  /-- The items that `SrcRead(BITSRC)` will return. -/
  bitSrc : List BitItem
  /-- The items that `SrcRead(SMPSRC)` will return. -/
  smpSrc : List SampleItem
  /-- The answers to writes on `SMPSINK`; `ok` when the list is used up. -/
  smpAnswers : List Answer
  /-- The answers to writes on `BITSINK`; `ok` when the list is used up. -/
  bitAnswers : List Answer
  /-- What `SMPSINK` has received. -/
  smpSink : List SampleWord
  /-- What `BITSINK` has received. -/
  bitSink : List Char8
  deriving DecidableEq, Repr

/-- One `MOD` and one `DEM` (R20), the constants they share, and the environment they run in. -/
structure State where
  /-- The constants of the instance (spec/00_scope.md R9); no operation writes them. -/
  cfg : Config
  mod : ModRegs
  dem : DemRegs
  env : Env
  deriving DecidableEq, Repr

/-- Faults. The spec's own errors are not here: they end in a next state with the unit in `FAILED`
(spec/60_exceptions.md R196). -/
inductive Fault where
  /-- A natural-number register would be decremented below 0, which spec/40_phase_numerics.md R116 says is never
  done and gives no result for. Raised by `SYNC.FZ` (`D_SYMLEN - 1` with `D_SYMLEN = 0`) and by `SYNC.SO`
  (`D_REM - 1` with `D_REM = 0`), both only in states no run reaches (spec/10_state.md R41). Safe. -/
  | counterUnderflow
  deriving DecidableEq, Repr

/-- Refusals: situations to which the spec gives no run. -/
inductive Refusal where
  /-- An operation without a meaning yet: no arm of `exec` answers it. Safe. -/
  | notModelled (mnemonic : String)
  /-- A unit would take a step under an ill-formed configuration, which a model refuses
  (spec/00_scope.md R13, spec/93_implementation_defined.md U1). Raised by `step`. Safe. -/
  | illFormedConfiguration
  /-- The environment's list holds a number with more than `W + 2` bits, which is no item of format `SI`
  (spec/30_encoding.md R71). Raised by `step`. Safe. -/
  | notAnItem
  deriving DecidableEq, Repr

/-- `MOD`'s registers after `RESET` (R40). -/
def ModRegs.reset : ModRegs where
  state := .idle
  t := 0
  held := false
  bit := 0#1
  cause := .none

/-- `DEM`'s registers after `RESET` and after `DEM.START` (R40, spec/42_synchronizer.md R140). -/
def DemRegs.reset : DemRegs where
  state := .init
  t := 0
  symlen := 0
  rem := 0
  cnt := { c0 := 0, c1 := 0, c2 := 0, c3 := 0 }
  pos := 0
  cause := .none
  fstate := .init

/-- An environment that has offered nothing and received nothing. -/
def Env.quiet : Env where
  turns := []
  bitSrc := []
  smpSrc := []
  smpAnswers := []
  bitAnswers := []
  smpSink := []
  bitSink := []

/-- The machine right after `RESET` (R40), in the reference configuration (R9), in an environment that has not
acted yet. -/
def State.reset : State where
  cfg := .reference
  mod := .reset
  dem := .reset
  env := .quiet

end Sys2Proof.Machine
end

