-- ==== Sys2Proof/Machine/Flags.lean ====
section
/-!
DEFINITION. There are no flags (spec/10_state.md R34): the codes of the state and cause registers
(spec/30_encoding.md R80, R81, spec/60_exceptions.md R191), the predicates of R34 over them, the two status words of
R36, and which states fetch.
-/

namespace Sys2Proof.Machine

open Sys2Proof

/-- The code of `M_STATE` (spec/30_encoding.md R80). -/
def mStateCode : MState → BitVec 2
  | .idle => 0#2
  | .run => 1#2
  | .done => 2#2
  | .failed => 3#2

/-- The code of `D_STATE` and of `D_FSTATE` (spec/30_encoding.md R81). -/
def dStateCode : DState → BitVec 3
  | .init => 0#3
  | .fz => 1#3
  | .fo => 2#3
  | .sz => 3#3
  | .so => 4#3
  | .cls => 5#3
  | .done => 6#3
  | .failed => 7#3

/-- The cause codes (spec/60_exceptions.md R191). -/
def causeCode : Cause → BitVec 2
  | .none => 0#2
  | .sync => 1#2
  | .channel => 2#2
  | .syncEos => 3#2

/-- The code of a sink's answer (spec/30_encoding.md R72, R73). -/
def answerCode : Answer → BitVec 1
  | .ok => 0#1
  | .fail => 1#1

/-- `MOD` fetches in `RUN` and in no other state (spec/41_modulator.md R128). -/
def modFetches : MState → Bool
  | .idle => false
  | .run => true
  | .done => false
  | .failed => false

/-- The synchronizer's five states (spec/10_state.md R25). -/
def inSync : DState → Bool
  | .init => true
  | .fz => true
  | .fo => true
  | .sz => true
  | .so => true
  | .cls => false
  | .done => false
  | .failed => false

/-- `DEM` fetches in `INIT`, `FZ`, `FO`, `SZ`, `SO`, `CLS` and in no other state (spec/42_synchronizer.md R141). -/
def demFetches : DState → Bool
  | .init => true
  | .fz => true
  | .fo => true
  | .sz => true
  | .so => true
  | .cls => true
  | .done => false
  | .failed => false

/-- `mod_done` (spec/10_state.md R34). -/
def modDone (s : State) : Bool :=
  s.mod.state == .done

/-- `mod_failed` (spec/10_state.md R34). -/
def modFailed (s : State) : Bool :=
  s.mod.state == .failed

/-- `dem_synced` (spec/10_state.md R34); under `EOS_IN_SYNC = NORMAL` it is `D_STATE = CLS` only. -/
def demSynced (s : State) : Bool :=
  match s.cfg.eosInSync with
  | .fail => s.dem.state == .cls || s.dem.state == .done
  | .normal => s.dem.state == .cls

/-- `dem_done` (spec/10_state.md R34). -/
def demDone (s : State) : Bool :=
  s.dem.state == .done

/-- `dem_failed` (spec/10_state.md R34). -/
def demFailed (s : State) : Bool :=
  s.dem.state == .failed

/-- `MOD_STATUS`, the host's read-only view (spec/10_state.md R36). -/
def modStatus (s : State) : BitVec 8 :=
  0#2 ++ causeCode s.mod.cause ++ s.mod.bit ++ BitVec.ofBool s.mod.held ++ mStateCode s.mod.state

/-- `DEM_STATUS`, the host's read-only view (spec/10_state.md R36). -/
def demStatus (s : State) : BitVec 8 :=
  dStateCode s.dem.fstate ++ causeCode s.dem.cause ++ dStateCode s.dem.state

end Sys2Proof.Machine
end

