-- ==== Sys2Proof/Machine/Operands.lean ====
section
/-!
DEFINITION. Operand assembly: samples as integers, characters as bits, symbols as characters, the preamble
(spec/30_encoding.md R75 to R79, spec/00_scope.md R14 and R15).
-/

namespace Sys2Proof.Machine

open Sys2Proof

/-- `sint_W(b)`: the integer a `W`-bit two's-complement sample denotes (R14, R79). -/
def sintW (w : Nat) (word : SampleWord) : Int :=
  (BitVec.ofNat w word).toInt

/-- `bits_W(v)`: the `W`-bit two's-complement pattern of an integer in range (R14, R72). -/
def bitsW (w : Nat) (v : Int) : SampleWord :=
  (BitVec.ofInt w v).toNat

/-- The character `'0'` (R76). -/
def char0 : Char8 := 0x30#8

/-- The character `'1'` (R76). -/
def char1 : Char8 := 0x31#8

/-- The newline terminator (R76). -/
def newline : Char8 := 0x0A#8

/-- Symbol assembly `2*bit1 + bit2`, `bit1` consumed first (R75). -/
def assembleSymbol (bit1 bit2 : BitVec 1) : Symbol :=
  bit1 ++ bit2

/-- The first character written for symbol `k`: `0x30 + k[1]` (R77). -/
def firstChar (k : Symbol) : Char8 :=
  char0 + (k.extractLsb' 1 1).setWidth 8

/-- The second character written for symbol `k`: `0x30 + k[0]` (R77). -/
def secondChar (k : Symbol) : Char8 :=
  char0 + (k.extractLsb' 0 1).setWidth 8

/-- The bits of the preamble literal `"00110011"`, left to right (R78). -/
def preambleBits : List (BitVec 1) :=
  [0#1, 0#1, 1#1, 1#1, 0#1, 0#1, 1#1, 1#1]

/-- Cuts bits left to right into pairs and assembles each pair (R75); a bit left over is dropped. -/
def pairUp : List (BitVec 1) → List Symbol
  | bit1 :: bit2 :: rest => assembleSymbol bit1 bit2 :: pairUp rest
  | _ => []

/-- `PRE[0..3]`: the preamble as symbols (R78). -/
def preamble : List Symbol :=
  pairUp preambleBits

end Sys2Proof.Machine
end

