-- ==== Sys2Proof/Syntax.lean ====
section
/-!
DEFINITION. The operations of BMS-QPSK, one constructor per row of spec/opcode_table.json, and what selects
one (spec/30_encoding.md R70 to R74, R83, R84). An operation is what one unit does with one fetched item or with one
control strobe (spec/00_scope.md R4).
-/

namespace Sys2Proof

/-- The operations, in the table's order. A sample operand is the integer `x = sint_W(smp)` of R79. -/
inductive Instr where
  /-- `MOD.START`, strobe (R120). -/
  | modStart
  /-- `MOD.RDFAIL`, `BI` item `1x xxxxxxxx` (R126). -/
  | modRdfail
  /-- `MOD.EOS`, `BI` item `01 xxxxxxxx` (R125). -/
  | modEos
  /-- `MOD.BIT0`, `BI` item `00 00110000` (R122). -/
  | modBit0
  /-- `MOD.BIT1`, `BI` item `00 00110001` (R123). -/
  | modBit1
  /-- `MOD.STOP`, `BI` item `00 cccccccc` with any other character (R124). -/
  | modStop (ch : Char8)
  /-- `GEN`, internal, with the symbol it is invoked with (R121). -/
  | gen (ss : Symbol)
  /-- `DEM.START`, strobe (R140). -/
  | demStart
  /-- `DEM.RDFAIL`, `SI` item `1x x...x` in a fetching state (R175). -/
  | demRdfail
  /-- `SYNC.EOS`, `SI` item `01 x...x` in `INIT..SO` (R152). -/
  | syncEos
  /-- `CLS.EOS`, `SI` item `01 x...x` in `CLS` (R174). -/
  | clsEos
  /-- `SYNC.INIT`, `SI` item `00 v...v` in `INIT` (R143). -/
  | syncInit (x : Int)
  /-- `SYNC.FZ`, `SI` item `00 v...v` in `FZ` (R144). -/
  | syncFz (x : Int)
  /-- `SYNC.FO`, `SI` item `00 v...v` in `FO` (R147). -/
  | syncFo (x : Int)
  /-- `SYNC.SZ`, `SI` item `00 v...v` in `SZ` (R148). -/
  | syncSz (x : Int)
  /-- `SYNC.SO`, `SI` item `00 v...v` in `SO` (R149). -/
  | syncSo (x : Int)
  /-- `CLS.SAMPLE`, `SI` item `00 v...v` in `CLS` (R171). -/
  | clsSample (x : Int)
  /-- `CLS.DECIDE`, internal, no operand (R172). -/
  | clsDecide
  deriving DecidableEq, Repr

/-- The strobes that are operations (format `CTL`, R74). `RESET` is a control input, not an operation. -/
inductive Strobe where
  | modStart
  | demStart
  deriving DecidableEq, Repr

/-- What selects an operation: a strobe wire, a fetched item of one of the two source formats, or another
operation that invokes it (R83, R84). -/
inductive Selector where
  /-- A strobe, format `CTL`. -/
  | strobe (wire : Strobe)
  /-- An item of `BITSRC`, format `BI`. -/
  | bitItem (item : BitItem)
  /-- An item of `SMPSRC`, format `SI`. -/
  | sampleItem (item : SampleItem)
  /-- The invocation of `GEN` with a symbol. -/
  | invokeGen (ss : Symbol)
  /-- The invocation of `CLS.DECIDE`. -/
  | invokeDecide
  deriving DecidableEq, Repr

end Sys2Proof
end

