-- ==== Sys2Proof/WellFormed.lean ====
section
/-!
DEFINITION. Which terms of `Instr` are operations of an instance with `W`-bit samples: the operand restrictions of
spec/30_encoding.md R83 and R71.
-/

namespace Sys2Proof

/-- An integer that some `W`-bit two's-complement sample denotes (spec/00_scope.md R14). -/
def sampleInRange (w : Nat) (x : Int) : Bool :=
  decide (-(2 ^ (w - 1) : Nat) ≤ x ∧ x < (2 ^ (w - 1) : Nat))

/-- `MOD.STOP` takes the 254 characters that are not bits (R83); a sample operand is a `W`-bit sample (R71). -/
def Instr.wellFormed (w : Nat) : Instr → Bool
  | .modStart => true
  | .modRdfail => true
  | .modEos => true
  | .modBit0 => true
  | .modBit1 => true
  | .modStop ch => decide (ch ≠ 0x30#8 ∧ ch ≠ 0x31#8)
  | .gen _ => true
  | .demStart => true
  | .demRdfail => true
  | .syncEos => true
  | .clsEos => true
  | .syncInit x => sampleInRange w x
  | .syncFz x => sampleInRange w x
  | .syncFo x => sampleInRange w x
  | .syncSz x => sampleInRange w x
  | .syncSo x => sampleInRange w x
  | .clsSample x => sampleInRange w x
  | .clsDecide => true

end Sys2Proof
end

