-- ==== Sys2Proof/Decode.lean ====
section
/-!
DEFINITION. The operation map of spec/30_encoding.md R83 and R84 as a decoder, and the encoder beside it.
-/

namespace Sys2Proof

open Sys2Proof.Machine

/-- Why nothing is decoded. -/
inductive DecodeReject where
  /-- The number has more than `W + 2` bits: no item of format `SI` (R71). -/
  | notAnItem
  /-- The unit is in a state that fetches nothing (R83, R84). -/
  | unitHalted
  deriving DecidableEq, Repr

/-- `BI` items, first row that applies, top to bottom (R83). Every item is an operation (R86). -/
def decodeBit (item : BitItem) : Instr :=
  let st := item.extractLsb' 8 2
  let ch := item.extractLsb' 0 8
  if st.getLsbD 1 then .modRdfail
  else if st = 0b01#2 then .modEos
  else if ch = char0 then .modBit0
  else if ch = char1 then .modBit1
  else .modStop ch

/-- The `st` field of an `SI` item, bits W+1:W (R71). -/
def sampleStatus (w : Nat) (item : SampleItem) : BitVec 2 :=
  BitVec.ofNat 2 (item / 2 ^ w)

/-- `SI` items of `W`-bit samples in a given `D_STATE`, first row that applies, top to bottom (R84). -/
def decodeSample (w : Nat) (d : DState) (item : SampleItem) : Except DecodeReject Instr :=
  if 2 ^ (w + 2) ≤ item then .error .notAnItem
  else if !demFetches d then .error .unitHalted
  else
    let st := sampleStatus w item
    if st.getLsbD 1 then .ok .demRdfail
    else if st = 0b01#2 then
      match d with
      | .cls => .ok .clsEos
      | _ => .ok .syncEos
    else
      let x := sintW w item
      match d with
      | .init => .ok (.syncInit x)
      | .fz => .ok (.syncFz x)
      | .fo => .ok (.syncFo x)
      | .sz => .ok (.syncSz x)
      | .so => .ok (.syncSo x)
      | .cls => .ok (.clsSample x)
      | .done => .error .unitHalted
      | .failed => .error .unitHalted

/-- The operation a selector stands for, in an instance with `W`-bit samples whose units are in the given states
(R83, R84). Total on any bits; a rejection has a name. -/
def decode (w : Nat) (m : MState) (d : DState) : Selector → Except DecodeReject Instr
  | .strobe .modStart => .ok .modStart
  | .strobe .demStart => .ok .demStart
  | .bitItem item => if modFetches m then .ok (decodeBit item) else .error .unitHalted
  | .sampleItem item => decodeSample w d item
  | .invokeGen ss => .ok (.gen ss)
  | .invokeDecide => .ok .clsDecide

/-- A `DATA` character as a `BI` item (R70). -/
def bitData (ch : Char8) : BitItem :=
  0b00#2 ++ ch

/-- The end of the bit stream as a `BI` item; the ignored field is written as 0 (R70). -/
def bitEos : BitItem := 0x100#10

/-- A failed read as a `BI` item (R70). -/
def bitFail : BitItem := 0x200#10

/-- A `DATA` sample as an `SI` item: `st = 0b00` above the sample's `W` bits (R71). -/
def sampleData (w : Nat) (x : Int) : SampleItem :=
  0 * 2 ^ w + bitsW w x

/-- The end of the sample stream as an `SI` item; the ignored field is written as 0 (R71). -/
def sampleEos (w : Nat) : SampleItem :=
  1 * 2 ^ w

/-- A failed read as an `SI` item (R71). -/
def sampleFail (w : Nat) : SampleItem :=
  2 * 2 ^ w

/-- The selector of an operation (R83, R84), ignored bits written as 0. -/
def encode (w : Nat) : Instr → Selector
  | .modStart => .strobe .modStart
  | .modRdfail => .bitItem bitFail
  | .modEos => .bitItem bitEos
  | .modBit0 => .bitItem (bitData char0)
  | .modBit1 => .bitItem (bitData char1)
  | .modStop ch => .bitItem (bitData ch)
  | .gen ss => .invokeGen ss
  | .demStart => .strobe .demStart
  | .demRdfail => .sampleItem (sampleFail w)
  | .syncEos => .sampleItem (sampleEos w)
  | .clsEos => .sampleItem (sampleEos w)
  | .syncInit x => .sampleItem (sampleData w x)
  | .syncFz x => .sampleItem (sampleData w x)
  | .syncFo x => .sampleItem (sampleData w x)
  | .syncSz x => .sampleItem (sampleData w x)
  | .syncSo x => .sampleItem (sampleData w x)
  | .clsSample x => .sampleItem (sampleData w x)
  | .clsDecide => .invokeDecide

/-- The states of the two units in which an operation is the one its selector stands for (R83, R84). -/
def selectedIn (m : MState) (d : DState) : Instr → Bool
  | .modStart => true
  | .modRdfail => modFetches m
  | .modEos => modFetches m
  | .modBit0 => modFetches m
  | .modBit1 => modFetches m
  | .modStop _ => modFetches m
  | .gen _ => true
  | .demStart => true
  | .demRdfail => demFetches d
  | .syncEos => inSync d
  | .clsEos => d == .cls
  | .syncInit _ => d == .init
  | .syncFz _ => d == .fz
  | .syncFo _ => d == .fo
  | .syncSz _ => d == .sz
  | .syncSo _ => d == .so
  | .clsSample _ => d == .cls
  | .clsDecide => true

/-- The selector that an operation's bits stand for, by how many bits the opcode table gives its row in whole
bytes: `ss` of `GEN` (2 bits), a `BI` item (10 bits), an `SI` item of the reference width (34 bits). The rows without
bits (strobes, `CLS.DECIDE`) have none. A word with a bit set above its format's width is refused. -/
def tableSelector (nbits word : Nat) : Option Selector :=
  if nbits = 0 then none
  else if nbits ≤ 8 then
    if word < 2 ^ 2 then some (.invokeGen (BitVec.ofNat 2 word)) else none
  else if nbits ≤ 16 then
    if word < 2 ^ 10 then some (.bitItem (BitVec.ofNat 10 word)) else none
  else if nbits ≤ 40 then
    if word < 2 ^ 34 then some (.sampleItem word) else none
  else none

/-- What the decoder reads from the bits of an opcode-table row. Six rows share the bits `00 v…v` and two share
`01 x…x`; the state `D_STATE` tells them apart (R85), and here it is that of a freshly reset `DEM`, `INIT`. -/
def decodeTableWord (nbits w : Nat) : Option Instr :=
  match tableSelector nbits w with
  | none => none
  | some sel =>
    match decode 32 .run .init sel with
    | .ok i => some i
    | .error _ => none

end Sys2Proof
end

