-- ==== Sys2Proof/Machine/Carrier.lean ====
section
/-!
DEFINITION. The phase table and the numeric primitives both pipelines use (spec/40_phase_numerics.md R100 to R116).

The spec's cosine is the exact real one (R105). It is realised here by exact integer arithmetic: `cosCmp` decides
how `cos(π·h/m)` compares with a rational, `roundCosine` reads `round(A·cos(…))` off it (R107) and `phaseMatch` the
match predicate in the integer form of R111. That these are the real-number rules is proved in Laws/Cosine.lean.
-/

namespace Sys2Proof.Machine

open Sys2Proof

/-- `PHASE8[k]`, the phase of a symbol in eighths of a turn (R100). -/
def phase8 (k : Symbol) : Nat :=
  match k.toNat with
  | 0 => 1
  | 1 => 7
  | 2 => 3
  | _ => 5

/-- `g = gcd(8·F, S)` (R104). -/
def carrierG (c : Config) : Nat :=
  Nat.gcd (8 * c.frequency) c.sampleRate

/-- `N = 8·S / g`, the number of equal steps of one cosine period (R104). -/
def carrierN (c : Config) : Nat :=
  8 * c.sampleRate / carrierG c

/-- `KT = 8·F / g` (R104). -/
def carrierKT (c : Config) : Nat :=
  8 * c.frequency / carrierG c

/-- `KP = S / g` (R104). -/
def carrierKP (c : Config) : Nat :=
  c.sampleRate / carrierG c

/-- `J(t, k) = (KT·t + PHASE8[k]·KP) mod N` (R104). -/
def carrierJ (c : Config) (t : Nat) (k : Symbol) : Nat :=
  (carrierKT c * t + phase8 k * carrierKP c) % carrierN c

/-- `N / 2`, the number of steps of half a period; `N = 8·KP` is even. -/
def halfPeriod (c : Config) : Nat :=
  carrierN c / 2

/-- The step in `0 .. N/2` with the same cosine as step `j`, the cosine being even: `cos(2π·j/N) = cos(π·h/(N/2))`. -/
def foldStep (c : Config) (j : Nat) : Nat :=
  if j ≤ halfPeriod c then j else carrierN c - j

/-- The multiples `i·α` of the angle `α = arccos(p/q)`, `0 ≤ p < q`, counted in half turns. With `p2 = 2p`,
`q2 = q²` the numbers `a`, `b` are the sizes of `q^(i-1)·sin(i·α)/sin α` for two consecutive `i`, which obey
`sin((i+1)α) = 2·cos α·sin(iα) - sin((i-1)α)`; `crossed` says that a half turn was completed between them. After `n`
more steps the result is the number of half turns completed, and whether the last multiple ends exactly on one. -/
def halfTurns (p2 q2 : Nat) : Nat → Bool → Nat → Nat → Nat → Nat × Bool
  | 0, _, _, b, turns => (turns, Nat.beq b 0)
  | n + 1, true, a, b, turns => halfTurns p2 q2 n false b (p2 * b + q2 * a) turns
  | n + 1, false, a, b, turns =>
    match Nat.ble (p2 * b) (q2 * a) with
    | true => halfTurns p2 q2 n true b (q2 * a - p2 * b) (turns + 1)
    | false => halfTurns p2 q2 n false b (p2 * b - q2 * a) turns

/-- How `cos(π·h/m)` compares with `p/q`, for `0 ≤ p < q`, `m ≥ 1`, `h ≤ m`: the comparison of `m·arccos(p/q)` with
`h·π`, the cosine being strictly decreasing on `0 .. π`. -/
def cosCmpNat (p q h m : Nat) : Ordering :=
  match halfTurns (2 * p) (q * q) (m - 1) false 0 1 0 with
  | (turns, exact) =>
    match Nat.ble h turns, exact && Nat.beq h turns with
    | _, true => .eq
    | true, false => .gt
    | false, false => .lt

/-- How `cos(π·h/m)` compares with the rational `p/q`, for `q ≥ 1`, `m ≥ 1`, `h ≤ m`. For a negative `p` the angle
is mirrored: `cos(π·h/m) = -cos(π·(m-h)/m)`. -/
def cosCmp (p : Int) (q h m : Nat) : Ordering :=
  match p with
  | .ofNat n =>
    if n < q then cosCmpNat n q h m
    else if n = q ∧ h = 0 then .eq
    else .lt
  | .negSucc n =>
    if n + 1 < q then (cosCmpNat (n + 1) q (m - h) m).swap
    else if n + 1 = q ∧ h = m then .eq
    else .gt

/-- The greatest number in `v .. v + 2^bits - 1` that passes a test which `v` passes and which fails from some
number on, found bit by bit from the top. -/
def greatestPassing (test : Nat → Bool) : Nat → Nat → Nat
  | 0, v => v
  | bits + 1, v =>
    match test (v + 2 ^ bits) with
    | true => greatestPassing test bits (v + 2 ^ bits)
    | false => greatestPassing test bits v

/-- `round(a·cos(π·h/m))` where the cosine is not negative (`2·h ≤ m`): the greatest `v` with
`v - 1/2 ≤ a·cos(π·h/m)`, so that a tie goes away from zero (R106). -/
def roundCosineNat (a h m : Nat) : Nat :=
  greatestPassing (fun v => cosCmp (2 * v - 1) (2 * a) h m != .lt) (a.log2 + 1) 0

/-- `round(a·cos(π·h/m))` (R106, R107). -/
def roundCosine (a h m : Nat) : Int :=
  if 2 * h ≤ m then roundCosineNat a h m else -(roundCosineNat a (m - h) m : Int)

/-- `COSQ[j] = round(A·cos(2π·j/N))` (R107). -/
def cosq (c : Config) (j : Nat) : Int :=
  roundCosine c.amplitude (foldStep c j) (halfPeriod c)

/-- `SAMPLE(t, k) = COSQ[J(t, k)]` (R107). -/
def sampleValue (c : Config) (t : Nat) (k : Symbol) : Int :=
  cosq c (carrierJ c t k)

/-- `LO[j] <= x <= HI[j]`, in the form `A·cos(2π·j/N) - A·TH < x < A·cos(2π·j/N) + A·TH` of R111, that is
`(x - A·TH)/A < cos(2π·j/N) < (x + A·TH)/A`. -/
def stepMatch (c : Config) (j : Nat) (x : Int) : Bool :=
  let scaled := x * c.threshold.den
  let margin := c.amplitude * c.threshold.num
  let q := c.amplitude * c.threshold.den
  cosCmp (scaled - margin) q (foldStep c j) (halfPeriod c) == .gt &&
    cosCmp (scaled + margin) q (foldStep c j) (halfPeriod c) == .lt

/-- `MATCH(t, k, x)` (R110). -/
def phaseMatch (c : Config) (t : Nat) (k : Symbol) (x : Int) : Bool :=
  stepMatch c (carrierJ c t k) x

end Sys2Proof.Machine
end

