-- ==== Sys2Proof/Machine/Ops.lean ====
section
/-!
DEFINITION. The named operations over registers and streams: register writes, `SinkWrite` and `SrcRead`
(spec/20_memory.md R52, R53), `raise` (spec/60_exceptions.md R196), reset and the start strobes' register writes
(spec/10_state.md R40), and the bodies several operations share.
-/

namespace Sys2Proof.Machine

open Sys2Proof

/-- What a step answers. -/
abbrev Result := Host.Outcome State Fault Refusal

/-- Writes `MOD`'s registers. -/
def State.setMod (s : State) (m : ModRegs) : State :=
  { s with mod := m }

/-- Writes `DEM`'s registers. -/
def State.setDem (s : State) (d : DemRegs) : State :=
  { s with dem := d }

/-- Changes the environment's side. -/
def State.setEnv (s : State) (e : Env) : State :=
  { s with env := e }

/-! ### Streams -/

/-- The next answer of a sink and the answers after it; a used-up list answers `ok`. -/
def nextAnswer : List Answer → Answer × List Answer
  | [] => (.ok, [])
  | a :: rest => (a, rest)

/-- `SinkWrite(SMPSINK, v)`: on `ok` the value is appended, on `fail` nothing is (spec/20_memory.md R53). -/
def sinkWriteSample (v : SampleWord) (s : State) : Answer × State :=
  match nextAnswer s.env.smpAnswers with
  | (.ok, rest) => (.ok, s.setEnv { s.env with smpAnswers := rest, smpSink := s.env.smpSink ++ [v] })
  | (.fail, rest) => (.fail, s.setEnv { s.env with smpAnswers := rest })

/-- `SinkWrite(BITSINK, c)`. -/
def sinkWriteChar (c : Char8) (s : State) : Answer × State :=
  match nextAnswer s.env.bitAnswers with
  | (.ok, rest) => (.ok, s.setEnv { s.env with bitAnswers := rest, bitSink := s.env.bitSink ++ [c] })
  | (.fail, rest) => (.fail, s.setEnv { s.env with bitAnswers := rest })

/-- `SrcRead(BITSRC)`: the next item, or nothing while the environment offers none (spec/20_memory.md R52,
spec/60_exceptions.md R201). -/
def srcReadBit (s : State) : Option (BitItem × State) :=
  match s.env.bitSrc with
  | [] => none
  | item :: rest => some (item, s.setEnv { s.env with bitSrc := rest })

/-- `SrcRead(SMPSRC)`. -/
def srcReadSample (s : State) : Option (SampleItem × State) :=
  match s.env.smpSrc with
  | [] => none
  | item :: rest => some (item, s.setEnv { s.env with smpSrc := rest })

/-! ### Errors -/

/-- `raise ChannelError` in `MOD` (spec/60_exceptions.md R193, R196): the cause is recorded and the unit halts;
what the step wrote before stays. -/
def raiseMod (s : State) : State :=
  s.setMod { s.mod with cause := .channel, state := .failed }

/-- `raise` in `DEM` (spec/60_exceptions.md R192 to R194, R196): the cause and the state whose check failed are
recorded and the unit halts; what the step wrote before stays. -/
def raiseDem (cause : Cause) (at_ : DState) (s : State) : State :=
  s.setDem { s.dem with cause := cause, fstate := at_, state := .failed }

/-- `raise SyncError(at_)` (R192). -/
def raiseSync (at_ : DState) (s : State) : Result :=
  .next (raiseDem .sync at_ s)

/-- `raise ChannelError` in `DEM`: `D_FSTATE` takes the value of `D_STATE` (R193). -/
def raiseDemChannel (s : State) : State :=
  raiseDem .channel s.dem.state s

/-! ### Reset and start -/

/-- `RESET`: both units take their reset values; constants, streams and schedule are not touched
(spec/10_state.md R40, spec/70_reset_and_hazards.md R220). -/
def resetUnits (s : State) : State :=
  (s.setMod .reset).setDem .reset

/-- The register writes with which `MOD.START` begins, before the preamble (spec/41_modulator.md R120). -/
def clearMod (s : State) : State :=
  s.setMod { s.mod with t := 0, held := false, bit := 0#1, cause := .none }

/-! ### Steps with several writes -/

/-- How a part of a step ends: the step goes on, or an error was raised and the step is over. Both leave a
state. -/
inductive Flow where
  | goOn (s : State)
  | raised (s : State)
  deriving DecidableEq, Repr

/-- The next part of the step, which a raised error leaves out (spec/60_exceptions.md R196). -/
def flowThen (f : Flow) (next : State → Flow) : Flow :=
  match f with
  | .goOn s => next s
  | .raised s => .raised s

/-- A step's next state, whether it ended by itself or by an error. -/
def flowResult : Flow → Result
  | .goOn s => .next s
  | .raised s => .next s

/-- One write to `BITSINK`, with `raise ChannelError` on `fail`. -/
def writeChar (c : Char8) (s : State) : Flow :=
  match sinkWriteChar c s with
  | (.ok, s') => .goOn s'
  | (.fail, s') => .raised (raiseDemChannel s')

/-! ### The modulator's bodies -/

/-- One turn of `GEN`'s loop (spec/41_modulator.md R121): write `SAMPLE(M_T, ss)`, then `M_T <- M_T + 1`. -/
def genOne (ss : Symbol) (s : State) : Flow :=
  match sinkWriteSample (bitsW s.cfg.sampleBits (sampleValue s.cfg s.mod.t ss)) s with
  | (.ok, s') => .goOn (s'.setMod { s'.mod with t := s'.mod.t + 1 })
  | (.fail, s') => .raised (raiseMod s')

/-- `GEN`'s loop, `n` samples. -/
def genLoop (ss : Symbol) : Nat → State → Flow
  | 0, s => .goOn s
  | n + 1, s => flowThen (genOne ss s) (genLoop ss n)

/-- `GEN(ss)`: `L` samples (R121). -/
def generate (ss : Symbol) (s : State) : Flow :=
  genLoop ss s.cfg.symbolLen s

/-- `GEN` for each symbol of a list in order, as `MOD.START` calls it for the preamble (R120). -/
def generateAll : List Symbol → State → Flow
  | [], s => .goOn s
  | ss :: rest, s => flowThen (generate ss s) (generateAll rest)

/-- The pseudocode `MOD.BIT0` and `MOD.BIT1` share (R122): hold the first bit of a pair, or complete the pair and
generate its symbol. -/
def consumeBit (b : BitVec 1) (s : State) : Flow :=
  if s.mod.held then
    generate (assembleSymbol s.mod.bit b) (s.setMod { s.mod with held := false, bit := 0#1 })
  else
    .goOn (s.setMod { s.mod with held := true, bit := b })

/-- The normal end of a modulator run, `M_STATE <- DONE` (R124, R125). -/
def finishMod (s : State) : State :=
  s.setMod { s.mod with state := .done }

/-! ### The demodulator's bodies -/

/-- `D_CNT[k]` (spec/10_state.md R29). -/
def getCount (cnt : Counts) (k : Symbol) : Nat :=
  match k.toNat with
  | 0 => cnt.c0
  | 1 => cnt.c1
  | 2 => cnt.c2
  | _ => cnt.c3

/-- `D_CNT` with all four counters 0. -/
def zeroCounts : Counts :=
  { c0 := 0, c1 := 0, c2 := 0, c3 := 0 }

/-- One lane of the classifier: the counter plus one if the sample matches (spec/43_classifier.md R171, R178). -/
def bump (hit : Bool) (n : Nat) : Nat :=
  if hit then n + 1 else n

/-- The four lanes on one sample, all with the same time index (R178). -/
def scoreCounts (c : Config) (t : Nat) (x : Int) (cnt : Counts) : Counts where
  c0 := bump (phaseMatch c t 0#2 x) cnt.c0
  c1 := bump (phaseMatch c t 1#2 x) cnt.c1
  c2 := bump (phaseMatch c t 2#2 x) cnt.c2
  c3 := bump (phaseMatch c t 3#2 x) cnt.c3

/-- One turn of `CLS.DECIDE`'s scan: a later candidate replaces the best only with a strictly greater count
(R172). -/
def better (cnt : Counts) (best k : Symbol) : Symbol :=
  if getCount cnt best < getCount cnt k then k else best

/-- The winner of a period: the scan over `k = 1, 2, 3` from `best = 0` (R172). -/
def winner (cnt : Counts) : Symbol :=
  better cnt (better cnt (better cnt 0#2 1#2) 2#2) 3#2

/-- `CLS.DECIDE` (R172): two characters, then the counters and `D_POS` are cleared. -/
def decidePeriod (s : State) : Flow :=
  let best := winner s.dem.cnt
  flowThen (writeChar (firstChar best) s) fun s1 =>
    flowThen (writeChar (secondChar best) s1) fun s2 =>
      .goOn (s2.setDem { s2.dem with cnt := zeroCounts, pos := 0 })

/-- The end of a run with a newline, then `D_STATE <- DONE` (R174; R152 under `NORMAL`). -/
def finishDem (s : State) : Flow :=
  flowThen (writeChar newline s) fun s1 => .goOn (s1.setDem { s1.dem with state := .done })

end Sys2Proof.Machine
end

