-- ==== Sys2Proof/Machine/Classifier.lean ====
section
/-!
DEFINITION. The operations of `CLS` and the failed read of `DEM` (spec/43_classifier.md R171 to R175).
-/

namespace Sys2Proof.Machine

open Sys2Proof

/-- The register writes of `CLS.SAMPLE` before the end of the period is looked for (R171). -/
def scoreSample (x : Int) (s : State) : State :=
  s.setDem { s.dem with
    cnt := scoreCounts s.cfg s.dem.t x s.dem.cnt, t := s.dem.t + 1, pos := s.dem.pos + 1 }

/-- `CLS.SAMPLE` (R171): score, and decide within the same step when the period is complete. -/
def execClsSample (x : Int) (s : State) : Result :=
  let s1 := scoreSample x s
  if s1.dem.pos = s1.dem.symlen then flowResult (decidePeriod s1) else .next s1

/-- `CLS.DECIDE` (R172). -/
def execClsDecide (s : State) : Result :=
  flowResult (decidePeriod s)

/-- `CLS.EOS` (R174): the newline, then `D_STATE <- DONE`; a partial period is left undecided. -/
def execClsEos (s : State) : Result :=
  flowResult (finishDem s)

/-- `DEM.RDFAIL` (R175): `raise ChannelError`. -/
def execDemRdfail (s : State) : Result :=
  .next (raiseDemChannel s)

end Sys2Proof.Machine
end

