-- ==== Sys2Proof/Machine/Modulator.lean ====
section
/-!
DEFINITION. The operations of `MOD` (spec/41_modulator.md R120 to R126).
-/

namespace Sys2Proof.Machine

open Sys2Proof

/-- `MOD.START` (R120): clear the registers, generate the preamble, then `M_STATE <- RUN`. -/
def execModStart (s : State) : Result :=
  flowResult (flowThen (generateAll preamble (clearMod s)) fun s1 =>
    .goOn (s1.setMod { s1.mod with state := .run }))

/-- `MOD.RDFAIL` (R126): `raise ChannelError`. -/
def execModRdfail (s : State) : Result :=
  .next (raiseMod s)

/-- `MOD.EOS` (R125): the run ends; a held bit stays readable and is dropped. -/
def execModEos (s : State) : Result :=
  .next (finishMod s)

/-- `MOD.BIT0` (R122). -/
def execModBit0 (s : State) : Result :=
  flowResult (consumeBit 0#1 s)

/-- `MOD.BIT1` (R123). -/
def execModBit1 (s : State) : Result :=
  flowResult (consumeBit 1#1 s)

/-- `MOD.STOP` (R124): the run ends; the character's value is not used. -/
def execModStop (_ch : Char8) (s : State) : Result :=
  .next (finishMod s)

/-- `GEN` (R121). -/
def execGen (ss : Symbol) (s : State) : Result :=
  flowResult (generate ss s)

end Sys2Proof.Machine
end

