-- ==== Sys2Proof/Machine/Synchronizer.lean ====
section
/-!
DEFINITION. The operations of `SYNC` and the start of `DEM` (spec/42_synchronizer.md R140 to R152).

"Matches phase `00`" is `MATCH(D_T, 0, x)` and "matches phase `11`" is `MATCH(D_T, 3, x)`, with the value `D_T` has
at the start of the step.
-/

namespace Sys2Proof.Machine

open Sys2Proof

/-- The current sample matches preamble phase `k`. -/
def matchesNow (s : State) (k : Symbol) (x : Int) : Bool :=
  phaseMatch s.cfg s.dem.t k x

/-- `DEM.START` (R140): every `D_` register takes its fresh value. -/
def execDemStart (s : State) : Result :=
  .next (s.setDem .reset)

/-- `SYNC.INIT` (R143). -/
def execSyncInit (x : Int) (s : State) : Result :=
  if matchesNow s 0#2 x then
    .next (s.setDem { s.dem with symlen := s.dem.symlen + 1, t := s.dem.t + 1, state := .fz })
  else raiseSync .init s

/-- `SYNC.FZ` (R144). Phase `00` is tested first. -/
def execSyncFz (x : Int) (s : State) : Result :=
  if matchesNow s 0#2 x then
    .next (s.setDem { s.dem with symlen := s.dem.symlen + 1, t := s.dem.t + 1 })
  else if matchesNow s 3#2 x then
    match s.dem.symlen with
    | 0 => .fault .counterUnderflow
    | n + 1 => .next (s.setDem { s.dem with rem := n, t := s.dem.t + 1, state := .fo })
  else raiseSync .fz s

/-- `SYNC.SO` (R149). Completion is found on the last sample of the plateau. -/
def execSyncSo (x : Int) (s : State) : Result :=
  if matchesNow s 3#2 x then
    match s.dem.rem with
    | 0 => .fault .counterUnderflow
    | 1 => .next (s.setDem { s.dem with rem := 0, t := s.dem.t + 1, state := .cls })
    | n + 2 => .next (s.setDem { s.dem with rem := n + 1, t := s.dem.t + 1 })
  else raiseSync .so s

/-- `SYNC.SZ` (R148); on `D_REM = 0` the same sample goes on as `SYNC.SO` (R145). -/
def execSyncSz (x : Int) (s : State) : Result :=
  match s.dem.rem with
  | 0 => execSyncSo x (s.setDem { s.dem with rem := s.dem.symlen, state := .so })
  | n + 1 =>
    if matchesNow s 0#2 x then .next (s.setDem { s.dem with rem := n, t := s.dem.t + 1 })
    else raiseSync .sz s

/-- `SYNC.FO` (R147); on `D_REM = 0` the same sample goes on as `SYNC.SZ` (R145). -/
def execSyncFo (x : Int) (s : State) : Result :=
  match s.dem.rem with
  | 0 => execSyncSz x (s.setDem { s.dem with rem := s.dem.symlen, state := .sz })
  | n + 1 =>
    if matchesNow s 3#2 x then .next (s.setDem { s.dem with rem := n, t := s.dem.t + 1 })
    else raiseSync .fo s

/-- `SYNC.EOS` (R152), by the parameter `EOS_IN_SYNC`: `raise SyncEos(D_STATE)`, or the newline and `DONE`. -/
def execSyncEos (s : State) : Result :=
  match s.cfg.eosInSync with
  | .fail => .next (raiseDem .syncEos s.dem.state s)
  | .normal => flowResult (finishDem s)

end Sys2Proof.Machine
end

