-- ==== Sys2Proof/Machine/Dispatch.lean ====
section
/-!
DEFINITION. One arm per operation of spec/opcode_table.json.
-/

namespace Sys2Proof.Machine

open Sys2Proof

def exec (i : Instr) (s : State) : Host.Outcome State Fault Refusal :=
  match i with
  | .modStart => Sys2Proof.Machine.execModStart s
  | .modRdfail => Sys2Proof.Machine.execModRdfail s
  | .modEos => Sys2Proof.Machine.execModEos s
  | .modBit0 => Sys2Proof.Machine.execModBit0 s
  | .modBit1 => Sys2Proof.Machine.execModBit1 s
  | .modStop ch => Sys2Proof.Machine.execModStop ch s
  | .gen ss => Sys2Proof.Machine.execGen ss s
  | .demStart => Sys2Proof.Machine.execDemStart s
  | .demRdfail => Sys2Proof.Machine.execDemRdfail s
  | .syncEos => Sys2Proof.Machine.execSyncEos s
  | .clsEos => Sys2Proof.Machine.execClsEos s
  | .syncInit x => Sys2Proof.Machine.execSyncInit x s
  | .syncFz x => Sys2Proof.Machine.execSyncFz x s
  | .syncFo x => Sys2Proof.Machine.execSyncFo x s
  | .syncSz x => Sys2Proof.Machine.execSyncSz x s
  | .syncSo x => Sys2Proof.Machine.execSyncSo x s
  | .clsSample x => Sys2Proof.Machine.execClsSample x s
  | .clsDecide => Sys2Proof.Machine.execClsDecide s

end Sys2Proof.Machine
end

