-- ==== Sys2Proof/Machine/Fetch.lean ====
section
/-!
DEFINITION. What a unit does on its turn: the steps of `MOD` and of `DEM` (spec/41_modulator.md R128,
spec/42_synchronizer.md R141), the refusal of an ill-formed configuration (spec/00_scope.md R13), and how an item is
placed where the next turn fetches it.
-/

namespace Sys2Proof.Machine

open Sys2Proof

/-- The refusal that a rejection of the decoder stands for; a halted unit is never asked to decode. -/
def runDecoded (d : Except DecodeReject Instr) (s : State) : Result :=
  match d with
  | .ok i => exec i s
  | .error .notAnItem => .refused .notAnItem
  | .error .unitHalted => .next s

/-- A step under a configuration that is well-formed for its unit, or the refusal (R13). -/
def guarded (wf : Bool) (r : Result) : Result :=
  if wf then r else .refused .illFormedConfiguration

/-- `MOD`'s turn. The strobe wins over an available item (spec/60_exceptions.md R198); in `RUN` the unit fetches one
item and runs the operation it selects, or waits while none is offered; in every other state it does nothing. -/
def modTurn (start : Bool) (s : State) : Result :=
  if start then guarded s.cfg.wellFormedMod (exec .modStart s)
  else if modFetches s.mod.state then
    match srcReadBit s with
    | none => .next s
    | some (item, s1) =>
      guarded s.cfg.wellFormedMod
        (runDecoded (decode s.cfg.sampleBits s.mod.state s.dem.state (.bitItem item)) s1)
  else .next s

/-- `DEM`'s turn. -/
def demTurn (start : Bool) (s : State) : Result :=
  if start then guarded s.cfg.wellFormed (exec .demStart s)
  else if demFetches s.dem.state then
    match srcReadSample s with
    | none => .next s
    | some (item, s1) =>
      guarded s.cfg.wellFormed
        (runDecoded (decode s.cfg.sampleBits s.mod.state s.dem.state (.sampleItem item)) s1)
  else .next s

/-- What happens on one turn of the environment's schedule. -/
def takeTurn (t : Turn) (s : State) : Result :=
  match t with
  | .reset => .next (resetUnits s)
  | .mod start => modTurn start s
  | .dem start => demTurn start s

/-- The schedule without its first turn. -/
def dropTurn (rest : List Turn) (s : State) : State :=
  s.setEnv { s.env with turns := rest }

/-- One moment of the machine: the schedule's next turn, or nothing while the environment gives no turn
(spec/60_exceptions.md R201). -/
def nextMoment (s : State) : Result :=
  match s.env.turns with
  | [] => .next s
  | t :: rest => takeTurn t (dropTurn rest s)

/-- A bit item placed first on `BITSRC`, `MOD` in `RUN`, and `MOD` next on the schedule. -/
def offerBit (item : BitItem) (s : State) : State :=
  (s.setMod { s.mod with state := .run }).setEnv
    { s.env with turns := .mod false :: s.env.turns, bitSrc := item :: s.env.bitSrc }

/-- A sample item placed first on `SMPSRC`, `DEM` in `INIT`, and `DEM` next on the schedule. -/
def offerSample (item : SampleItem) (s : State) : State :=
  (s.setDem { s.dem with state := .init }).setEnv
    { s.env with turns := .dem false :: s.env.turns, smpSrc := item :: s.env.smpSrc }

/-- The way to `GEN(ss)`, which is never fetched: the first bit of the pair is held and the second one offered, so
that the next step is the bit operation that invokes `GEN(ss)` (spec/41_modulator.md R122). -/
def offerPair (ss : Symbol) (s : State) : State :=
  offerBit (bitData (secondChar ss))
    (s.setMod { s.mod with held := true, bit := ss.extractLsb' 1 1 })

/-- A selector placed so that the next step runs what it selects. -/
def offer (sel : Selector) (s : State) : State :=
  match sel with
  | .strobe .modStart => s.setEnv { s.env with turns := .mod true :: s.env.turns }
  | .strobe .demStart => s.setEnv { s.env with turns := .dem true :: s.env.turns }
  | .bitItem item => offerBit item s
  | .sampleItem item => offerSample item s
  | .invokeGen ss => offerPair ss s
  | .invokeDecide => s

/-- The bits of an opcode-table row placed so that the next step runs them; bits that are no row's change
nothing. -/
def offerTableWord (nbits w : Nat) (s : State) : State :=
  match tableSelector nbits w with
  | none => s
  | some sel => offer sel s

end Sys2Proof.Machine
end

