-- ==== Sys2Proof/Machine/Step.lean ====
section
/-!
DEFINITION. One step of the machine, and the host's way to place an operation's bits where the next step takes
them.
-/

namespace Sys2Proof.Machine

/-- One step: one moment of the environment's schedule. -/
def step (s : State) : Host.Outcome State Fault Refusal :=
  nextMoment s

/-- `s` with the bits of an opcode-table row placed so that `step` fetches and runs them. -/
def State.withFetchWord (s : State) (nbits w : Nat) : State :=
  offerTableWord nbits w s

end Sys2Proof.Machine
end

