-- ==== Sys2Proof/Safety.lean ====
section
/-!
DEFINITION. The terms claims use: the real-number carrier of spec/40_phase_numerics.md R100 to R110, the invariant
of spec/10_state.md R41, and the streams of whole runs (spec/41_modulator.md R127, spec/20_memory.md R57).

The carrier here is the spec's own formula over the real numbers, not evaluated by the machine; the machine's exact
integer arithmetic is a separate definition (Machine/Carrier.lean).
-/

namespace Sys2Proof.Safety

open Sys2Proof Sys2Proof.Machine

/-! ### The carrier over the real numbers -/

/-- `phase_of`: `00→π/4, 01→7π/4, 10→3π/4, 11→5π/4` (R100, R101). -/
noncomputable def phaseOf (k : Symbol) : ℝ :=
  if k = 0b00#2 then Real.pi / 4
  else if k = 0b01#2 then 7 * Real.pi / 4
  else if k = 0b10#2 then 3 * Real.pi / 4
  else 5 * Real.pi / 4

/-- `ANGLE(t, k) = 2π·f_norm·t + PHASE(k)`, `f_norm = F / S` (R102). -/
noncomputable def angle (c : Config) (t : ℕ) (k : Symbol) : ℝ :=
  2 * Real.pi * ((c.frequency : ℝ) / c.sampleRate) * t + phaseOf k

/-- `REF(t, k) = cos(ANGLE(t, k))` (R103). -/
noncomputable def ref (c : Config) (t : ℕ) (k : Symbol) : ℝ :=
  Real.cos (angle c t k)

/-- `round(r)`: the nearest integer, a half going away from zero (R106). -/
noncomputable def roundHalfAway (r : ℝ) : ℤ :=
  if 0 ≤ r then ⌊r + 1 / 2⌋ else ⌈r - 1 / 2⌉

/-- `SAMPLE(t, k) = round(A · REF(t, k))` (R107). -/
noncomputable def sample (c : Config) (t : ℕ) (k : Symbol) : ℤ :=
  roundHalfAway (c.amplitude * ref c t k)

/-- `MATCH(t, k, x)`: `abs(REF(t, k) - x / A) < TH` (R109, R110). -/
def Matches (c : Config) (t : ℕ) (k : Symbol) (x : ℤ) : Prop :=
  |ref c t k - (x : ℝ) / c.amplitude| < (c.threshold : ℝ)

/-- The words of `n` carrier samples of symbol `k` from time index `t` on (R72, spec/41_modulator.md R121). -/
noncomputable def carrierWords (c : Config) (k : Symbol) (t n : ℕ) : List SampleWord :=
  (List.range n).map fun i => bitsW c.sampleBits (sample c (t + i) k)

/-- The symbol of sample `n` of the preamble: `00, 11, 00, 11`, each for `L` samples (spec/20_memory.md R57). -/
def preambleSymbolAt (l n : ℕ) : Symbol :=
  if n / l % 2 = 0 then 0b00#2 else 0b11#2

/-- The first `n` words of the preamble. -/
noncomputable def preambleWords (c : Config) (n : ℕ) : List SampleWord :=
  (List.range n).map fun i => bitsW c.sampleBits (sample c i (preambleSymbolAt c.symbolLen i))

/-! ### Which items select an operation -/

/-- In `RUN` an operation is selected by every `BI` item whose `st` field passes a test (spec/30_encoding.md R83). -/
def SelectedByBitStatus (test : BitVec 2 → Prop) (i : Instr) : Prop :=
  ∀ (w : ℕ) (d : DState) (item : BitItem), test (item.extractLsb' 8 2) → decode w .run d (.bitItem item) = .ok i

/-- In a `D_STATE` an operation is selected by every `DATA` item, with the integer its sample denotes
(spec/30_encoding.md R84, R79). -/
def SelectedByData (d : DState) (op : ℤ → Instr) : Prop :=
  ∀ (w : ℕ) (m : MState) (item : ℕ), item < 2 ^ w →
    decode w m d (.sampleItem item) = .ok (op (sintW w item))

/-- In a `D_STATE` an operation is selected by every `EOS` item, whatever its ignored bits. -/
def SelectedByEos (d : DState) (i : Instr) : Prop :=
  ∀ (w : ℕ) (m : MState) (item : ℕ), 2 ^ w ≤ item → item < 2 * 2 ^ w →
    decode w m d (.sampleItem item) = .ok i

/-- In a `D_STATE` an operation is selected by every item with `st[1] = 1`, whatever its ignored bits. -/
def SelectedByFail (d : DState) (i : Instr) : Prop :=
  ∀ (w : ℕ) (m : MState) (item : ℕ), 2 * 2 ^ w ≤ item → item < 4 * 2 ^ w →
    decode w m d (.sampleItem item) = .ok i

/-! ### Sinks -/

/-- The next `n` writes to a sink are answered `ok`, the list of answers being the environment's (log entry 2: a used-up
list answers `ok`). -/
def AllOk (answers : List Answer) (n : ℕ) : Prop :=
  ∀ a ∈ answers.take n, a = .ok

/-- Write number `n` (from 0) is the first that is answered `fail`. -/
def FirstFail (answers : List Answer) (n : ℕ) : Prop :=
  AllOk answers n ∧ answers[n]? = some .fail

/-- `s` after the words have been written to `SMPSINK`, all answered `ok`. -/
def afterWords (ws : List SampleWord) (s : State) : State :=
  { s with env := { s.env with
      smpSink := s.env.smpSink ++ ws, smpAnswers := s.env.smpAnswers.drop ws.length } }

/-- `s` after the words have been written to `SMPSINK` and one more write has been answered `fail`. -/
def afterWordsThenFail (ws : List SampleWord) (s : State) : State :=
  { s with env := { s.env with
      smpSink := s.env.smpSink ++ ws, smpAnswers := s.env.smpAnswers.drop (ws.length + 1) } }

/-- `s` after the characters have been written to `BITSINK`, all answered `ok`. -/
def afterChars (cs : List Char8) (s : State) : State :=
  { s with env := { s.env with
      bitSink := s.env.bitSink ++ cs, bitAnswers := s.env.bitAnswers.drop cs.length } }

/-- `s` after the characters have been written to `BITSINK` and one more write has been answered `fail`. -/
def afterCharsThenFail (cs : List Char8) (s : State) : State :=
  { s with env := { s.env with
      bitSink := s.env.bitSink ++ cs, bitAnswers := s.env.bitAnswers.drop (cs.length + 1) } }

/-! ### Registers -/

/-- `s` with a write to `MOD`'s registers and nothing else. -/
def onMod (f : ModRegs → ModRegs) (s : State) : State :=
  { s with mod := f s.mod }

/-- `s` with a write to `DEM`'s registers and nothing else. -/
def onDem (f : DemRegs → DemRegs) (s : State) : State :=
  { s with dem := f s.dem }

/-- `MOD` in `FAILED` with `ERR_CHANNEL`, its other registers kept (spec/60_exceptions.md R193, R196). -/
def modFailed (m : ModRegs) : ModRegs :=
  { m with state := .failed, cause := .channel }

/-- `DEM` in `FAILED` with a cause and the state whose check failed, its other registers kept
(spec/60_exceptions.md R192 to R196). -/
def demFailed (cause : Cause) (fstate : DState) (d : DemRegs) : DemRegs :=
  { d with state := .failed, cause := cause, fstate := fstate }

/-! ### The classifier -/

/-- The counters after one sample: each lane counts its match (spec/43_classifier.md R171, R178). -/
def Scored (c : Config) (t : ℕ) (x : ℤ) (before after : Counts) : Prop :=
  ∀ k : Symbol, (Matches c t k x → getCount after k = getCount before k + 1) ∧
    (¬ Matches c t k x → getCount after k = getCount before k)

/-- `k` is the lowest index among the candidates with the largest count (spec/43_classifier.md R173). -/
def Wins (cnt : Counts) (k : Symbol) : Prop :=
  (∀ j : Symbol, getCount cnt j ≤ getCount cnt k) ∧
    ∀ j : Symbol, j.toNat < k.toNat → getCount cnt j < getCount cnt k

/-- The two characters of a symbol (spec/30_encoding.md R77). -/
def symbolChars (k : Symbol) : List Char8 :=
  if k = 0b00#2 then [0x30#8, 0x30#8]
  else if k = 0b01#2 then [0x30#8, 0x31#8]
  else if k = 0b10#2 then [0x31#8, 0x30#8]
  else [0x31#8, 0x31#8]

/-! ### The invariant of spec/10_state.md R41 -/

/-- What holds of `MOD`'s registers between steps. -/
def ModInv (c : Config) (m : ModRegs) : Prop :=
  (m.held = false → m.bit = 0#1) ∧
    (m.state = .run → ∃ pairs : ℕ, m.t = c.symbolLen * (4 + pairs)) ∧
    (m.state = .failed → m.cause = .channel) ∧
    (m.state ≠ .failed → m.cause = .none)

/-- What holds of `DEM`'s counters between steps, by `D_STATE`. -/
def CountersInv (c : Config) (d : DemRegs) : Prop :=
  match d.state with
  | .init => d.t = 0 ∧ d.symlen = 0 ∧ d.rem = 0 ∧ d.pos = 0
  | .fz => d.symlen = d.t ∧ 1 ≤ d.t ∧ d.rem = 0 ∧ d.pos = 0
  | .fo => 1 ≤ d.symlen ∧ d.t + d.rem = 2 * d.symlen ∧ d.rem < d.symlen ∧ d.pos = 0
  | .sz => 1 ≤ d.symlen ∧ d.t + d.rem = 3 * d.symlen ∧ d.rem < d.symlen ∧ d.pos = 0
  | .so => 1 ≤ d.rem ∧ d.t + d.rem = 4 * d.symlen ∧ d.rem < d.symlen ∧ d.pos = 0
  | .cls => d.rem = 0 ∧ d.pos < d.symlen ∧ ∃ emitted : ℕ, d.t = 4 * d.symlen + d.symlen * emitted + d.pos
  | .done => c.eosInSync = .fail → 1 ≤ d.symlen
  | .failed => True

/-- What holds of `DEM`'s registers between steps. -/
def DemInv (c : Config) (d : DemRegs) : Prop :=
  CountersInv c d ∧ d.rem ≤ d.symlen ∧ (∀ k : Symbol, getCount d.cnt k ≤ d.pos) ∧
    (d.state ≠ .failed → d.cause = .none ∧ d.fstate = .init) ∧
    (d.state = .failed → d.cause ≠ .none ∧ demFetches d.fstate = true) ∧
    (d.cause = .sync ∨ d.cause = .syncEos → inSync d.fstate = true)

/-- The invariant of the machine. -/
def Inv (s : State) : Prop :=
  ModInv s.cfg s.mod ∧ DemInv s.cfg s.dem

/-- A machine that the spec gives a run: its registers meet the invariant, its configuration is well-formed
(spec/00_scope.md R13) and every sample item the environment holds ready is an item of format `SI`
(spec/30_encoding.md R71). -/
def Legal (s : State) : Prop :=
  Inv s ∧ s.cfg.wellFormedMod = true ∧ ∀ item ∈ s.env.smpSrc, item < 2 ^ (s.cfg.sampleBits + 2)

/-! ### Whole runs -/

/-- The characters before the first one that is not a bit (spec/41_modulator.md R127). -/
def bitPrefix (chars : List Char8) : List Char8 :=
  chars.takeWhile fun ch => ch == 0x30#8 || ch == 0x31#8

/-- The value of a bit character: `ch[0]` (spec/30_encoding.md R75). -/
def bitValue (ch : Char8) : ℕ :=
  ch.toNat % 2

/-- `sym_i = 2·p[2i] + p[2i+1]` (spec/41_modulator.md R127). -/
def payloadSymbol (p : List Char8) (i : ℕ) : Symbol :=
  BitVec.ofNat 2 (2 * bitValue (p.getD (2 * i) 0#8) + bitValue (p.getD (2 * i + 1) 0#8))

/-- `q(t)`: the symbol of sample `t` of a modulated stream (spec/41_modulator.md R127). -/
def modulatedSymbolAt (p : List Char8) (l t : ℕ) : Symbol :=
  if t < 4 * l then preambleSymbolAt l t else payloadSymbol p (t / l - 4)

/-- `Modulate(bits, L)` as words: `L·(4 + n)` samples, `n` the number of complete pairs (R127). -/
noncomputable def modulate (c : Config) (chars : List Char8) : List SampleWord :=
  let p := bitPrefix chars
  (List.range (c.symbolLen * (4 + p.length / 2))).map fun t =>
    bitsW c.sampleBits (sample c t (modulatedSymbolAt p c.symbolLen t))

/-- `MOD.RUN chars`: the strobe, then one item per character and `EOS`, every write answered `ok`
(spec/30_encoding.md R87). -/
def modRun (chars : List Char8) (s : State) : State :=
  { s with env := { s.env with
      turns := .mod true :: List.replicate (chars.length + 1) (.mod false)
      bitSrc := chars.map bitData ++ [bitEos]
      smpAnswers := [] } }

/-- `PREAMBLE(l)` as items (spec/30_encoding.md R87). -/
noncomputable def preambleItems (c : Config) (l : ℕ) : List SampleItem :=
  (List.range (4 * l)).map fun n => sampleData c.sampleBits (sample c n (preambleSymbolAt l n))

/-- The strobe of `DEM.RUN`, then a turn for each sample of `PREAMBLE(l)` (spec/30_encoding.md R87). -/
noncomputable def preambleRun (l : ℕ) (s : State) : State :=
  { s with env := { s.env with
      turns := .dem true :: List.replicate (4 * l) (.dem false)
      smpSrc := preambleItems s.cfg l } }

/-- `DEM.RUN (Modulate(chars, L))`: the strobe, then every sample and `EOS`, every write answered `ok`
(spec/30_encoding.md R87). -/
noncomputable def roundTrip (chars : List Char8) (s : State) : State :=
  { s with env := { s.env with
      turns := .dem true :: List.replicate ((modulate s.cfg chars).length + 1) (.dem false)
      smpSrc := modulate s.cfg chars ++ [sampleEos s.cfg.sampleBits]
      bitAnswers := [] } }

/-- A turn for each sample of one symbol period, every write answered `ok`. -/
noncomputable def symbolPeriod (k : Symbol) (s : State) : State :=
  { s with env := { s.env with
      turns := List.replicate s.dem.symlen (.dem false)
      smpSrc := carrierWords s.cfg k s.dem.t s.dem.symlen
      bitAnswers := [] } }

end Sys2Proof.Safety
end

