-- ==== Sys2Proof/Certificates/Slice0/Obligations.lean ====
section
/-!
DEFINITION. What is claimed of the machine. Every statement is about all states that meet its hypotheses, reachable
or not; a result is stated as the whole next state, so that it is the instruction's frame too.
-/

open Sys2Proof Sys2Proof.Machine Sys2Proof.Safety

/-! ### Encoding -/

/-- R83, R84: the decoder gives back every well-formed operation, with every operand, in the unit states that
select it. -/
def Obligations.DecodeOfEncodeIsTheOperation : Prop :=
  ∀ (w : ℕ) (m : MState) (d : DState) (i : Instr),
    1 ≤ w → i.wellFormed w = true → selectedIn m d i = true → decode w m d (encode w i) = .ok i

/-- R83: the five fetched operations of `MOD`, by the number a `BI` item spells; outside `RUN` nothing is decoded. -/
def Obligations.BitItemsDecodeByTheTable : Prop :=
  ∀ (w : ℕ) (m : MState) (d : DState) (item : BitItem),
    (m ≠ .run → decode w m d (.bitItem item) = .error .unitHalted) ∧
    (m = .run → decode w m d (.bitItem item) = .ok
      (if 0x200 ≤ item.toNat then .modRdfail
       else if 0x100 ≤ item.toNat then .modEos
       else if item.toNat = 0x30 then .modBit0
       else if item.toNat = 0x31 then .modBit1
       else .modStop (BitVec.ofNat 8 item.toNat)))

/-- R84, R79: the operation an `SI` item selects in each fetching state, by the number it spells; a sample is the
integer its two's-complement bits denote. In `DONE` and `FAILED` nothing is decoded. -/
def Obligations.SampleItemsDecodeByTheTable : Prop :=
  ∀ (w : ℕ) (m : MState) (d : DState) (item : ℕ), 1 ≤ w →
    (d = .done ∨ d = .failed → item < 4 * 2 ^ w → decode w m d (.sampleItem item) = .error .unitHalted) ∧
    (d ≠ .done → d ≠ .failed → 2 * 2 ^ w ≤ item → item < 4 * 2 ^ w →
      decode w m d (.sampleItem item) = .ok .demRdfail) ∧
    (d ≠ .done → d ≠ .failed → 2 ^ w ≤ item → item < 2 * 2 ^ w →
      decode w m d (.sampleItem item) = .ok (if d = .cls then .clsEos else .syncEos)) ∧
    (item < 2 ^ w →
      ∀ x : ℤ, x = (if item < 2 ^ (w - 1) then (item : ℤ) else (item : ℤ) - 2 ^ w) →
        (d = .init → decode w m d (.sampleItem item) = .ok (.syncInit x)) ∧
        (d = .fz → decode w m d (.sampleItem item) = .ok (.syncFz x)) ∧
        (d = .fo → decode w m d (.sampleItem item) = .ok (.syncFo x)) ∧
        (d = .sz → decode w m d (.sampleItem item) = .ok (.syncSz x)) ∧
        (d = .so → decode w m d (.sampleItem item) = .ok (.syncSo x)) ∧
        (d = .cls → decode w m d (.sampleItem item) = .ok (.clsSample x)))

/-- Items written out, and the operations that R83 and R84 select for them: `0x030`, `0x031`, `0x100` of program P1, the
samples in `INIT` and `FZ` and the end in `CLS` of program P2, `0x200`, `0x00A` and `0x200000000` of the head of
spec/95_test_vectors.md, and the end in `SO` of vector V42-8. The five `BI` items are read through `decodeTableWord`,
whose conventions (16 bits for a `BI` item, `MOD` in `RUN`) are the model's choice (log entry 7). -/
def Obligations.WrittenItemsDecode : Prop :=
  decodeTableWord 16 0b0000110000 = some .modBit0 ∧
    decodeTableWord 16 0b0000110001 = some .modBit1 ∧
    decodeTableWord 16 0b0100000000 = some .modEos ∧
    decodeTableWord 16 0b1000000000 = some .modRdfail ∧
    decodeTableWord 16 0b0000001010 = some (.modStop 0x0A#8) ∧
    decode 32 .run .init (.sampleItem 0x059CD74A7) = .ok (.syncInit 1506636967) ∧
    decode 32 .run .fz (.sampleItem 0x0F4EE647A) = .ok (.syncFz (-185703302)) ∧
    decode 32 .run .so (.sampleItem 0x100000000) = .ok .syncEos ∧
    decode 32 .run .cls (.sampleItem 0x100000000) = .ok .clsEos ∧
    decode 32 .run .fo (.sampleItem 0x200000000) = .ok .demRdfail

/-! ### Steps -/

/-- R128, R141, R198: a step is the operation that the strobe or the fetched item selects, run on the state with
that turn and that item gone. A strobe leaves an available item where it is. The schedule of turns is the model's form
of the environment (log entries 2, 4 and 5). -/
def Obligations.StepRunsTheSelectedOperation : Prop :=
  ∀ (s : State) (rest : List Turn),
    (s.env.turns = .mod true :: rest → s.cfg.wellFormedMod = true →
      step s = exec .modStart { s with env := { s.env with turns := rest } }) ∧
    (s.env.turns = .dem true :: rest → s.cfg.wellFormed = true →
      step s = exec .demStart { s with env := { s.env with turns := rest } }) ∧
    (∀ (item : BitItem) (items : List BitItem) (i : Instr),
      s.env.turns = .mod false :: rest → s.mod.state = .run → s.env.bitSrc = item :: items →
      s.cfg.wellFormedMod = true → decode s.cfg.sampleBits s.mod.state s.dem.state (.bitItem item) = .ok i →
      step s = exec i { s with env := { s.env with turns := rest, bitSrc := items } }) ∧
    (∀ (item : ℕ) (items : List SampleItem) (i : Instr),
      s.env.turns = .dem false :: rest → demFetches s.dem.state = true → s.env.smpSrc = item :: items →
      s.cfg.wellFormed = true → decode s.cfg.sampleBits s.mod.state s.dem.state (.sampleItem item) = .ok i →
      step s = exec i { s with env := { s.env with turns := rest, smpSrc := items } })

/-- R128, R141, R201: a halted unit does nothing on its turn, and so does a fetching one while no item is
offered. That such a turn is used up is the model's choice (log entry 21). -/
def Obligations.HaltedAndWaitingUnitsDoNothing : Prop :=
  ∀ (s : State) (rest : List Turn),
    (s.env.turns = .mod false :: rest → s.mod.state ≠ .run ∨ s.env.bitSrc = [] →
      step s = .next { s with env := { s.env with turns := rest } }) ∧
    (s.env.turns = .dem false :: rest →
      s.dem.state = .done ∨ s.dem.state = .failed ∨ s.env.smpSrc = [] →
      step s = .next { s with env := { s.env with turns := rest } })

/-- R13: no unit takes a step under an ill-formed configuration; `SYMBOL_LEN` concerns `MOD` only. That the refusal comes
at the unit's step is the model's choice (log entry 9). -/
def Obligations.IllFormedConfigurationIsRefused : Prop :=
  ∀ (s : State) (rest : List Turn) (start : Bool),
    (s.env.turns = .mod start :: rest → start = true ∨ (s.mod.state = .run ∧ s.env.bitSrc ≠ []) →
      ¬ (1 ≤ s.cfg.sampleRate ∧ 1 ≤ s.cfg.frequency ∧ 1 ≤ s.cfg.amplitude ∧
          s.cfg.amplitude < 2 ^ (s.cfg.sampleBits - 1) ∧ 0 < s.cfg.threshold ∧
          1 ≤ s.cfg.symbolLen ∧ s.cfg.symbolLen ≤ s.cfg.symlenMax) →
      step s = .refused .illFormedConfiguration) ∧
    (s.env.turns = .dem start :: rest → start = true ∨ (demFetches s.dem.state = true ∧ s.env.smpSrc ≠ []) →
      ¬ (1 ≤ s.cfg.sampleRate ∧ 1 ≤ s.cfg.frequency ∧ 1 ≤ s.cfg.amplitude ∧
          s.cfg.amplitude < 2 ^ (s.cfg.sampleBits - 1) ∧ 0 < s.cfg.threshold) →
      step s = .refused .illFormedConfiguration)

/-- The model's choice (log entry 10): a number with more than `W + 2` bits is no item and is refused. -/
def Obligations.OverwideSampleItemIsRefused : Prop :=
  ∀ (s : State) (rest : List Turn) (item : ℕ) (items : List SampleItem),
    s.env.turns = .dem false :: rest → demFetches s.dem.state = true → s.env.smpSrc = item :: items →
    s.cfg.wellFormed = true → 2 ^ (s.cfg.sampleBits + 2) ≤ item → step s = .refused .notAnItem

/-- R40, R220: the `RESET` strobe gives every register of both units its reset value and touches nothing else. -/
def Obligations.ResetStrobeWritesEveryRegister : Prop :=
  ∀ (s : State) (rest : List Turn), s.env.turns = .reset :: rest →
    step s = .next
      { cfg := s.cfg
        mod := { state := .idle, t := 0, held := false, bit := 0#1, cause := .none }
        dem := { state := .init, t := 0, symlen := 0, rem := 0, cnt := { c0 := 0, c1 := 0, c2 := 0, c3 := 0 },
                 pos := 0, cause := .none, fstate := .init }
        env := { s.env with turns := rest } }

/-! ### The modulator -/

/-- R121: `GEN(k)` writes `L` words `round(A·cos(2π·(F/S)·t + phase_of(k)))` for consecutive time indices, one
increment of `M_T` for each; at the first write answered `fail` it stops with `ChannelError`, the samples before it
written. -/
def Obligations.GenWritesOneSymbolOfCarrier : Prop :=
  ∀ (k : Symbol) (s : State), s.cfg.wellFormed = true →
    (AllOk s.env.smpAnswers s.cfg.symbolLen →
      exec (.gen k) s = .next
        (onMod (fun m => { m with t := m.t + s.cfg.symbolLen })
          (afterWords (carrierWords s.cfg k s.mod.t s.cfg.symbolLen) s))) ∧
    (∀ n, n < s.cfg.symbolLen → FirstFail s.env.smpAnswers n →
      exec (.gen k) s = .next
        (onMod (fun m => Safety.modFailed { m with t := m.t + n })
          (afterWordsThenFail (carrierWords s.cfg k s.mod.t n) s)))

/-- R120: the `MOD.START` strobe, in every state, clears the registers, writes the `4·L` preamble samples from time
index 0 and enters `RUN`; a failed write ends it in `FAILED` with `M_T` the number of samples written. -/
def Obligations.ModStartEmitsThePreamble : Prop :=
  (∀ (w : ℕ) (m : MState) (d : DState), decode w m d (.strobe .modStart) = .ok .modStart) ∧
  ∀ s : State, s.cfg.wellFormedMod = true →
    (AllOk s.env.smpAnswers (4 * s.cfg.symbolLen) →
      exec .modStart s = .next
        (onMod (fun _ => { state := .run, t := 4 * s.cfg.symbolLen, held := false, bit := 0#1, cause := .none })
          (afterWords (preambleWords s.cfg (4 * s.cfg.symbolLen)) s))) ∧
    (∀ n, n < 4 * s.cfg.symbolLen → FirstFail s.env.smpAnswers n →
      exec .modStart s = .next
        (onMod (fun _ => { state := .failed, t := n, held := false, bit := 0#1, cause := .channel })
          (afterWordsThenFail (preambleWords s.cfg n) s)))

/-- R122, R123: the first bit of a pair is held; no sample is written. -/
def Obligations.FirstBitOfPairIsHeld : Prop :=
  ∀ s : State, s.mod.held = false →
    exec .modBit0 s = .next (onMod (fun m => { m with held := true, bit := 0#1 }) s) ∧
    exec .modBit1 s = .next (onMod (fun m => { m with held := true, bit := 1#1 }) s)

/-- R122, R123, R75: the second bit `b` of a pair empties the holding register and generates the symbol
`2*M_BIT + b`. -/
def Obligations.SecondBitOfPairGeneratesItsSymbol : Prop :=
  ∀ (s : State) (b : ℕ) (i : Instr), s.cfg.wellFormed = true → s.mod.held = true →
    (b = 0 ∧ i = .modBit0 ∨ b = 1 ∧ i = .modBit1) →
    ∀ k : Symbol, k.toNat = 2 * s.mod.bit.toNat + b →
      (AllOk s.env.smpAnswers s.cfg.symbolLen →
        exec i s = .next
          (onMod (fun m => { m with t := m.t + s.cfg.symbolLen, held := false, bit := 0#1 })
            (afterWords (carrierWords s.cfg k s.mod.t s.cfg.symbolLen) s))) ∧
      (∀ n, n < s.cfg.symbolLen → FirstFail s.env.smpAnswers n →
        exec i s = .next
          (onMod (fun m => Safety.modFailed { m with t := m.t + n, held := false, bit := 0#1 })
            (afterWordsThenFail (carrierWords s.cfg k s.mod.t n) s)))

/-- R124, R125: a character that is not a bit, and the end of the bit stream, end the run in `DONE`; the held bit
stays and nothing is written. They are the items `00 cccccccc` of the 254 other characters, and `01 xxxxxxxx`. -/
def Obligations.StopAndEndOfStreamFinishTheRun : Prop :=
  (∀ (w : ℕ) (d : DState) (ch : Char8), ch ≠ 0x30#8 → ch ≠ 0x31#8 →
    decode w .run d (.bitItem (0b00#2 ++ ch)) = .ok (.modStop ch)) ∧
  SelectedByBitStatus (fun st => st = 0b01#2) .modEos ∧
  ∀ (ch : Char8) (s : State),
    exec (.modStop ch) s = .next (onMod (fun m => { m with state := .done }) s) ∧
    exec .modEos s = .next (onMod (fun m => { m with state := .done }) s)

/-- R126: a failed read of `BITSRC`, item `1x xxxxxxxx`, is `ChannelError`; every other register and every stream is
kept. -/
def Obligations.FailedBitReadFailsTheRun : Prop :=
  SelectedByBitStatus (fun st => st.getLsbD 1 = true) .modRdfail ∧
  ∀ s : State, exec .modRdfail s = .next (onMod Safety.modFailed s)

/-! ### The synchronizer -/

/-- R140: the `DEM.START` strobe gives every `D_` register its fresh value, from any state, and touches nothing else. -/
def Obligations.DemStartBeginsAFreshRun : Prop :=
  (∀ (w : ℕ) (m : MState) (d : DState), decode w m d (.strobe .demStart) = .ok .demStart) ∧
  ∀ s : State, exec .demStart s = .next
    (onDem (fun _ =>
      { state := .init, t := 0, symlen := 0, rem := 0, cnt := { c0 := 0, c1 := 0, c2 := 0, c3 := 0 }, pos := 0,
        cause := .none, fstate := .init }) s)

/-- R143: the first sample must match phase `00`. -/
def Obligations.SyncInitTestsPhaseZero : Prop :=
  SelectedByData .init .syncInit ∧
  ∀ (x : ℤ) (s : State), s.cfg.wellFormed = true →
    (Matches s.cfg s.dem.t 0b00#2 x →
      exec (.syncInit x) s = .next
        (onDem (fun d => { d with symlen := d.symlen + 1, t := d.t + 1, state := .fz }) s)) ∧
    (¬ Matches s.cfg s.dem.t 0b00#2 x →
      exec (.syncInit x) s = .next (onDem (Safety.demFailed .sync .init) s))

/-- R144: a sample of the first plateau is counted, the first `11` sample that is no `00` fixes `D_SYMLEN`, any
other sample is fatal. -/
def Obligations.SyncFzCountsTheFirstPlateau : Prop :=
  SelectedByData .fz .syncFz ∧
  ∀ (x : ℤ) (s : State), s.cfg.wellFormed = true →
    (Matches s.cfg s.dem.t 0b00#2 x →
      exec (.syncFz x) s = .next (onDem (fun d => { d with symlen := d.symlen + 1, t := d.t + 1 }) s)) ∧
    (1 ≤ s.dem.symlen → ¬ Matches s.cfg s.dem.t 0b00#2 x → Matches s.cfg s.dem.t 0b11#2 x →
      exec (.syncFz x) s = .next
        (onDem (fun d => { d with rem := d.symlen - 1, t := d.t + 1, state := .fo }) s)) ∧
    (¬ Matches s.cfg s.dem.t 0b00#2 x → ¬ Matches s.cfg s.dem.t 0b11#2 x →
      exec (.syncFz x) s = .next (onDem (Safety.demFailed .sync .fz) s))

/-- R147, R145: `SYNC.FO` counts down the first `11` plateau; when none is owed, the same sample is the first of the
second `00` plateau, tested against `00` within the step, and the reload of `D_REM` stays when that test fails. -/
def Obligations.SyncFoCountsDownOrRedispatches : Prop :=
  SelectedByData .fo .syncFo ∧
  ∀ (x : ℤ) (s : State), s.cfg.wellFormed = true →
    (1 ≤ s.dem.rem → Matches s.cfg s.dem.t 0b11#2 x →
      exec (.syncFo x) s = .next (onDem (fun d => { d with rem := d.rem - 1, t := d.t + 1 }) s)) ∧
    (1 ≤ s.dem.rem → ¬ Matches s.cfg s.dem.t 0b11#2 x →
      exec (.syncFo x) s = .next (onDem (Safety.demFailed .sync .fo) s)) ∧
    (s.dem.rem = 0 → 1 ≤ s.dem.symlen → Matches s.cfg s.dem.t 0b00#2 x →
      exec (.syncFo x) s = .next
        (onDem (fun d => { d with rem := d.symlen - 1, t := d.t + 1, state := .sz }) s)) ∧
    (s.dem.rem = 0 → 1 ≤ s.dem.symlen → ¬ Matches s.cfg s.dem.t 0b00#2 x →
      exec (.syncFo x) s = .next (onDem (fun d => Safety.demFailed .sync .sz { d with rem := d.symlen }) s)) ∧
    (s.dem.rem = 0 → s.dem.symlen = 0 → ¬ Matches s.cfg s.dem.t 0b11#2 x →
      exec (.syncFo x) s = .next (onDem (Safety.demFailed .sync .so) s))

/-- R148, R145: `SYNC.SZ` counts down the second `00` plateau; when none is owed, the same sample is the first of the
second `11` plateau, which it completes when the symbol length is 1. -/
def Obligations.SyncSzCountsDownOrRedispatches : Prop :=
  SelectedByData .sz .syncSz ∧
  ∀ (x : ℤ) (s : State), s.cfg.wellFormed = true →
    (1 ≤ s.dem.rem → Matches s.cfg s.dem.t 0b00#2 x →
      exec (.syncSz x) s = .next (onDem (fun d => { d with rem := d.rem - 1, t := d.t + 1 }) s)) ∧
    (1 ≤ s.dem.rem → ¬ Matches s.cfg s.dem.t 0b00#2 x →
      exec (.syncSz x) s = .next (onDem (Safety.demFailed .sync .sz) s)) ∧
    (s.dem.rem = 0 → s.dem.symlen = 1 → Matches s.cfg s.dem.t 0b11#2 x →
      exec (.syncSz x) s = .next (onDem (fun d => { d with rem := 0, t := d.t + 1, state := .cls }) s)) ∧
    (s.dem.rem = 0 → 2 ≤ s.dem.symlen → Matches s.cfg s.dem.t 0b11#2 x →
      exec (.syncSz x) s = .next
        (onDem (fun d => { d with rem := d.symlen - 1, t := d.t + 1, state := .so }) s)) ∧
    (s.dem.rem = 0 → ¬ Matches s.cfg s.dem.t 0b11#2 x →
      exec (.syncSz x) s = .next (onDem (fun d => Safety.demFailed .sync .so { d with rem := d.symlen }) s))

/-- R149: `SYNC.SO` counts down the second `11` plateau and completes on its last sample. -/
def Obligations.SyncSoCompletesOnTheLastSample : Prop :=
  SelectedByData .so .syncSo ∧
  ∀ (x : ℤ) (s : State), s.cfg.wellFormed = true →
    (Matches s.cfg s.dem.t 0b11#2 x → s.dem.rem = 1 →
      exec (.syncSo x) s = .next (onDem (fun d => { d with rem := 0, t := d.t + 1, state := .cls }) s)) ∧
    (Matches s.cfg s.dem.t 0b11#2 x → 2 ≤ s.dem.rem →
      exec (.syncSo x) s = .next (onDem (fun d => { d with rem := d.rem - 1, t := d.t + 1 }) s)) ∧
    (¬ Matches s.cfg s.dem.t 0b11#2 x →
      exec (.syncSo x) s = .next (onDem (Safety.demFailed .sync .so) s))

/-- The model's choice (log entry 8): where a decrement of R144 or R149 would go below 0, which R116 says is never
done, the machine stops by name. No run gets there (`StepKeepsTheInvariant`). -/
def Obligations.CounterUnderflowStopsByName : Prop :=
  ∀ (x : ℤ) (s : State), s.cfg.wellFormed = true → Matches s.cfg s.dem.t 0b11#2 x →
    (s.dem.symlen = 0 → ¬ Matches s.cfg s.dem.t 0b00#2 x → exec (.syncFz x) s = .fault .counterUnderflow) ∧
    (s.dem.rem = 0 → exec (.syncSo x) s = .fault .counterUnderflow) ∧
    (s.dem.rem = 0 → s.dem.symlen = 0 → exec (.syncSz x) s = .fault .counterUnderflow) ∧
    (s.dem.rem = 0 → s.dem.symlen = 0 → exec (.syncFo x) s = .fault .counterUnderflow)

/-- R152: the end of the sample stream before synchronisation is complete, for both values of `EOS_IN_SYNC`. -/
def Obligations.EndOfStreamInPreamble : Prop :=
  (∀ d : DState, inSync d = true → SelectedByEos d .syncEos) ∧
  ∀ s : State,
    (s.cfg.eosInSync = .fail →
      exec .syncEos s = .next (onDem (Safety.demFailed .syncEos s.dem.state) s)) ∧
    (s.cfg.eosInSync = .normal → AllOk s.env.bitAnswers 1 →
      exec .syncEos s = .next (onDem (fun d => { d with state := .done }) (afterChars [0x0A#8] s))) ∧
    (s.cfg.eosInSync = .normal → FirstFail s.env.bitAnswers 0 →
      exec .syncEos s = .next
        (onDem (Safety.demFailed .channel s.dem.state) (afterCharsThenFail [] s)))

/-! ### The classifier -/

/-- R171, R178, R179: inside a period a sample, whatever its value, is scored in four independent lanes and
counted. -/
def Obligations.ClsSampleScoresFourLanes : Prop :=
  ∀ (x : ℤ) (s : State), s.cfg.wellFormed = true → s.dem.pos + 1 ≠ s.dem.symlen →
    ∃ cnt : Counts, Scored s.cfg s.dem.t x s.dem.cnt cnt ∧
      exec (.clsSample x) s = .next (onDem (fun d => { d with cnt := cnt, t := d.t + 1, pos := d.pos + 1 }) s)

/-- R171, R172, R77: the last sample of a period is scored too, and then the winner's two characters are written and
the counters cleared; a failed write leaves the counters of the whole period. -/
def Obligations.ClsSampleDecidesACompletePeriod : Prop :=
  ∀ (x : ℤ) (s : State), s.cfg.wellFormed = true → s.dem.pos + 1 = s.dem.symlen →
    ∃ (cnt : Counts) (k : Symbol), Scored s.cfg s.dem.t x s.dem.cnt cnt ∧ Wins cnt k ∧
      (AllOk s.env.bitAnswers 2 →
        exec (.clsSample x) s = .next
          (onDem (fun d => { d with cnt := { c0 := 0, c1 := 0, c2 := 0, c3 := 0 }, t := d.t + 1, pos := 0 })
            (afterChars (symbolChars k) s))) ∧
      (∀ n, n < 2 → FirstFail s.env.bitAnswers n →
        exec (.clsSample x) s = .next
          (onDem (fun d => Safety.demFailed .channel s.dem.state
              { d with cnt := cnt, t := d.t + 1, pos := d.pos + 1 })
            (afterCharsThenFail ((symbolChars k).take n) s)))

/-- R172, R173, R77: the lowest index among the largest counts is emitted, most significant bit first. -/
def Obligations.ClsDecideEmitsTheWinner : Prop :=
  ∀ (k : Symbol) (s : State), Wins s.dem.cnt k →
    (AllOk s.env.bitAnswers 2 →
      exec .clsDecide s = .next
        (onDem (fun d => { d with cnt := { c0 := 0, c1 := 0, c2 := 0, c3 := 0 }, pos := 0 })
          (afterChars (symbolChars k) s))) ∧
    (∀ n, n < 2 → FirstFail s.env.bitAnswers n →
      exec .clsDecide s = .next
        (onDem (Safety.demFailed .channel s.dem.state) (afterCharsThenFail ((symbolChars k).take n) s)))

/-- R173: for every four counts the machine's scan of R172 answers the lowest index among the largest counts, and no
other candidate is that: the classifier never refuses to decide. -/
def Obligations.EveryPeriodHasOneWinner : Prop :=
  ∀ cnt : Counts, Wins cnt (winner cnt) ∧ ∀ j : Symbol, Wins cnt j → j = winner cnt

/-- R174: the end of the stream writes one newline and ends the run; the partial period is kept, undecided. -/
def Obligations.ClsEosWritesTheNewline : Prop :=
  SelectedByEos .cls .clsEos ∧
  ∀ s : State,
    (AllOk s.env.bitAnswers 1 →
      exec .clsEos s = .next (onDem (fun d => { d with state := .done }) (afterChars [0x0A#8] s))) ∧
    (FirstFail s.env.bitAnswers 0 →
      exec .clsEos s = .next
        (onDem (Safety.demFailed .channel s.dem.state) (afterCharsThenFail [] s)))

/-- R175, R193: a failed read of `SMPSRC` is `ChannelError` with `D_FSTATE` the state it was met in. -/
def Obligations.FailedSampleReadFailsTheRun : Prop :=
  (∀ d : DState, demFetches d = true → SelectedByFail d .demRdfail) ∧
  ∀ s : State, exec .demRdfail s = .next (onDem (Safety.demFailed .channel s.dem.state) s)

/-! ### The numbers -/

/-- R108, R14: a generated sample lies between `-A` and `A` and is the integer that its word denotes. -/
def Obligations.GeneratedSamplesFitTheirWord : Prop :=
  ∀ (c : Config) (t : ℕ) (k : Symbol), c.wellFormed = true →
    -(c.amplitude : ℤ) ≤ sampleValue c t k ∧ sampleValue c t k ≤ c.amplitude ∧
      sintW c.sampleBits (bitsW c.sampleBits (sampleValue c t k)) = sampleValue c t k

/-- R112: a generated sample matches its own phase whenever `A·TH > 1/2`. -/
def Obligations.GeneratedSampleMatchesItsPhase : Prop :=
  ∀ (c : Config) (t : ℕ) (k : Symbol), c.wellFormed = true → 1 / 2 < (c.amplitude : ℚ) * c.threshold →
    phaseMatch c t k (sampleValue c t k) = true

/-- R104: the carrier repeats after `S / gcd(F, S)` samples, for the generator and for the match predicate. -/
def Obligations.CarrierIsPeriodic : Prop :=
  ∀ (c : Config) (t : ℕ) (k : Symbol) (x : ℤ), c.wellFormed = true →
    sampleValue c (t + c.sampleRate / Nat.gcd c.frequency c.sampleRate) k = sampleValue c t k ∧
      phaseMatch c (t + c.sampleRate / Nat.gcd c.frequency c.sampleRate) k x = phaseMatch c t k x

/-- R114: in the reference configuration a generated sample of symbol `k` matches candidate `j` exactly when `j = k`,
or the time index is a multiple of 9 and `j`, `k` are `0, 1` or `2, 3`. -/
def Obligations.ReferenceCoincidences : Prop :=
  ∀ (t : ℕ) (k j : Symbol),
    phaseMatch .reference t j (sampleValue .reference t k) = true ↔
      j = k ∨ (t % 9 = 0 ∧ j.toNat / 2 = k.toNat / 2)

/-! ### The whole machine -/

/-- R41, R31, R32: every step keeps the invariant. -/
def Obligations.StepKeepsTheInvariant : Prop :=
  ∀ s t : State, Inv s → step s = .next t → Inv t

/-- R40, R41: the invariant holds right after reset. -/
def Obligations.InvariantHoldsAtReset : Prop :=
  Inv State.reset

/-- R116, R59: a machine that the spec gives a run never stops: from every legal state every number of steps answers a
next state, legal again. -/
def Obligations.LegalMachineNeverStops : Prop :=
  ∀ (n : ℕ) (s : State), Legal s → ∃ t : State, Sys2Proof.core.run n s = .next t ∧ Legal t

/-- R226: no step changes a configuration constant. -/
def Obligations.ConfigurationNeverChanges : Prop :=
  ∀ s t : State, step s = .next t → t.cfg = s.cfg

/-- R20, R59: a turn of one unit leaves the other unit's registers and both its streams as they were. -/
def Obligations.UnitsDoNotTouchEachOther : Prop :=
  ∀ (s t : State) (rest : List Turn) (start : Bool), step s = .next t →
    (s.env.turns = .mod start :: rest →
      t.dem = s.dem ∧ t.env.smpSrc = s.env.smpSrc ∧ t.env.bitSink = s.env.bitSink ∧
        t.env.bitAnswers = s.env.bitAnswers) ∧
    (s.env.turns = .dem start :: rest →
      t.mod = s.mod ∧ t.env.bitSrc = s.env.bitSrc ∧ t.env.smpSink = s.env.smpSink ∧
        t.env.smpAnswers = s.env.smpAnswers)

/-- R59: the order in which a turn of `MOD` and a turn of `DEM` are taken cannot change what the two steps
answer. The schedule of turns is the model's (log entry 4). -/
def Obligations.OrderOfTheUnitsCannotBeObserved : Prop :=
  ∀ (s : State) (rest : List Turn) (a b : Bool), s.cfg.wellFormedMod = true →
    Sys2Proof.core.run 2 { s with env := { s.env with turns := .mod a :: .dem b :: rest } } =
      Sys2Proof.core.run 2 { s with env := { s.env with turns := .dem b :: .mod a :: rest } }

/-- R53, R59, R73: a step only appends to what the sinks have received, and only the characters `'0'`, `'1'` and the
newline to `BITSINK`. -/
def Obligations.SinksOnlyGrow : Prop :=
  ∀ s t : State, step s = .next t →
    (∃ ws : List SampleWord, t.env.smpSink = s.env.smpSink ++ ws) ∧
    ∃ cs : List Char8, t.env.bitSink = s.env.bitSink ++ cs ∧
      ∀ c ∈ cs, c = 0x30#8 ∨ c = 0x31#8 ∨ c = 0x0A#8

/-- R52, R59: a step takes at most the next item of each source, in order. -/
def Obligations.SourcesAreReadInOrder : Prop :=
  ∀ s t : State, step s = .next t →
    (t.env.bitSrc = s.env.bitSrc ∨ ∃ item, s.env.bitSrc = item :: t.env.bitSrc) ∧
    (t.env.smpSrc = s.env.smpSrc ∨ ∃ item, s.env.smpSrc = item :: t.env.smpSrc)

/-- R22: outside `MOD.START` and `RESET`, `M_T` grows by exactly the number of samples written. -/
def Obligations.ModulatorTimeCountsSamples : Prop :=
  ∀ (s t : State) (rest : List Turn), s.env.turns = .mod false :: rest → step s = .next t →
    t.mod.t + s.env.smpSink.length = s.mod.t + t.env.smpSink.length

/-- R150, R26, R32: a step that consumes a sample in a synchronizer state and does not fail adds one to `D_T`; one that
fails leaves `D_T` at that sample's index. -/
def Obligations.DemodulatorTimeCountsSamples : Prop :=
  ∀ (s t : State) (x : ℤ) (i : Instr),
    (i = .syncInit x ∨ i = .syncFz x ∨ i = .syncFo x ∨ i = .syncSz x ∨ i = .syncSo x) → exec i s = .next t →
    s.dem.state ≠ .failed →
    (t.dem.state ≠ .failed → t.dem.t = s.dem.t + 1) ∧ (t.dem.state = .failed → t.dem.t = s.dem.t)

/-- R27: `D_SYMLEN` is written only in `INIT` and `FZ`; from `FO` on a step keeps it. -/
def Obligations.SymbolLengthIsKeptAfterFz : Prop :=
  ∀ (s t : State) (rest : List Turn), s.env.turns = .dem false :: rest → step s = .next t →
    s.dem.state ≠ .init → s.dem.state ≠ .fz → t.dem.symlen = s.dem.symlen

/-- R154, R34: on a turn without strobe (a `DEM.START` and a `RESET` begin a fresh run) no step leads from `CLS` back to a
synchronizer state, and under `EOS_IN_SYNC = FAIL` the state `DONE` is entered from `CLS` only. -/
def Obligations.SynchronisationIsNeverLeftBackwards : Prop :=
  ∀ (s t : State) (rest : List Turn), s.env.turns = .dem false :: rest → step s = .next t →
    (s.dem.state = .cls → inSync t.dem.state = false) ∧
    (s.cfg.eosInSync = .fail → t.dem.state = .done → s.dem.state = .cls ∨ s.dem.state = .done)

/-- R207: a step taken in a synchronizer state writes nothing to `BITSINK` if it fails with `ERR_SYNC`, and under
`EOS_IN_SYNC = FAIL` whatever it does. -/
def Obligations.NoOutputBeforeSynchronisation : Prop :=
  ∀ (s t : State) (rest : List Turn), s.env.turns = .dem false :: rest → step s = .next t →
    inSync s.dem.state = true →
    s.cfg.eosInSync = .fail ∨ (t.dem.state = .failed ∧ t.dem.cause = .sync) →
    t.env.bitSink = s.env.bitSink ∧ t.env.bitAnswers = s.env.bitAnswers

/-- R199: `FAILED` is left only by the unit's own `START` strobe or by `RESET`. -/
def Obligations.FailureIsFinal : Prop :=
  ∀ (s t : State) (turn : Turn) (rest : List Turn), s.env.turns = turn :: rest → step s = .next t →
    turn ≠ .reset →
    (s.mod.state = .failed → turn ≠ .mod true → t.mod = s.mod) ∧
    (s.dem.state = .failed → turn ≠ .dem true → t.dem = s.dem)

/-- R36, R80, R81, R191, R34: the fields of the two status words, the numbers of the state and cause codes they show,
and the predicates over the registers; `dem_synced` under `NORMAL` as the last sentence of R34 reads it (log
entry 22). -/
def Obligations.StatusWordsShowTheRegisters : Prop :=
  (∀ s : State,
    ((modStatus s).extractLsb' 0 2 = mStateCode s.mod.state ∧
      (modStatus s).getLsbD 2 = s.mod.held ∧
      (modStatus s).extractLsb' 3 1 = s.mod.bit ∧
      (modStatus s).extractLsb' 4 2 = causeCode s.mod.cause ∧
      (modStatus s).extractLsb' 6 2 = 0#2) ∧
    (demStatus s).extractLsb' 0 3 = dStateCode s.dem.state ∧
      (demStatus s).extractLsb' 3 2 = causeCode s.dem.cause ∧
      (demStatus s).extractLsb' 5 3 = dStateCode s.dem.fstate) ∧
  (mStateCode .idle = 0#2 ∧ mStateCode .run = 1#2 ∧ mStateCode .done = 2#2 ∧ mStateCode .failed = 3#2) ∧
  (dStateCode .init = 0#3 ∧ dStateCode .fz = 1#3 ∧ dStateCode .fo = 2#3 ∧ dStateCode .sz = 3#3 ∧
    dStateCode .so = 4#3 ∧ dStateCode .cls = 5#3 ∧ dStateCode .done = 6#3 ∧ dStateCode .failed = 7#3) ∧
  (causeCode .none = 0#2 ∧ causeCode .sync = 1#2 ∧ causeCode .channel = 2#2 ∧ causeCode .syncEos = 3#2) ∧
  ∀ s : State,
    (modDone s = true ↔ s.mod.state = .done) ∧
    (Machine.modFailed s = true ↔ s.mod.state = .failed) ∧
    (s.cfg.eosInSync = .fail → (demSynced s = true ↔ s.dem.state = .cls ∨ s.dem.state = .done)) ∧
    (s.cfg.eosInSync = .normal → (demSynced s = true ↔ s.dem.state = .cls)) ∧
    (demDone s = true ↔ s.dem.state = .done) ∧
    (Machine.demFailed s = true ↔ s.dem.state = .failed)

/-! ### Whole runs -/

/-- R127, R57: `MOD.RUN chars`, as a schedule of one turn for each step (log entry 5) with a list of answers that is used
up from the start, so that every write is answered `ok` (log entry 2), writes `Modulate(chars, L)` and ends in `DONE`
with `M_T = L·(4 + n)`, the odd bit held if there is one, the characters after the terminator unread. -/
def Obligations.ModulatorRunWritesModulate : Prop :=
  ∀ (chars : List Char8) (s : State), s.cfg.wellFormedMod = true →
    ∃ t : State, Sys2Proof.core.run (chars.length + 2) (modRun chars s) = .next t ∧
      t.env.smpSink = s.env.smpSink ++ modulate s.cfg chars ∧
      t.mod.state = .done ∧ t.mod.cause = .none ∧
      t.mod.t = s.cfg.symbolLen * (4 + (bitPrefix chars).length / 2) ∧
      (t.mod.held = true ↔ (bitPrefix chars).length % 2 = 1) ∧
      t.env.bitSrc = (chars.map bitData ++ [bitEos]).drop ((bitPrefix chars).length + 1) ∧
      t.dem = s.dem ∧ t.cfg = s.cfg

/-- R151: a preamble generated with symbol length `l` under the same configuration is recovered with exactly that
length, on its last sample, provided its first `11` sample does not also match `00`. The run is a schedule of one turn
for each step (log entry 5). -/
def Obligations.PreambleIsSynchronised : Prop :=
  ∀ (l : ℕ) (s : State), s.cfg.wellFormed = true → 1 ≤ l → 1 / 2 < (s.cfg.amplitude : ℚ) * s.cfg.threshold →
    ¬ Matches s.cfg l 0b00#2 (sample s.cfg l 0b11#2) →
    Sys2Proof.core.run (4 * l + 1) (preambleRun l s) = .next
      { s with
        dem := { state := .cls, t := 4 * l, symlen := l, rem := 0, cnt := { c0 := 0, c1 := 0, c2 := 0, c3 := 0 },
                 pos := 0, cause := .none, fstate := .init }
        env := { s.env with turns := [], smpSrc := [] } }

/-- R171, R172, R177: a period of generated samples of symbol `k`, received at the time indices they were generated for,
is decided as `k` in the step of its last sample, provided each lower-indexed candidate fails to match one of them. The
run is a schedule of one turn for each sample (log entry 5), with every write answered `ok` (log entry 2). -/
def Obligations.GeneratedPeriodIsDecidedAsItsSymbol : Prop :=
  ∀ (k : Symbol) (s : State), s.cfg.wellFormed = true → 1 / 2 < (s.cfg.amplitude : ℚ) * s.cfg.threshold →
    s.dem.state = .cls → s.dem.pos = 0 → s.dem.cnt = { c0 := 0, c1 := 0, c2 := 0, c3 := 0 } → 1 ≤ s.dem.symlen →
    (∀ j : Symbol, j.toNat < k.toNat → ∃ n, n < s.dem.symlen ∧
      ¬ Matches s.cfg (s.dem.t + n) j (sample s.cfg (s.dem.t + n) k)) →
    Sys2Proof.core.run s.dem.symlen (symbolPeriod k s) = .next
      { s with
        dem := { s.dem with t := s.dem.t + s.dem.symlen }
        env := { s.env with
          turns := [], smpSrc := [], bitAnswers := [], bitSink := s.env.bitSink ++ symbolChars k } }

/-- R177: in the reference configuration, with any symbol length from 2 on, demodulating the modulated form of a bit
text of even length gives back the text and a newline. The run is a schedule of one turn for each step (log entry 5),
with every write answered `ok` (log entry 2). -/
def Obligations.RoundTripReproducesTheBits : Prop :=
  ∀ (l : ℕ) (chars : List Char8) (s : State), 2 ≤ l → s.cfg = { Config.reference with symbolLen := l } →
    (∀ ch ∈ chars, ch = 0x30#8 ∨ ch = 0x31#8) → chars.length % 2 = 0 →
    ∃ t : State, Sys2Proof.core.run ((modulate s.cfg chars).length + 2) (roundTrip chars s) = .next t ∧
      t.env.bitSink = s.env.bitSink ++ chars ++ [0x0A#8] ∧
      t.dem.state = .done ∧ t.dem.cause = .none ∧ t.dem.symlen = l ∧
      t.dem.t = l * (4 + chars.length / 2) ∧ t.mod = s.mod ∧ t.env.smpSink = s.env.smpSink
end

