-- ==== Sys2Proof/Laws/Cosine.lean ====
section
/-!
SUPPORT. The exact integer arithmetic of Machine/Carrier.lean is the real cosine: `cosCmp` compares
`cos(π·h/m)` with a rational, and `roundCosine` is `a·cos(π·h/m)` rounded to the nearest integer.
-/

namespace Sys2Proof.Laws

open Sys2Proof Sys2Proof.Machine Real

/-! ### Counting half turns -/

/-- What `halfTurns` knows after `i` multiples of `α`, `cos α = p/q`: its two numbers are the sines of two
consecutive multiples, less `turns` half turns, scaled by a power of `q`. -/
structure TurnsAt (α : ℝ) (q i : ℕ) (crossed : Bool) (a b turns : ℕ) : Prop where
  now : (q : ℝ) * b * sin α = q ^ i * sin (i * α - turns * π)
  before : (q : ℝ) ^ 2 * (if crossed then -(a : ℝ) else a) * sin α = q ^ i * sin ((i - 1) * α - turns * π)
  low : turns * π ≤ i * α
  high : i * α < (turns + 1) * π
  fresh : crossed = true → (i - 1) * α < turns * π

theorem sin_next (x α : ℝ) : sin (x + α) = 2 * cos α * sin x - sin (x - α) := by
  rw [sin_add, sin_sub]; ring

section Chain

variable {α : ℝ} {p q i a b turns : ℕ}

/-- The sine of the next multiple from the two numbers at hand. -/
theorem TurnsAt.next_sine {crossed : Bool} (h : TurnsAt α q i crossed a b turns) (hc : q * cos α = p) :
    (q : ℝ) * (2 * p * b - q ^ 2 * (if crossed then -(a : ℝ) else a)) * sin α
      = q ^ (i + 1) * sin ((i + 1) * α - turns * π) := by
  have e : ((i : ℝ) + 1) * α - turns * π = (i * α - turns * π) + α := by ring
  have e' : ((i : ℝ) - 1) * α - turns * π = (i * α - turns * π) - α := by ring
  rw [e, sin_next]
  have h1 := h.now
  have h2 := h.before
  rw [e'] at h2
  calc (q : ℝ) * (2 * p * b - q ^ 2 * (if crossed then -(a : ℝ) else a)) * sin α
      = 2 * p * (q * b * sin α) - q * (q ^ 2 * (if crossed then -(a : ℝ) else a) * sin α) := by ring
    _ = 2 * (q * cos α) * (q ^ i * sin (i * α - turns * π))
          - q * (q ^ i * sin ((i * α - turns * π) - α)) := by rw [h1, h2, hc]
    _ = q ^ (i + 1) * (2 * cos α * sin (i * α - turns * π) - sin ((i * α - turns * π) - α)) := by ring

theorem sin_less_turn (x : ℝ) (n : ℕ) : sin (x - (n + 1 : ℕ) * π) = -sin (x - n * π) := by
  rw [sin_sub_nat_mul_pi, sin_sub_nat_mul_pi]; ring

/-- One more multiple without a half turn completed. -/
theorem TurnsAt.stay {crossed : Bool} {c : ℕ} (h : TurnsAt α q i crossed a b turns) (hc : q * cos α = p)
    (hval : (c : ℝ) = 2 * p * b - q ^ 2 * (if crossed then -(a : ℝ) else a)) (hα : 0 < α)
    (hlt : ((i : ℝ) + 1) * α < (turns + 1) * π) : TurnsAt α q (i + 1) false b c turns where
  now := by
    have := h.next_sine hc
    rw [← hval] at this
    push_cast
    exact this
  before := by
    have := h.now
    have e : (((i + 1 : ℕ) : ℝ) - 1) * α - turns * π = i * α - turns * π := by push_cast; ring
    rw [e]
    simp only [Bool.false_eq_true, if_false]
    linear_combination (q : ℝ) * this
  low := by
    have := h.low
    push_cast
    linarith
  high := by push_cast; exact hlt
  fresh := by simp

/-- One more multiple that completes a half turn. -/
theorem TurnsAt.cross {c : ℕ} (h : TurnsAt α q i false a b turns) (hc : q * cos α = p)
    (hval : (c : ℝ) = q ^ 2 * a - 2 * p * b) (hα' : α < π)
    (hge : ((turns : ℝ) + 1) * π ≤ (i + 1) * α) : TurnsAt α q (i + 1) true b c (turns + 1) where
  now := by
    have := h.next_sine hc
    push_cast at *
    have e := sin_less_turn (((i : ℝ) + 1) * α) turns
    push_cast at e
    rw [e, hval]
    linear_combination -this
  before := by
    have := h.now
    have e : (((i + 1 : ℕ) : ℝ) - 1) * α = i * α := by push_cast; ring
    rw [e, sin_less_turn]
    simp only [if_true]
    linear_combination -(q : ℝ) * this
  low := by push_cast; exact hge
  high := by
    have := h.high
    push_cast
    nlinarith
  fresh := by
    intro _
    have := h.high
    push_cast
    linarith

end Chain

/-- `halfTurns` counts the half turns in `m·α` and says whether `m·α` ends exactly on one. -/
theorem halfTurns_spec {α : ℝ} {p q : ℕ} (hp : q * cos α = p) (hq : 0 < q) (hα : 0 < α) (hα' : α ≤ π / 2) :
    ∀ (n i : ℕ) (crossed : Bool) (a b turns : ℕ), TurnsAt α q i crossed a b turns →
      let r := halfTurns (2 * p) (q * q) n crossed a b turns
      r.1 * π ≤ (i + n : ℕ) * α ∧ ((i + n : ℕ) : ℝ) * α < (r.1 + 1) * π ∧
        (r.2 = true ↔ ((i + n : ℕ) : ℝ) * α = r.1 * π) := by
  have hsin : 0 < sin α := sin_pos_of_pos_of_lt_pi hα (by linarith [pi_pos])
  have hq' : (0 : ℝ) < q := by exact_mod_cast hq
  intro n
  induction n with
  | zero =>
    intro i crossed a b turns h
    refine ⟨by simpa [halfTurns] using h.low, by simpa [halfTurns] using h.high, ?_⟩
    have hnow := h.now
    have hpow : (0 : ℝ) < q ^ i := by positivity
    have hl := h.low
    have hh := h.high
    simp only [halfTurns, Nat.beq_eq, Nat.add_zero]
    constructor
    · intro hb
      rw [hb] at hnow
      simp only [Nat.cast_zero, mul_zero, zero_mul] at hnow
      have hz : sin (i * α - turns * π) = 0 := by
        rcases mul_eq_zero.mp hnow.symm with h0 | h0
        · exact absurd h0 hpow.ne'
        · exact h0
      by_contra hne
      have : 0 < sin (i * α - turns * π) := by
        apply sin_pos_of_pos_of_lt_pi
        · rcases lt_or_eq_of_le hl with h1 | h1
          · linarith
          · exact absurd h1.symm hne
        · linarith
      linarith
    · intro he
      rw [he, sub_self, sin_zero, mul_zero] at hnow
      have : (b : ℝ) = 0 := by
        rcases mul_eq_zero.mp hnow with h0 | h0
        · rcases mul_eq_zero.mp h0 with h1 | h1
          · exact absurd h1 hq'.ne'
          · exact h1
        · exact absurd h0 hsin.ne'
      exact_mod_cast this
  | succ n ih =>
    intro i crossed a b turns h
    have hidx : i + (n + 1) = (i + 1) + n := by omega
    rw [hidx]
    cases crossed with
    | true =>
      have hfresh := h.fresh rfl
      exact ih (i + 1) false b (2 * p * b + q * q * a) turns
        (h.stay hp (by push_cast; simp only [if_true]; ring) hα (by nlinarith))
    | false =>
      have hsine := h.next_sine hp
      simp only [Bool.false_eq_true, if_false] at hsine
      have hpow : (0 : ℝ) < q ^ (i + 1) := by positivity
      have hl := h.low
      have hh := h.high
      rcases Nat.lt_or_ge (q * q * a) (2 * p * b) with hlt | hge
      · have hble : Nat.ble (2 * p * b) (q * q * a) = false := by
          rw [Bool.eq_false_iff, Ne, Nat.ble_eq]; omega
        have hltR : (q : ℝ) ^ 2 * a < 2 * p * b := by
          have : ((q * q * a : ℕ) : ℝ) < ((2 * p * b : ℕ) : ℝ) := by exact_mod_cast hlt
          push_cast at this; nlinarith
        have hs : 0 < sin (((i : ℝ) + 1) * α - turns * π) := by
          by_contra hcon
          have h1 : (q : ℝ) * (2 * p * b - q ^ 2 * a) * sin α > 0 := by
            have : 0 < 2 * (p : ℝ) * b - q ^ 2 * a := by linarith
            positivity
          have h2 : (q : ℝ) ^ (i + 1) * sin (((i : ℝ) + 1) * α - turns * π) ≤ 0 :=
            mul_nonpos_of_nonneg_of_nonpos hpow.le (not_lt.mp hcon)
          linarith
        have hlt' : ((i : ℝ) + 1) * α < (turns + 1) * π := by
          by_contra hcon
          have : sin (((i : ℝ) + 1) * α - turns * π) ≤ 0 := by
            have e : ((i : ℝ) + 1) * α - turns * π
                = ((((i : ℝ) + 1) * α - turns * π) - π) + π := by ring
            rw [e, sin_add_pi]
            have : 0 ≤ sin ((((i : ℝ) + 1) * α - turns * π) - π) :=
              sin_nonneg_of_nonneg_of_le_pi (by linarith [not_lt.mp hcon]) (by linarith)
            linarith
          linarith
        have hstep := ih (i + 1) false b (2 * p * b - q * q * a) turns
          (h.stay hp (by rw [Nat.cast_sub hlt.le]; push_cast; ring) hα hlt')
        simp only [halfTurns, hble]
        exact hstep
      · have hble : Nat.ble (2 * p * b) (q * q * a) = true := by
          rw [Nat.ble_eq]; exact hge
        have hgeR : 2 * p * b ≤ (q : ℝ) ^ 2 * a := by
          have : ((2 * p * b : ℕ) : ℝ) ≤ ((q * q * a : ℕ) : ℝ) := by exact_mod_cast hge
          push_cast at this; nlinarith
        have hs : sin (((i : ℝ) + 1) * α - turns * π) ≤ 0 := by
          by_contra hcon
          have h1 : (q : ℝ) * (2 * p * b - q ^ 2 * a) * sin α ≤ 0 := by
            apply mul_nonpos_of_nonpos_of_nonneg _ hsin.le
            exact mul_nonpos_of_nonneg_of_nonpos hq'.le (by linarith)
          have h2 : 0 < (q : ℝ) ^ (i + 1) * sin (((i : ℝ) + 1) * α - turns * π) :=
            mul_pos hpow (not_le.mp hcon)
          linarith
        have hge' : ((turns : ℝ) + 1) * π ≤ (i + 1) * α := by
          by_contra hcon
          have : 0 < sin (((i : ℝ) + 1) * α - turns * π) :=
            sin_pos_of_pos_of_lt_pi (by linarith) (by linarith [not_le.mp hcon])
          linarith
        have hstep := ih (i + 1) true b (q * q * a - 2 * p * b) (turns + 1)
          (h.cross hp (by rw [Nat.cast_sub hge]; push_cast; ring) (by linarith [pi_pos]) hge')
        simp only [halfTurns, hble]
        exact hstep

/-! ### Comparing a cosine with a rational -/

/-- `o` is how `x` compares with `y`. -/
def Compares (o : Ordering) (x y : ℝ) : Prop :=
  (o = .lt ↔ x < y) ∧ (o = .gt ↔ y < x)

theorem compares_lt {x y : ℝ} (h : x < y) : Compares .lt x y :=
  ⟨by simp [h], by simp [not_lt.mpr h.le]⟩

theorem compares_gt {x y : ℝ} (h : y < x) : Compares .gt x y :=
  ⟨by simp [not_lt.mpr h.le], by simp [h]⟩

theorem compares_eq {x y : ℝ} (h : x = y) : Compares .eq x y :=
  ⟨by simp [h], by simp [h]⟩

theorem Compares.swap {o : Ordering} {x y : ℝ} (h : Compares o x y) : Compares o.swap (-x) (-y) := by
  obtain ⟨h1, h2⟩ := h
  cases o <;> simp_all [Compares]

/-- The angle `π·h/m`. -/
noncomputable def stepAngle (h m : ℕ) : ℝ := π * h / m

theorem stepAngle_nonneg (h m : ℕ) : 0 ≤ stepAngle h m := by
  unfold stepAngle; positivity

theorem stepAngle_le_pi {h m : ℕ} (hm : 0 < m) (hh : h ≤ m) : stepAngle h m ≤ π := by
  have h1 : (h : ℝ) ≤ m := by exact_mod_cast hh
  have h2 : (0 : ℝ) < m := by exact_mod_cast hm
  unfold stepAngle
  rw [div_le_iff₀ h2]
  exact mul_le_mul_of_nonneg_left h1 pi_pos.le

theorem cos_mirror {h m : ℕ} (hm : 0 < m) (hh : h ≤ m) :
    cos (stepAngle (m - h) m) = -cos (stepAngle h m) := by
  have h2 : (m : ℝ) ≠ 0 := by exact_mod_cast hm.ne'
  have : stepAngle (m - h) m = π - stepAngle h m := by
    unfold stepAngle
    rw [Nat.cast_sub hh]
    field_simp
  rw [this, cos_pi_sub]

theorem cosCmpNat_spec {p q h m : ℕ} (hpq : p < q) (hm : 0 < m) (hh : h ≤ m) :
    Compares (cosCmpNat p q h m) (cos (stepAngle h m)) (p / q) := by
  have hq : 0 < q := by omega
  have hqR : (0 : ℝ) < q := by exact_mod_cast hq
  have hmR : (0 : ℝ) < m := by exact_mod_cast hm
  have hpqR : (p : ℝ) < q := by exact_mod_cast hpq
  have hx0 : 0 ≤ (p : ℝ) / q := by positivity
  have hx1 : (p : ℝ) / q < 1 := (div_lt_one hqR).mpr hpqR
  set α := arccos ((p : ℝ) / q) with hαdef
  have hcos : cos α = p / q := cos_arccos (by linarith) hx1.le
  have hα : 0 < α := arccos_pos.mpr hx1
  have hα2 : α ≤ π / 2 := arccos_le_pi_div_two.mpr hx0
  have hp : q * cos α = p := by rw [hcos]; field_simp
  have hstart : TurnsAt α q 1 false 0 1 0 :=
    { now := by simp, before := by simp, low := by simp; exact hα.le,
      high := by simp; linarith [pi_pos], fresh := by simp }
  obtain ⟨hlow, hhigh, hexact⟩ := halfTurns_spec hp hq hα hα2 (m - 1) 1 false 0 1 0 hstart
  have hidx : 1 + (m - 1) = m := by omega
  rw [hidx] at hlow hhigh hexact
  unfold cosCmpNat
  generalize hr : halfTurns (2 * p) (q * q) (m - 1) false 0 1 0 = r at *
  obtain ⟨turns, exact_⟩ := r
  simp only at hlow hhigh hexact
  -- the cosine compares with `p/q` as `m·α` with `h·π`
  have hmem : stepAngle h m ∈ Set.Icc 0 π := ⟨stepAngle_nonneg h m, stepAngle_le_pi hm hh⟩
  have hαmem : α ∈ Set.Icc 0 π := ⟨hα.le, by linarith [pi_pos]⟩
  have hgt : (p : ℝ) / q < cos (stepAngle h m) ↔ h * π < m * α := by
    rw [← hcos, strictAntiOn_cos.lt_iff_gt hαmem hmem]
    unfold stepAngle
    rw [div_lt_iff₀ hmR]
    constructor <;> intro h <;> linarith
  have hlt : cos (stepAngle h m) < (p : ℝ) / q ↔ m * α < h * π := by
    rw [← hcos, strictAntiOn_cos.lt_iff_gt hmem hαmem]
    unfold stepAngle
    rw [lt_div_iff₀ hmR]
    constructor <;> intro h <;> linarith
  have heq : m * α = h * π → cos (stepAngle h m) = (p : ℝ) / q := by
    intro he
    have : stepAngle h m = α := by unfold stepAngle; field_simp; linarith
    rw [this, hcos]
  rcases Nat.lt_trichotomy h turns with hc | hc | hc
  · have e1 : Nat.ble h turns = true := by rw [Nat.ble_eq]; omega
    have e2 : Nat.beq h turns = false := by rw [Bool.eq_false_iff, Ne, Nat.beq_eq]; omega
    simp only [e1, e2, Bool.and_false]
    apply compares_gt
    rw [hgt]
    have : (h : ℝ) + 1 ≤ turns := by exact_mod_cast hc
    nlinarith [pi_pos]
  · subst hc
    have e1 : Nat.ble h h = true := by rw [Nat.ble_eq]
    have e2 : Nat.beq h h = true := by rw [Nat.beq_eq]
    cases exact_ with
    | true =>
      simp only [e1, e2, Bool.and_true]
      exact compares_eq (heq (hexact.mp rfl))
    | false =>
      simp only [e1, e2, Bool.false_and]
      apply compares_gt
      rw [hgt]
      rcases lt_or_eq_of_le hlow with h1 | h1
      · exact h1
      · exact absurd (hexact.mpr h1.symm) (by simp)
  · have e1 : Nat.ble h turns = false := by rw [Bool.eq_false_iff, Ne, Nat.ble_eq]; omega
    have e2 : Nat.beq h turns = false := by rw [Bool.eq_false_iff, Ne, Nat.beq_eq]; omega
    simp only [e1, e2, Bool.and_false]
    apply compares_lt
    rw [hlt]
    have : (turns : ℝ) + 1 ≤ h := by exact_mod_cast hc
    nlinarith [pi_pos]

theorem cos_stepAngle_eq_one {h m : ℕ} (hm : 0 < m) (hh : h ≤ m) : cos (stepAngle h m) = 1 ↔ h = 0 := by
  have hmR : (0 : ℝ) < m := by exact_mod_cast hm
  constructor
  · intro h1
    by_contra hne
    have hpos : 0 < stepAngle h m := by
      have : (0 : ℝ) < h := by exact_mod_cast Nat.pos_of_ne_zero hne
      unfold stepAngle; positivity
    have hlt := strictAntiOn_cos (show (0 : ℝ) ∈ Set.Icc 0 π from ⟨le_rfl, pi_pos.le⟩)
      (show stepAngle h m ∈ Set.Icc 0 π from ⟨hpos.le, stepAngle_le_pi hm hh⟩) hpos
    rw [cos_zero, h1] at hlt
    exact lt_irrefl _ hlt
  · rintro rfl; simp [stepAngle]

/-- `cosCmp` is the comparison of `cos(π·h/m)` with `p/q`. -/
theorem cosCmp_spec {p : ℤ} {q h m : ℕ} (hq : 0 < q) (hm : 0 < m) (hh : h ≤ m) :
    Compares (cosCmp p q h m) (cos (stepAngle h m)) (p / q) := by
  have hqR : (0 : ℝ) < q := by exact_mod_cast hq
  cases p with
  | ofNat n =>
    simp only [cosCmp, Int.ofNat_eq_natCast, Int.cast_natCast]
    split
    · next hlt => exact cosCmpNat_spec hlt hm hh
    · split
      · next _ heq =>
        obtain ⟨rfl, rfl⟩ := heq
        apply compares_eq
        rw [(cos_stepAngle_eq_one hm hh).mpr rfl, div_self hqR.ne']
      · next hnlt hne =>
        apply compares_lt
        have hle1 := cos_le_one (stepAngle h m)
        rcases Nat.lt_or_eq_of_le (not_lt.mp hnlt) with h1 | h1
        · have : (1 : ℝ) < n / q := by
            rw [one_lt_div hqR]; exact_mod_cast h1
          linarith
        · have hh0 : h ≠ 0 := fun h0 => hne ⟨h1.symm, h0⟩
          rw [← h1, div_self hqR.ne']
          exact lt_of_le_of_ne hle1 (fun he => hh0 ((cos_stepAngle_eq_one hm hh).mp he))
  | negSucc n =>
    have hmir := cos_mirror hm hh
    have hcast : ((Int.negSucc n : ℤ) : ℝ) / q = -(((n + 1 : ℕ) : ℝ) / q) := by
      rw [Int.cast_negSucc]; push_cast; ring
    have hval : cos (stepAngle h m) = -cos (stepAngle (m - h) m) := by rw [hmir]; ring
    rw [hcast, hval]
    simp only [cosCmp]
    split
    · next hlt => exact (cosCmpNat_spec hlt hm (Nat.sub_le m h)).swap
    · split
      · next _ heq =>
        obtain ⟨h1, rfl⟩ := heq
        apply compares_eq
        rw [Nat.sub_self, (cos_stepAngle_eq_one hm (Nat.zero_le _)).mpr rfl, ← h1]
        push_cast
        rw [← h1] at hqR
        push_cast at hqR
        rw [div_self hqR.ne']
      · next hnlt hne =>
        have hle1 := cos_le_one (stepAngle (m - h) m)
        apply compares_gt
        apply neg_lt_neg
        rcases Nat.lt_or_eq_of_le (not_lt.mp hnlt) with h1 | h1
        · have : (1 : ℝ) < ((n + 1 : ℕ) : ℝ) / q := by
            rw [one_lt_div hqR]; exact_mod_cast h1
          linarith
        · have hh0 : m - h ≠ 0 := fun h0 => hne ⟨h1.symm, by omega⟩
          rw [← h1, div_self hqR.ne']
          exact lt_of_le_of_ne hle1
            (fun he => hh0 ((cos_stepAngle_eq_one hm (Nat.sub_le m h)).mp he))

/-! ### Rounding a multiple of a cosine -/

/-- `greatestPassing` finds a number that passes whose successor fails. -/
theorem greatestPassing_spec (test : ℕ → Bool) :
    ∀ (bits v : ℕ), test v = true → test (v + 2 ^ bits) = false →
      test (greatestPassing test bits v) = true ∧ test (greatestPassing test bits v + 1) = false := by
  intro bits
  induction bits with
  | zero => intro v h0 h1; exact ⟨h0, by simpa [greatestPassing] using h1⟩
  | succ bits ih =>
    intro v h0 h1
    simp only [greatestPassing]
    cases hmid : test (v + 2 ^ bits) with
    | true =>
      refine ih _ hmid ?_
      rw [show v + 2 ^ bits + 2 ^ bits = v + 2 ^ (bits + 1) by ring]
      exact h1
    | false => exact ih v h0 hmid

/-- `v` is `r` rounded to the nearest integer, for `r ≥ 0`, a tie going up. -/
def RoundsUp (v : ℕ) (r : ℝ) : Prop :=
  (v : ℝ) - 1 / 2 ≤ r ∧ r < v + 1 / 2

theorem roundCosineNat_spec {a h m : ℕ} (ha : 0 < a) (hm : 0 < m) (hh : 2 * h ≤ m) :
    RoundsUp (roundCosineNat a h m) (a * cos (stepAngle h m)) := by
  have haR : (0 : ℝ) < a := by exact_mod_cast ha
  have hmR : (0 : ℝ) < m := by exact_mod_cast hm
  have hcos0 : 0 ≤ cos (stepAngle h m) := by
    apply cos_nonneg_of_neg_pi_div_two_le_of_le
    · have := stepAngle_nonneg h m
      linarith [pi_pos]
    · have h1 : (2 * h : ℝ) ≤ m := by exact_mod_cast hh
      unfold stepAngle
      rw [div_le_div_iff₀ hmR (by norm_num)]
      nlinarith [pi_pos]
  have htest : ∀ v : ℕ, (cosCmp (2 * v - 1) (2 * a) h m != .lt) = true ↔ (v : ℝ) - 1 / 2 ≤ a * cos (stepAngle h m) := by
    intro v
    have hs := (cosCmp_spec (p := 2 * (v : ℤ) - 1) (q := 2 * a) (by omega : 0 < 2 * a) hm
      (by omega : h ≤ m)).1
    rw [bne_iff_ne, Ne, hs, not_lt]
    push_cast
    rw [div_le_iff₀ (by positivity)]
    constructor <;> intro hx <;> linarith
  have hspec := greatestPassing_spec (fun v => cosCmp (2 * v - 1) (2 * a) h m != .lt)
    (a.log2 + 1) 0
    (by rw [htest]; push_cast; nlinarith)
    (by
      rw [Bool.eq_false_iff, Ne, htest]
      have h1 : a < 2 ^ (a.log2 + 1) := Nat.lt_log2_self
      have h2 : (a : ℝ) + 1 ≤ (2 ^ (a.log2 + 1) : ℕ) := by exact_mod_cast h1
      have h3 := cos_le_one (stepAngle h m)
      rw [not_le, Nat.zero_add]
      nlinarith)
  obtain ⟨h1, h2⟩ := hspec
  rw [htest] at h1
  rw [Bool.eq_false_iff, Ne, htest, not_le] at h2
  refine ⟨h1, ?_⟩
  unfold roundCosineNat
  push_cast at h2
  linarith

end Sys2Proof.Laws
end

