-- ==== Sys2Proof/Laws/Carrier.lean ====
section
/-!
SUPPORT. The machine's `sampleValue` and `phaseMatch` are the real-number `SAMPLE` and `MATCH`
(spec/40_phase_numerics.md R104, R107, R110, R111) in every well-formed configuration.
-/

namespace Sys2Proof.Laws

open Sys2Proof Sys2Proof.Machine Real

theorem Config.wellFormed_iff (c : Config) : c.wellFormed = true ↔
    1 ≤ c.sampleRate ∧ 1 ≤ c.frequency ∧ 1 ≤ c.amplitude ∧ c.amplitude < 2 ^ (c.sampleBits - 1) ∧
      0 < c.threshold.num := by
  simp [Config.wellFormed]

theorem Config.wellFormedMod_iff (c : Config) : c.wellFormedMod = true ↔
    c.wellFormed = true ∧ 1 ≤ c.symbolLen ∧ c.symbolLen ≤ c.symlenMax := by
  simp [Config.wellFormedMod]

section Index

variable {c : Config} (hS : 1 ≤ c.sampleRate)
include hS

theorem carrierG_pos : 0 < carrierG c :=
  Nat.gcd_pos_of_pos_right _ hS

theorem carrierKP_pos : 0 < carrierKP c :=
  Nat.div_pos (Nat.le_of_dvd hS (Nat.gcd_dvd_right _ _)) (carrierG_pos hS)

omit hS in
theorem carrierN_eq : carrierN c = 8 * carrierKP c :=
  Nat.mul_div_assoc 8 (Nat.gcd_dvd_right _ _)

omit hS in
theorem halfPeriod_eq : halfPeriod c = 4 * carrierKP c := by
  unfold halfPeriod; rw [carrierN_eq]; omega

theorem halfPeriod_pos : 0 < halfPeriod c := by
  have := carrierKP_pos hS
  rw [halfPeriod_eq]; omega

omit hS in
theorem foldStep_le {j : ℕ} (hj : j < carrierN c) : foldStep c j ≤ halfPeriod c := by
  have := carrierN_eq (c := c)
  have := halfPeriod_eq (c := c)
  unfold foldStep
  split <;> omega

theorem carrierJ_lt (t : ℕ) (k : Symbol) : carrierJ c t k < carrierN c :=
  Nat.mod_lt _ (by have := carrierKP_pos hS; rw [carrierN_eq]; omega)

omit hS in
/-- The phase table in eighths of a turn is the phase table in radians (R100). -/
theorem phaseOf_eq (k : Symbol) : Safety.phaseOf k = phase8 k * (π / 4) := by
  have h : k = 0b00#2 ∨ k = 0b01#2 ∨ k = 0b10#2 ∨ k = 0b11#2 := by
    revert k; decide
  rcases h with rfl | rfl | rfl | rfl <;> simp [Safety.phaseOf, phase8] <;> ring

theorem angle_eq (t : ℕ) (k : Symbol) :
    Safety.angle c t k = 2 * π * ((carrierKT c * t + phase8 k * carrierKP c : ℕ) : ℝ) / carrierN c := by
  have hg : (0 : ℝ) < carrierG c := by exact_mod_cast carrierG_pos hS
  have hSR : (0 : ℝ) < c.sampleRate := by exact_mod_cast hS
  have hkp : (carrierKP c : ℝ) = c.sampleRate / carrierG c :=
    Nat.cast_div (Nat.gcd_dvd_right _ _) hg.ne'
  have hkt : (carrierKT c : ℝ) = 8 * c.frequency / carrierG c := by
    have := Nat.cast_div (K := ℝ) (Nat.gcd_dvd_left (8 * c.frequency) c.sampleRate) hg.ne'
    push_cast at this
    exact this
  rw [Safety.angle, phaseOf_eq, carrierN_eq]
  push_cast
  rw [hkp, hkt]
  field_simp
  ring

/-- `REF(t, k) = cos(2π·J(t, k)/N)`, folded to half a period (R104). -/
theorem ref_eq (t : ℕ) (k : Symbol) :
    Safety.ref c t k = cos (stepAngle (foldStep c (carrierJ c t k)) (halfPeriod c)) := by
  have hkp := carrierKP_pos hS
  have hkpR : (0 : ℝ) < carrierKP c := by exact_mod_cast hkp
  have hN : (carrierN c : ℝ) = 8 * carrierKP c := by rw [carrierN_eq]; push_cast; ring
  have hM : (halfPeriod c : ℝ) = 4 * carrierKP c := by rw [halfPeriod_eq]; push_cast; ring
  have hj := carrierJ_lt hS t k
  have hstep : Safety.ref c t k = cos (2 * π * (carrierJ c t k : ℝ) / carrierN c) := by
    rw [Safety.ref, angle_eq hS]
    set m := carrierKT c * t + phase8 k * carrierKP c with hm
    have hmod : m = carrierN c * (m / carrierN c) + carrierJ c t k := (Nat.div_add_mod m _).symm
    have hmR : (m : ℝ) = carrierN c * (m / carrierN c : ℕ) + carrierJ c t k := by exact_mod_cast hmod
    rw [hmR, show 2 * π * ((carrierN c : ℝ) * (m / carrierN c : ℕ) + carrierJ c t k) / carrierN c
      = 2 * π * (carrierJ c t k : ℝ) / carrierN c + (m / carrierN c : ℕ) * (2 * π) by
        rw [hN]; field_simp; ring]
    exact cos_add_nat_mul_two_pi _ _
  rw [hstep]
  unfold foldStep stepAngle
  split
  · rw [hN, hM]; congr 1; field_simp; ring
  · rw [Nat.cast_sub hj.le, hN, hM]
    rw [← cos_neg, ← cos_add_two_pi]
    congr 1; field_simp; ring

end Index

/-- Rounding to the nearest natural number with ties up is `round` on non-negative reals (R106). -/
theorem RoundsUp.eq {v : ℕ} {r : ℝ} (h : RoundsUp v r) (hr : 0 ≤ r) : Safety.roundHalfAway r = v := by
  rw [Safety.roundHalfAway, if_pos hr, Int.floor_eq_iff]
  obtain ⟨h1, h2⟩ := h
  push_cast
  constructor <;> linarith

theorem RoundsUp.eq_neg {v : ℕ} {r : ℝ} (h : RoundsUp v r) (hr : 0 < r) :
    Safety.roundHalfAway (-r) = -(v : ℤ) := by
  rw [Safety.roundHalfAway, if_neg (by linarith), Int.ceil_eq_iff]
  obtain ⟨h1, h2⟩ := h
  push_cast
  constructor <;> linarith

/-- `roundCosine` is `round(a·cos(π·h/m))`. -/
theorem roundCosine_spec {a h m : ℕ} (ha : 0 < a) (hm : 0 < m) (hh : h ≤ m) :
    roundCosine a h m = Safety.roundHalfAway (a * cos (stepAngle h m)) := by
  have haR : (0 : ℝ) < a := by exact_mod_cast ha
  have hmR : (0 : ℝ) < m := by exact_mod_cast hm
  have hpos : ∀ g : ℕ, 2 * g ≤ m → 0 ≤ cos (stepAngle g m) := by
    intro g hg
    apply cos_nonneg_of_neg_pi_div_two_le_of_le
    · have := stepAngle_nonneg g m
      linarith [pi_pos]
    · have h1 : (2 * g : ℝ) ≤ m := by exact_mod_cast hg
      unfold stepAngle
      rw [div_le_div_iff₀ hmR (by norm_num)]
      nlinarith [pi_pos]
  unfold roundCosine
  split
  · next h2 => exact ((roundCosineNat_spec ha hm h2).eq (mul_nonneg haR.le (hpos h h2))).symm
  · next h2 =>
    have h3 : 2 * (m - h) ≤ m := by omega
    have hsp := roundCosineNat_spec ha hm h3
    have hmir := cos_mirror hm hh
    have hnn := hpos _ h3
    have hstrict : 0 < cos (stepAngle (m - h) m) := by
      apply cos_pos_of_mem_Ioo
      constructor
      · have := stepAngle_nonneg (m - h) m
        linarith [pi_pos]
      · have h4 : 2 * ((m - h : ℕ) : ℝ) < m := by exact_mod_cast (by omega : 2 * (m - h) < m)
        unfold stepAngle
        rw [div_lt_div_iff₀ hmR (by norm_num)]
        nlinarith [pi_pos]
    rw [← hsp.eq_neg (mul_pos haR hstrict), hmir]
    congr 1
    ring

/-- The machine's sample value is `SAMPLE(t, k)` (R107). -/
theorem sampleValue_eq {c : Config} (hc : c.wellFormed = true) (t : ℕ) (k : Symbol) :
    sampleValue c t k = Safety.sample c t k := by
  obtain ⟨hS, -, hA, -, -⟩ := (Config.wellFormed_iff c).mp hc
  rw [sampleValue, cosq, Safety.sample, ref_eq hS]
  exact roundCosine_spec hA (halfPeriod_pos hS) (foldStep_le (carrierJ_lt hS t k))

/-- The machine's match predicate is `MATCH(t, k, x)` (R110, R111). -/
theorem phaseMatch_iff {c : Config} (hc : c.wellFormed = true) (t : ℕ) (k : Symbol) (x : ℤ) :
    phaseMatch c t k x = true ↔ Safety.Matches c t k x := by
  obtain ⟨hS, -, hA, -, -⟩ := (Config.wellFormed_iff c).mp hc
  have hAR : (0 : ℝ) < c.amplitude := by exact_mod_cast hA
  have hd : 0 < c.threshold.den := c.threshold.den_pos
  have hdR : (0 : ℝ) < c.threshold.den := by exact_mod_cast hd
  have hq : 0 < c.amplitude * c.threshold.den := Nat.mul_pos hA hd
  have hle := foldStep_le (carrierJ_lt hS t k)
  have hth : (c.threshold : ℝ) = c.threshold.num / c.threshold.den := Rat.cast_def _
  have hlo := (cosCmp_spec (p := x * c.threshold.den - c.amplitude * c.threshold.num) hq
    (halfPeriod_pos hS) hle).2
  have hhi := (cosCmp_spec (p := x * c.threshold.den + c.amplitude * c.threshold.num) hq
    (halfPeriod_pos hS) hle).1
  rw [← ref_eq hS] at hlo hhi
  simp only [phaseMatch, stepMatch, Bool.and_eq_true, beq_iff_eq]
  rw [hlo, hhi, Safety.Matches, abs_lt, hth]
  have e1 : ((x * c.threshold.den - c.amplitude * c.threshold.num : ℤ) : ℝ) / (c.amplitude * c.threshold.den : ℕ)
      = x / c.amplitude - c.threshold.num / c.threshold.den := by
    push_cast; field_simp
  have e2 : ((x * c.threshold.den + c.amplitude * c.threshold.num : ℤ) : ℝ) / (c.amplitude * c.threshold.den : ℕ)
      = x / c.amplitude + c.threshold.num / c.threshold.den := by
    push_cast; field_simp
  rw [e1, e2]
  constructor
  · rintro ⟨h1, h2⟩; constructor <;> linarith
  · rintro ⟨h1, h2⟩; constructor <;> linarith

/-- `-A <= SAMPLE(t, k) <= A` (R108). -/
theorem sample_range (c : Config) (t : ℕ) (k : Symbol) :
    -(c.amplitude : ℤ) ≤ Safety.sample c t k ∧ Safety.sample c t k ≤ c.amplitude := by
  have h1 := cos_le_one (Safety.angle c t k)
  have h2 := neg_one_le_cos (Safety.angle c t k)
  have hA : (0 : ℝ) ≤ c.amplitude := by positivity
  have hu : (c.amplitude : ℝ) * Safety.ref c t k ≤ c.amplitude := by unfold Safety.ref; nlinarith
  have hl : -(c.amplitude : ℝ) ≤ c.amplitude * Safety.ref c t k := by unfold Safety.ref; nlinarith
  unfold Safety.sample Safety.roundHalfAway
  split
  · next h0 =>
    constructor
    · have : (0 : ℤ) ≤ ⌊(c.amplitude : ℝ) * Safety.ref c t k + 1 / 2⌋ := Int.floor_nonneg.mpr (by linarith)
      omega
    · rw [← Int.lt_add_one_iff, Int.floor_lt]
      push_cast
      linarith
  · next h0 =>
    constructor
    · rw [← Int.sub_one_lt_iff, Int.lt_ceil]
      push_cast
      linarith
    · have : ⌈(c.amplitude : ℝ) * Safety.ref c t k - 1 / 2⌉ ≤ 0 := Int.ceil_le.mpr (by push_cast; linarith)
      omega

end Sys2Proof.Laws
end

