-- ==== Sys2Proof/Laws/State.lean ====
section
/-!
SUPPORT. The small lemmas of the state's updates: one per part of the state and update, true by definition.
-/

namespace Sys2Proof.Laws

open Sys2Proof Sys2Proof.Machine

variable (s : State) (m m' : ModRegs) (d d' : DemRegs) (e e' : Env)

@[simp] theorem setMod_cfg : (s.setMod m).cfg = s.cfg := rfl
@[simp] theorem setMod_mod : (s.setMod m).mod = m := rfl
@[simp] theorem setMod_dem : (s.setMod m).dem = s.dem := rfl
@[simp] theorem setMod_env : (s.setMod m).env = s.env := rfl
@[simp] theorem setDem_cfg : (s.setDem d).cfg = s.cfg := rfl
@[simp] theorem setDem_mod : (s.setDem d).mod = s.mod := rfl
@[simp] theorem setDem_dem : (s.setDem d).dem = d := rfl
@[simp] theorem setDem_env : (s.setDem d).env = s.env := rfl
@[simp] theorem setEnv_cfg : (s.setEnv e).cfg = s.cfg := rfl
@[simp] theorem setEnv_mod : (s.setEnv e).mod = s.mod := rfl
@[simp] theorem setEnv_dem : (s.setEnv e).dem = s.dem := rfl
@[simp] theorem setEnv_env : (s.setEnv e).env = e := rfl

@[simp] theorem setMod_setMod : (s.setMod m).setMod m' = s.setMod m' := rfl
@[simp] theorem setDem_setDem : (s.setDem d).setDem d' = s.setDem d' := rfl
@[simp] theorem setEnv_setEnv : (s.setEnv e).setEnv e' = s.setEnv e' := rfl

/-- Writes to different parts of the state commute. -/
theorem setDem_setMod : (s.setDem d).setMod m = (s.setMod m).setDem d := rfl
theorem setEnv_setMod : (s.setEnv e).setMod m = (s.setMod m).setEnv e := rfl
theorem setEnv_setDem : (s.setEnv e).setDem d = (s.setDem d).setEnv e := rfl

@[simp] theorem resetUnits_cfg : (resetUnits s).cfg = s.cfg := rfl
@[simp] theorem resetUnits_mod : (resetUnits s).mod = .reset := rfl
@[simp] theorem resetUnits_dem : (resetUnits s).dem = .reset := rfl
@[simp] theorem resetUnits_env : (resetUnits s).env = s.env := rfl

@[simp] theorem raiseMod_cfg : (raiseMod s).cfg = s.cfg := rfl
@[simp] theorem raiseMod_mod : (raiseMod s).mod = { s.mod with cause := .channel, state := .failed } := rfl
@[simp] theorem raiseMod_dem : (raiseMod s).dem = s.dem := rfl
@[simp] theorem raiseMod_env : (raiseMod s).env = s.env := rfl

section Raise
variable (c : Cause) (f : DState)

@[simp] theorem raiseDem_cfg : (raiseDem c f s).cfg = s.cfg := rfl
@[simp] theorem raiseDem_mod : (raiseDem c f s).mod = s.mod := rfl
@[simp] theorem raiseDem_dem : (raiseDem c f s).dem = { s.dem with cause := c, fstate := f, state := .failed } := rfl
@[simp] theorem raiseDem_env : (raiseDem c f s).env = s.env := rfl

end Raise

@[simp] theorem clearMod_cfg : (clearMod s).cfg = s.cfg := rfl
@[simp] theorem clearMod_mod :
    (clearMod s).mod = { s.mod with t := 0, held := false, bit := 0#1, cause := .none } := rfl
@[simp] theorem clearMod_dem : (clearMod s).dem = s.dem := rfl
@[simp] theorem clearMod_env : (clearMod s).env = s.env := rfl

end Sys2Proof.Laws
end

