-- ==== Sys2Proof/Laws/Ops.lean ====
section
/-!
SUPPORT. One lemma per shared operation that says what it can do: writes to the sinks, the generator, the bit
pair, the decision of a period, the newline.
-/

namespace Sys2Proof.Laws

open Sys2Proof Sys2Proof.Machine

/-! ### Sinks -/

theorem nextAnswer_eq (l : List Answer) : nextAnswer l = (l.headD .ok, l.drop 1) := by
  cases l <;> rfl

/-- A write to `SMPSINK` appends the word if it is answered `ok`, and uses up one answer. -/
theorem sinkWriteSample_eq (v : SampleWord) (s : State) :
    sinkWriteSample v s = (s.env.smpAnswers.headD .ok,
      s.setEnv { s.env with
        smpAnswers := s.env.smpAnswers.drop 1
        smpSink := if s.env.smpAnswers.headD .ok = .ok then s.env.smpSink ++ [v] else s.env.smpSink }) := by
  unfold sinkWriteSample
  rw [nextAnswer_eq]
  cases s.env.smpAnswers.headD .ok <;> simp

/-- A write to `BITSINK` appends the character if it is answered `ok`, and uses up one answer. -/
theorem sinkWriteChar_eq (c : Char8) (s : State) :
    sinkWriteChar c s = (s.env.bitAnswers.headD .ok,
      s.setEnv { s.env with
        bitAnswers := s.env.bitAnswers.drop 1
        bitSink := if s.env.bitAnswers.headD .ok = .ok then s.env.bitSink ++ [c] else s.env.bitSink }) := by
  unfold sinkWriteChar
  rw [nextAnswer_eq]
  cases s.env.bitAnswers.headD .ok <;> simp

/-- `s` after the characters `cs` have been offered to `BITSINK` and used up `n` answers. -/
def charsSent (cs : List Char8) (n : Nat) (s : State) : State :=
  s.setEnv { s.env with bitAnswers := s.env.bitAnswers.drop n, bitSink := s.env.bitSink ++ cs }

theorem writeChar_ok {c : Char8} {s : State} (h : s.env.bitAnswers.headD .ok = .ok) :
    writeChar c s = .goOn (charsSent [c] 1 s) := by
  simp [writeChar, sinkWriteChar_eq, charsSent, -List.headD_eq_head?_getD, h]

theorem writeChar_fail {c : Char8} {s : State} (h : s.env.bitAnswers.headD .ok = .fail) :
    writeChar c s = .raised (raiseDemChannel (charsSent [] 1 s)) := by
  simp [writeChar, sinkWriteChar_eq, charsSent, -List.headD_eq_head?_getD, h]

/-! ### The generator -/

/-- The words `GEN(ss)` writes from time index `t` on. -/
def genWords (c : Config) (ss : Symbol) (t n : Nat) : List SampleWord :=
  (List.range n).map fun i => bitsW c.sampleBits (sampleValue c (t + i) ss)

theorem genWords_succ (c : Config) (ss : Symbol) (t n : Nat) :
    genWords c ss t (n + 1) = bitsW c.sampleBits (sampleValue c t ss) :: genWords c ss (t + 1) n := by
  simp only [genWords, List.range_succ_eq_map, List.map_cons, List.map_map, Nat.add_zero, List.cons.injEq, true_and]
  congr 1
  funext i
  simp only [Function.comp_apply]
  rw [show t + i.succ = t + 1 + i by omega]

@[simp] theorem genWords_length (c : Config) (ss : Symbol) (t n : Nat) : (genWords c ss t n).length = n := by
  simp [genWords]

/-- `s` after words have been appended to `SMPSINK`, time moved on by `n` and `k` answers used up. -/
def wordsSent (ws : List SampleWord) (n k : Nat) (s : State) : State :=
  (s.setMod { s.mod with t := s.mod.t + n }).setEnv
    { s.env with smpSink := s.env.smpSink ++ ws, smpAnswers := s.env.smpAnswers.drop k }

@[simp] theorem wordsSent_cfg (ws n k) (s : State) : (wordsSent ws n k s).cfg = s.cfg := rfl
@[simp] theorem wordsSent_dem (ws n k) (s : State) : (wordsSent ws n k s).dem = s.dem := rfl
@[simp] theorem wordsSent_mod (ws n k) (s : State) :
    (wordsSent ws n k s).mod = { s.mod with t := s.mod.t + n } := rfl
@[simp] theorem wordsSent_env (ws n k) (s : State) : (wordsSent ws n k s).env =
    { s.env with smpSink := s.env.smpSink ++ ws, smpAnswers := s.env.smpAnswers.drop k } := rfl

theorem wordsSent_zero (s : State) : wordsSent [] 0 0 s = s := by
  simp [wordsSent, State.setMod, State.setEnv]

theorem wordsSent_wordsSent (ws vs : List SampleWord) (n k m j : Nat) (s : State) :
    wordsSent vs m j (wordsSent ws n k s) = wordsSent (ws ++ vs) (n + m) (k + j) s := by
  simp [wordsSent, State.setMod, State.setEnv, Nat.add_assoc, List.drop_drop]

theorem genOne_ok {ss : Symbol} {s : State} (h : s.env.smpAnswers.headD .ok = .ok) :
    genOne ss s = .goOn (wordsSent [bitsW s.cfg.sampleBits (sampleValue s.cfg s.mod.t ss)] 1 1 s) := by
  simp [genOne, sinkWriteSample_eq, wordsSent, State.setMod, State.setEnv, -List.headD_eq_head?_getD, h]

theorem genOne_fail {ss : Symbol} {s : State} (h : s.env.smpAnswers.headD .ok = .fail) :
    genOne ss s = .raised (raiseMod (wordsSent [] 0 1 s)) := by
  simp [genOne, sinkWriteSample_eq, wordsSent, State.setMod, State.setEnv, -List.headD_eq_head?_getD, h]

/-- `GEN` writes everything when every write is answered `ok`. -/
theorem genLoop_ok (ss : Symbol) (n : Nat) (s : State) (h : ∀ a ∈ s.env.smpAnswers.take n, a = .ok) :
    genLoop ss n s = .goOn (wordsSent (genWords s.cfg ss s.mod.t n) n n s) := by
  induction n generalizing s with
  | zero => simp [genLoop, genWords, wordsSent_zero]
  | succ n ih =>
    have h0 : s.env.smpAnswers.headD .ok = .ok := by
      cases hl : s.env.smpAnswers with
      | nil => rfl
      | cons a l => exact h a (by simp [hl])
    rw [genLoop, genOne_ok h0, flowThen, ih, wordsSent_wordsSent]
    · simp [genWords_succ, Nat.add_comm]
    · intro a ha
      apply h
      simp only [wordsSent_env] at ha
      cases hl : s.env.smpAnswers with
      | nil => simp [hl] at ha
      | cons b l => simp [hl] at ha ⊢; exact .inr ha

/-- `GEN` stops at the first write answered `fail`. -/
theorem genLoop_fail (ss : Symbol) (n m : Nat) (s : State) (hm : m < n)
    (h : ∀ a ∈ s.env.smpAnswers.take m, a = .ok) (hf : s.env.smpAnswers[m]? = some .fail) :
    genLoop ss n s = .raised (raiseMod (wordsSent (genWords s.cfg ss s.mod.t m) m (m + 1) s)) := by
  induction n generalizing s m with
  | zero => omega
  | succ n ih =>
    cases m with
    | zero =>
      have h0 : s.env.smpAnswers.headD .ok = .fail := by
        cases hl : s.env.smpAnswers with
        | nil => simp [hl] at hf
        | cons a l => simpa [hl] using hf
      rw [genLoop, genOne_fail h0, flowThen]
      rfl
    | succ m =>
      have h0 : s.env.smpAnswers.headD .ok = .ok := by
        cases hl : s.env.smpAnswers with
        | nil => rfl
        | cons a l => exact h a (by simp [hl])
      rw [genLoop, genOne_ok h0, flowThen, ih m _ (by omega), wordsSent_wordsSent]
      · simp [genWords_succ, Nat.add_comm]
      · intro a ha
        apply h
        simp only [wordsSent_env] at ha
        cases hl : s.env.smpAnswers with
        | nil => simp [hl] at ha
        | cons b l => simp [hl] at ha ⊢; exact .inr ha
      · simp only [wordsSent_env]
        rw [List.getElem?_drop, Nat.add_comm]
        exact hf

/-- Either the next `n` answers are all `ok`, or one of them is the first `fail`. -/
theorem answers_cases (l : List Answer) (n : Nat) :
    (∀ a ∈ l.take n, a = .ok) ∨ ∃ m, m < n ∧ (∀ a ∈ l.take m, a = .ok) ∧ l[m]? = some .fail := by
  induction n generalizing l with
  | zero => simp
  | succ n ih =>
    cases l with
    | nil => simp
    | cons a l =>
      cases a with
      | fail => exact .inr ⟨0, by omega, by simp, rfl⟩
      | ok =>
        rcases ih l with h | ⟨m, hm, h, hf⟩
        · left
          intro a ha
          simp only [List.take_succ_cons, List.mem_cons] at ha
          rcases ha with rfl | ha
          · rfl
          · exact h a ha
        · refine .inr ⟨m + 1, by omega, ?_, by simpa using hf⟩
          intro a ha
          simp only [List.take_succ_cons, List.mem_cons] at ha
          rcases ha with rfl | ha
          · rfl
          · exact h a ha

/-- Everything `GEN`'s loop can do: it goes on with `n` words written, or it has failed after fewer. -/
theorem genLoop_cases (ss : Symbol) (n : Nat) (s : State) :
    genLoop ss n s = .goOn (wordsSent (genWords s.cfg ss s.mod.t n) n n s) ∨
    ∃ m, m < n ∧
      genLoop ss n s = .raised (raiseMod (wordsSent (genWords s.cfg ss s.mod.t m) m (m + 1) s)) := by
  rcases answers_cases s.env.smpAnswers n with h | ⟨m, hm, h, hf⟩
  · exact .inl (genLoop_ok ss n s h)
  · exact .inr ⟨m, hm, genLoop_fail ss n m s hm h hf⟩

/-- Everything `GEN` for a list of symbols can do: it goes on after `L` words for each symbol, or it has failed
after fewer. -/
theorem generateAll_cases (l : List Symbol) (s : State) :
    (∃ ws, ws.length = s.cfg.symbolLen * l.length ∧
      generateAll l s = .goOn (wordsSent ws ws.length ws.length s)) ∨
    ∃ ws : List SampleWord, ws.length < s.cfg.symbolLen * l.length ∧
      generateAll l s = .raised (raiseMod (wordsSent ws ws.length (ws.length + 1) s)) := by
  induction l generalizing s with
  | nil => exact .inl ⟨[], by simp, by simp [generateAll, wordsSent_zero]⟩
  | cons ss l ih =>
    rcases genLoop_cases ss s.cfg.symbolLen s with h | ⟨m, hm, h⟩
    · rcases ih (wordsSent (genWords s.cfg ss s.mod.t s.cfg.symbolLen) s.cfg.symbolLen s.cfg.symbolLen s) with
        ⟨ws, hl, hw⟩ | ⟨ws, hl, hw⟩
      · refine .inl ⟨genWords s.cfg ss s.mod.t s.cfg.symbolLen ++ ws, ?_, ?_⟩
        · simp only [wordsSent_cfg] at hl
          simp [hl, Nat.mul_add, Nat.add_comm]
        · rw [generateAll, generate, h, flowThen, hw, wordsSent_wordsSent]
          simp
      · refine .inr ⟨genWords s.cfg ss s.mod.t s.cfg.symbolLen ++ ws, ?_, ?_⟩
        · simp only [wordsSent_cfg] at hl
          simp only [List.length_append, genWords_length, List.length_cons, Nat.mul_succ]
          omega
        · rw [generateAll, generate, h, flowThen, hw, wordsSent_wordsSent]
          simp [Nat.add_assoc]
    · refine .inr ⟨genWords s.cfg ss s.mod.t m, ?_, ?_⟩
      · simp only [genWords_length, List.length_cons, Nat.mul_succ]
        omega
      · rw [generateAll, generate, h, flowThen, genWords_length]

/-- Everything a consumed bit can do: be held, or complete a pair and generate its symbol, whole or until a write
fails. -/
theorem consumeBit_cases (b : BitVec 1) (s : State) :
    let s1 := s.setMod { s.mod with held := false, bit := 0#1 }
    let ss := assembleSymbol s.mod.bit b
    (s.mod.held = false ∧ consumeBit b s = .goOn (s.setMod { s.mod with held := true, bit := b })) ∨
    (s.mod.held = true ∧ consumeBit b s =
      .goOn (wordsSent (genWords s.cfg ss s.mod.t s.cfg.symbolLen) s.cfg.symbolLen s.cfg.symbolLen s1)) ∨
    (s.mod.held = true ∧ ∃ m, m < s.cfg.symbolLen ∧
      consumeBit b s = .raised (raiseMod (wordsSent (genWords s.cfg ss s.mod.t m) m (m + 1) s1))) := by
  intro s1 ss
  cases h : s.mod.held with
  | false => exact .inl ⟨rfl, by simp [consumeBit, h]⟩
  | true =>
    right
    have e : consumeBit b s = genLoop ss s.cfg.symbolLen s1 := by
      simp only [consumeBit, h, if_true]; rfl
    rw [e]
    rcases genLoop_cases ss s.cfg.symbolLen s1 with hg | ⟨m, hm, hg⟩
    · exact .inl ⟨rfl, hg⟩
    · exact .inr ⟨rfl, m, hm, hg⟩

/-! ### The classifier's decision and the newline -/

/-- Everything `CLS.DECIDE` can do: write two characters and clear, or fail at the first or second write. -/
theorem decidePeriod_cases (s : State) :
    let best := winner s.dem.cnt
    (decidePeriod s = .goOn ((charsSent [firstChar best, secondChar best] 2 s).setDem
        { s.dem with cnt := zeroCounts, pos := 0 })) ∨
    decidePeriod s = .raised (raiseDemChannel (charsSent [] 1 s)) ∨
    decidePeriod s = .raised (raiseDemChannel (charsSent [firstChar best] 2 s)) := by
  intro best
  rcases h1 : s.env.bitAnswers.headD .ok with _ | _
  · rcases h2 : (charsSent [firstChar best] 1 s).env.bitAnswers.headD .ok with _ | _
    · left
      rw [decidePeriod, writeChar_ok h1, flowThen, writeChar_ok h2, flowThen]
      simp [charsSent, State.setEnv, State.setDem, best]
    · right; right
      rw [decidePeriod, writeChar_ok h1, flowThen, writeChar_fail h2, flowThen]
      simp [charsSent, State.setEnv, raiseDemChannel, raiseDem, State.setDem, best]
  · right; left
    rw [decidePeriod, writeChar_fail h1, flowThen]

/-- Everything the normal end of a demodulator run can do: the newline and `DONE`, or a failed write. -/
theorem finishDem_cases (s : State) :
    finishDem s = .goOn ((charsSent [newline] 1 s).setDem { s.dem with state := .done }) ∨
    finishDem s = .raised (raiseDemChannel (charsSent [] 1 s)) := by
  rcases h : s.env.bitAnswers.headD .ok with _ | _
  · left; rw [finishDem, writeChar_ok h, flowThen]; rfl
  · right; rw [finishDem, writeChar_fail h, flowThen]

end Sys2Proof.Laws
end

