-- ==== Sys2Proof/Laws/Words.lean ====
section
/-!
SUPPORT. The formats of spec/30_encoding.md: a sample and its word, the status field of an item.
-/

namespace Sys2Proof.Laws

open Sys2Proof Sys2Proof.Machine

theorem bitsW_lt (w : Nat) (x : Int) : bitsW w x < 2 ^ w :=
  (BitVec.ofInt w x).isLt

theorem sampleInRange_iff (w : Nat) (x : Int) :
    sampleInRange w x = true ↔ -(2 ^ (w - 1) : Nat) ≤ x ∧ x < (2 ^ (w - 1) : Nat) := by
  simp [sampleInRange]

/-- `sint_W(bits_W(x)) = x` for every integer a `W`-bit sample denotes. -/
theorem sintW_bitsW {w : Nat} {x : Int} (hw : 1 ≤ w) (hx : sampleInRange w x = true) :
    sintW w (bitsW w x) = x := by
  obtain ⟨h1, h2⟩ := (sampleInRange_iff w x).mp hx
  obtain ⟨v, rfl⟩ : ∃ v, w = v + 1 := ⟨w - 1, by omega⟩
  simp only [Nat.add_sub_cancel] at h1 h2
  unfold sintW bitsW
  rw [BitVec.ofNat_toNat, BitVec.setWidth_eq, BitVec.toInt_ofInt]
  have h3 : 2 ^ (v + 1) = 2 * 2 ^ v := by rw [Nat.pow_succ]; omega
  apply Int.bmod_eq_of_le <;> omega

/-- The word of a `DATA` sample is the sample's own word. -/
theorem sampleData_eq (w : Nat) (x : Int) : sampleData w x = bitsW w x := by
  simp [sampleData]

theorem pow_add_two (w : Nat) : 2 ^ (w + 2) = 4 * 2 ^ w := by
  rw [Nat.pow_add]; omega

/-- An item below `2^W` has status `DATA`. -/
theorem sampleStatus_data {w item : Nat} (h : item < 2 ^ w) : sampleStatus w item = 0b00#2 := by
  rw [sampleStatus, Nat.div_eq_of_lt h]

theorem sampleStatus_eos {w item : Nat} (h0 : 2 ^ w ≤ item) (h1 : item < 2 * 2 ^ w) :
    sampleStatus w item = 0b01#2 := by
  rw [sampleStatus, Nat.div_eq_of_lt_le (by omega) (by omega : item < (1 + 1) * 2 ^ w)]

theorem sampleStatus_fail {w item : Nat} (h0 : 2 * 2 ^ w ≤ item) (h1 : item < 4 * 2 ^ w) :
    (sampleStatus w item).getLsbD 1 = true := by
  rcases Nat.lt_or_ge item (3 * 2 ^ w) with h | h
  · rw [sampleStatus, Nat.div_eq_of_lt_le h0 (by omega : item < (2 + 1) * 2 ^ w)]; rfl
  · rw [sampleStatus, Nat.div_eq_of_lt_le h (by omega : item < (3 + 1) * 2 ^ w)]; rfl

section Decode

variable {w item : Nat} {d : DState}

/-- A failed read is `DEM.RDFAIL` in every fetching state. -/
theorem decodeSample_fail (h0 : 2 * 2 ^ w ≤ item) (h1 : item < 4 * 2 ^ w) (hd : demFetches d = true) :
    decodeSample w d item = .ok .demRdfail := by
  have h2 : ¬ 2 ^ (w + 2) ≤ item := by rw [pow_add_two]; omega
  simp [decodeSample, h2, hd, sampleStatus_fail h0 h1]

/-- The end of the stream is `CLS.EOS` in `CLS` and `SYNC.EOS` before. -/
theorem decodeSample_eos (h0 : 2 ^ w ≤ item) (h1 : item < 2 * 2 ^ w) (hd : demFetches d = true) :
    decodeSample w d item = .ok (if d = .cls then .clsEos else .syncEos) := by
  have h2 : ¬ 2 ^ (w + 2) ≤ item := by rw [pow_add_two]; omega
  simp only [decodeSample, h2, hd, sampleStatus_eos h0 h1]
  cases d <;> simp_all [demFetches]

/-- A sample is the operation of the state it is fetched in. -/
theorem decodeSample_data (h : item < 2 ^ w) :
    decodeSample w d item = match d with
      | .init => .ok (.syncInit (sintW w item))
      | .fz => .ok (.syncFz (sintW w item))
      | .fo => .ok (.syncFo (sintW w item))
      | .sz => .ok (.syncSz (sintW w item))
      | .so => .ok (.syncSo (sintW w item))
      | .cls => .ok (.clsSample (sintW w item))
      | .done => .error .unitHalted
      | .failed => .error .unitHalted := by
  have h2 : ¬ 2 ^ (w + 2) ≤ item := by rw [pow_add_two]; omega
  simp only [decodeSample, h2, sampleStatus_data h]
  cases d <;> simp [demFetches]

end Decode

end Sys2Proof.Laws
end

