-- ==== Sys2Proof/Laws/PerInstr.lean ====
section
/-!
SUPPORT. Decode and encode agree, operation by operation.
-/

namespace Sys2Proof.Laws.RoundTrip

open Sys2Proof Sys2Proof.Machine Sys2Proof.Laws

/-- Decoding the selector of an operation, in unit states that select it, gives the operation back. -/
def Statement (i : Instr) : Prop :=
  ∀ (w : Nat) (m : MState) (d : DState),
    1 ≤ w → i.wellFormed w = true → selectedIn m d i = true → decode w m d (encode w i) = .ok i

theorem modStart : Statement .modStart := fun _ _ _ _ _ _ => rfl

theorem modRdfail : Statement .modRdfail := fun _ m _ _ _ h => by
  cases m <;> simp_all [selectedIn, modFetches, decode, encode]; decide

theorem modEos : Statement .modEos := fun _ m _ _ _ h => by
  cases m <;> simp_all [selectedIn, modFetches, decode, encode]; decide

theorem modBit0 : Statement .modBit0 := fun _ m _ _ _ h => by
  cases m <;> simp_all [selectedIn, modFetches, decode, encode]; decide

theorem modBit1 : Statement .modBit1 := fun _ m _ _ _ h => by
  cases m <;> simp_all [selectedIn, modFetches, decode, encode]; decide

/-- The fields of a `DATA` character's item. -/
theorem bitData_status (ch : Char8) : (bitData ch).extractLsb' 8 2 = 0b00#2 := by
  revert ch; decide +kernel

theorem bitData_char (ch : Char8) : (bitData ch).extractLsb' 0 8 = ch := by
  revert ch; decide +kernel

theorem modStop (ch : Char8) : Statement (.modStop ch) := fun _ m _ _ hi h => by
  simp only [Instr.wellFormed, ne_eq, decide_eq_true_eq] at hi
  have hd : decodeBit (bitData ch) = .modStop ch := by
    simp [decodeBit, bitData_status, bitData_char, char0, char1, hi.1, hi.2]
  cases m <;> simp_all [selectedIn, modFetches, decode, encode]

theorem gen (ss : Symbol) : Statement (.gen ss) := fun _ _ _ _ _ _ => rfl

theorem demStart : Statement .demStart := fun _ _ _ _ _ _ => rfl

theorem demRdfail : Statement .demRdfail := fun w _ d _ _ h => by
  have hp : 0 < 2 ^ w := Nat.two_pow_pos w
  exact decodeSample_fail (by simp [sampleFail]) (by simp only [sampleFail]; omega) h

theorem syncEos : Statement .syncEos := fun w _ d _ _ h => by
  have hp : 0 < 2 ^ w := Nat.two_pow_pos w
  have hf : demFetches d = true := by cases d <;> simp_all [selectedIn, inSync, demFetches]
  have hc : d ≠ .cls := by rintro rfl; simp [selectedIn, inSync] at h
  simp only [decode, encode]
  rw [decodeSample_eos (by simp [sampleEos]) (by simp only [sampleEos]; omega) hf, if_neg hc]

theorem clsEos : Statement .clsEos := fun w _ d _ _ h => by
  have hp : 0 < 2 ^ w := Nat.two_pow_pos w
  have hc : d = .cls := by simpa [selectedIn] using h
  subst hc
  simp only [decode, encode]
  rw [decodeSample_eos (by simp [sampleEos]) (by simp only [sampleEos]; omega) rfl, if_pos rfl]

/-- The item of a `DATA` sample, and the integer read back from it. -/
theorem sampleData_spec {w : Nat} {x : Int} (hw : 1 ≤ w) (hx : sampleInRange w x = true) :
    sampleData w x < 2 ^ w ∧ sintW w (sampleData w x) = x := by
  rw [sampleData_eq]
  exact ⟨bitsW_lt w x, sintW_bitsW hw hx⟩

theorem syncInit (x : Int) : Statement (.syncInit x) := fun w _ d hw hi h => by
  have hd : d = .init := by simpa [selectedIn] using h
  obtain ⟨hlt, hval⟩ := sampleData_spec hw hi
  subst hd
  simp only [decode, encode]
  rw [decodeSample_data hlt, hval]

theorem syncFz (x : Int) : Statement (.syncFz x) := fun w _ d hw hi h => by
  have hd : d = .fz := by simpa [selectedIn] using h
  obtain ⟨hlt, hval⟩ := sampleData_spec hw hi
  subst hd
  simp only [decode, encode]
  rw [decodeSample_data hlt, hval]

theorem syncFo (x : Int) : Statement (.syncFo x) := fun w _ d hw hi h => by
  have hd : d = .fo := by simpa [selectedIn] using h
  obtain ⟨hlt, hval⟩ := sampleData_spec hw hi
  subst hd
  simp only [decode, encode]
  rw [decodeSample_data hlt, hval]

theorem syncSz (x : Int) : Statement (.syncSz x) := fun w _ d hw hi h => by
  have hd : d = .sz := by simpa [selectedIn] using h
  obtain ⟨hlt, hval⟩ := sampleData_spec hw hi
  subst hd
  simp only [decode, encode]
  rw [decodeSample_data hlt, hval]

theorem syncSo (x : Int) : Statement (.syncSo x) := fun w _ d hw hi h => by
  have hd : d = .so := by simpa [selectedIn] using h
  obtain ⟨hlt, hval⟩ := sampleData_spec hw hi
  subst hd
  simp only [decode, encode]
  rw [decodeSample_data hlt, hval]

theorem clsSample (x : Int) : Statement (.clsSample x) := fun w _ d hw hi h => by
  have hd : d = .cls := by simpa [selectedIn] using h
  obtain ⟨hlt, hval⟩ := sampleData_spec hw hi
  subst hd
  simp only [decode, encode]
  rw [decodeSample_data hlt, hval]

theorem clsDecide : Statement .clsDecide := fun _ _ _ _ _ _ => rfl

end Sys2Proof.Laws.RoundTrip
end

