-- ==== Sys2Proof/Laws/Step.lean ====
section
/-!
SUPPORT. What a step can do, said once: the turns it may take, the operations a unit's turn may run, and what the
operations of one unit leave alone.
-/

namespace Sys2Proof.Laws

open Sys2Proof Sys2Proof.Machine

/-! ### Which turn is taken -/

@[simp] theorem dropTurn_cfg (r : List Turn) (s : State) : (dropTurn r s).cfg = s.cfg := rfl
@[simp] theorem dropTurn_mod (r : List Turn) (s : State) : (dropTurn r s).mod = s.mod := rfl
@[simp] theorem dropTurn_dem (r : List Turn) (s : State) : (dropTurn r s).dem = s.dem := rfl
@[simp] theorem dropTurn_env (r : List Turn) (s : State) : (dropTurn r s).env = { s.env with turns := r } := rfl

theorem step_nil {s : State} (h : s.env.turns = []) : step s = .next s := by
  simp [step, nextMoment, h]

theorem step_cons {s : State} {turn : Turn} {rest : List Turn} (h : s.env.turns = turn :: rest) :
    step s = takeTurn turn (dropTurn rest s) := by
  simp [step, nextMoment, h]

/-- A step that answers a next state had no turn to take, or it reset, or it took one unit's turn. -/
theorem step_cases {s t : State} (h : step s = .next t) :
    (s.env.turns = [] ∧ t = s) ∨
    ∃ rest, (s.env.turns = .reset :: rest ∧ t = resetUnits (dropTurn rest s)) ∨
      ∃ start, (s.env.turns = .mod start :: rest ∧ modTurn start (dropTurn rest s) = .next t) ∨
        (s.env.turns = .dem start :: rest ∧ demTurn start (dropTurn rest s) = .next t) := by
  cases hs : s.env.turns with
  | nil => rw [step_nil hs] at h; cases h; exact .inl ⟨rfl, rfl⟩
  | cons turn rest =>
    rw [step_cons hs] at h
    refine .inr ⟨rest, ?_⟩
    cases turn with
    | reset => cases h; exact .inl ⟨rfl, rfl⟩
    | mod start => exact .inr ⟨start, .inl ⟨rfl, h⟩⟩
    | dem start => exact .inr ⟨start, .inr ⟨rfl, h⟩⟩

theorem guarded_next {wf : Bool} {r : Result} {t : State} (h : guarded wf r = .next t) :
    wf = true ∧ r = .next t := by
  cases wf <;> simp_all [guarded]

/-! ### What a turn of `MOD` runs -/

/-- The operations a `BI` item can select (R83). -/
inductive BitOp : Instr → Prop where
  | rdfail : BitOp .modRdfail
  | eos : BitOp .modEos
  | bit0 : BitOp .modBit0
  | bit1 : BitOp .modBit1
  | stop (ch : Char8) : BitOp (.modStop ch)

theorem decodeBit_bitOp (item : BitItem) : BitOp (decodeBit item) := by
  unfold decodeBit
  dsimp only
  split
  · exact .rdfail
  · split
    · exact .eos
    · split
      · exact .bit0
      · split
        · exact .bit1
        · exact .stop _

/-- A turn of `MOD` that answers a next state starts a run, does nothing, or runs the operation of the item it
fetched in `RUN`. -/
theorem modTurn_cases {start : Bool} {s t : State} (h : modTurn start s = .next t) :
    (start = true ∧ s.cfg.wellFormedMod = true ∧ exec .modStart s = .next t) ∨
    (start = false ∧ t = s) ∨
    (start = false ∧ s.cfg.wellFormedMod = true ∧ s.mod.state = .run ∧ ∃ item rest, s.env.bitSrc = item :: rest ∧
      BitOp (decodeBit item) ∧ exec (decodeBit item) (s.setEnv { s.env with bitSrc := rest }) = .next t) := by
  unfold modTurn at h
  cases start with
  | true => obtain ⟨h1, h2⟩ := guarded_next h; exact .inl ⟨rfl, h1, h2⟩
  | false =>
    simp only [Bool.false_eq_true, if_false] at h
    cases hf : modFetches s.mod.state with
    | false => rw [hf] at h; cases h; exact .inr (.inl ⟨rfl, rfl⟩)
    | true =>
      have hrun : s.mod.state = .run := by cases hm : s.mod.state <;> simp_all [modFetches]
      rw [hf] at h
      simp only [srcReadBit] at h
      cases hb : s.env.bitSrc with
      | nil => rw [hb] at h; cases h; exact .inr (.inl ⟨rfl, rfl⟩)
      | cons item rest =>
        rw [hb] at h
        obtain ⟨h1, h2⟩ := guarded_next h
        simp only [decode, hf, if_true, runDecoded] at h2
        exact .inr (.inr ⟨rfl, h1, hrun, item, rest, rfl, decodeBit_bitOp item, h2⟩)

/-- What the operations of `MOD` may change: its own registers, and words appended to `SMPSINK` with answers used
up. -/
structure ModFrame (s t : State) (ws : List SampleWord) (k : Nat) : Prop where
  cfg : t.cfg = s.cfg
  dem : t.dem = s.dem
  env : t.env = { s.env with smpSink := s.env.smpSink ++ ws, smpAnswers := s.env.smpAnswers.drop k }

theorem modFrame_sent (ws : List SampleWord) (n k : Nat) (s : State) (m : ModRegs) :
    ModFrame s ((wordsSent ws n k s).setMod m) ws k := ⟨rfl, rfl, rfl⟩

/-- `MOD.START` enters `RUN` after `4·L` samples, or fails after fewer. -/
theorem execModStart_cases (s : State) :
    (∃ ws, ws.length = s.cfg.symbolLen * 4 ∧
      exec .modStart s = .next ((wordsSent ws ws.length ws.length (clearMod s)).setMod
        { state := .run, t := ws.length, held := false, bit := 0#1, cause := .none })) ∨
    ∃ ws : List SampleWord, ws.length < s.cfg.symbolLen * 4 ∧
      exec .modStart s = .next ((wordsSent ws ws.length (ws.length + 1) (clearMod s)).setMod
        { state := .failed, t := ws.length, held := false, bit := 0#1, cause := .channel }) := by
  have hp : preamble.length = 4 := rfl
  rcases generateAll_cases preamble (clearMod s) with ⟨ws, hl, h⟩ | ⟨ws, hl, h⟩
  · refine .inl ⟨ws, by simpa [hp] using hl, ?_⟩
    simp [exec, execModStart, h, flowThen, flowResult]
  · refine .inr ⟨ws, by simpa [hp] using hl, ?_⟩
    simp [exec, execModStart, h, flowThen, flowResult, raiseMod]

/-- What the operation of a fetched bit item does, in any state. -/
theorem execBitOp_cases {i : Instr} (hi : BitOp i) (s : State) :
    exec i s = .next (s.setMod { s.mod with state := .failed, cause := .channel }) ∨
    exec i s = .next (s.setMod { s.mod with state := .done }) ∨
    (s.mod.held = false ∧ ∃ b, exec i s = .next (s.setMod { s.mod with held := true, bit := b })) ∨
    (s.mod.held = true ∧ ∃ ws, ws.length = s.cfg.symbolLen ∧
      exec i s = .next ((wordsSent ws ws.length ws.length s).setMod
        { s.mod with t := s.mod.t + ws.length, held := false, bit := 0#1 })) ∨
    (s.mod.held = true ∧ ∃ ws : List SampleWord, ws.length < s.cfg.symbolLen ∧
      exec i s = .next ((wordsSent ws ws.length (ws.length + 1) s).setMod
        { state := .failed, t := s.mod.t + ws.length, held := false, bit := 0#1, cause := .channel })) := by
  have hbit : ∀ b : BitVec 1, (s.mod.held = false ∧
        flowResult (consumeBit b s) = .next (s.setMod { s.mod with held := true, bit := b })) ∨
      (s.mod.held = true ∧ ∃ ws, ws.length = s.cfg.symbolLen ∧
        flowResult (consumeBit b s) = .next ((wordsSent ws ws.length ws.length s).setMod
          { s.mod with t := s.mod.t + ws.length, held := false, bit := 0#1 })) ∨
      (s.mod.held = true ∧ ∃ ws : List SampleWord, ws.length < s.cfg.symbolLen ∧
        flowResult (consumeBit b s) = .next ((wordsSent ws ws.length (ws.length + 1) s).setMod
          { state := .failed, t := s.mod.t + ws.length, held := false, bit := 0#1, cause := .channel })) := by
    intro b
    rcases consumeBit_cases b s with ⟨h0, h⟩ | ⟨h0, h⟩ | ⟨h0, m, hm, h⟩
    · exact .inl ⟨h0, by rw [h]; rfl⟩
    · refine .inr (.inl ⟨h0, _, genWords_length s.cfg (assembleSymbol s.mod.bit b) s.mod.t s.cfg.symbolLen, ?_⟩)
      rw [h, genWords_length]; rfl
    · refine .inr (.inr ⟨h0, genWords s.cfg (assembleSymbol s.mod.bit b) s.mod.t m, by rw [genWords_length]; exact hm, ?_⟩)
      rw [h, genWords_length]; rfl
  cases hi with
  | rdfail => exact .inl rfl
  | eos => exact .inr (.inl rfl)
  | stop ch => exact .inr (.inl rfl)
  | bit0 =>
    rcases hbit 0#1 with ⟨h0, h⟩ | ⟨h0, h⟩ | ⟨h0, h⟩
    · exact .inr (.inr (.inl ⟨h0, _, h⟩))
    · exact .inr (.inr (.inr (.inl ⟨h0, h⟩)))
    · exact .inr (.inr (.inr (.inr ⟨h0, h⟩)))
  | bit1 =>
    rcases hbit 1#1 with ⟨h0, h⟩ | ⟨h0, h⟩ | ⟨h0, h⟩
    · exact .inr (.inr (.inl ⟨h0, _, h⟩))
    · exact .inr (.inr (.inr (.inl ⟨h0, h⟩)))
    · exact .inr (.inr (.inr (.inr ⟨h0, h⟩)))

/-! ### What a turn of `DEM` runs -/

/-- The operations an `SI` item can select in a given `D_STATE` (R84). -/
inductive SampleOp : DState → Instr → Prop where
  | rdfail {d : DState} (h : demFetches d = true) : SampleOp d .demRdfail
  | syncEos {d : DState} (h : inSync d = true) : SampleOp d .syncEos
  | clsEos : SampleOp .cls .clsEos
  | init (x : Int) : SampleOp .init (.syncInit x)
  | fz (x : Int) : SampleOp .fz (.syncFz x)
  | fo (x : Int) : SampleOp .fo (.syncFo x)
  | sz (x : Int) : SampleOp .sz (.syncSz x)
  | so (x : Int) : SampleOp .so (.syncSo x)
  | cls (x : Int) : SampleOp .cls (.clsSample x)

/-- An item with more than `W + 2` bits is rejected by name. -/
theorem decodeSample_overwide {w item : Nat} {d : DState} (h : 4 * 2 ^ w ≤ item) :
    decodeSample w d item = .error .notAnItem := by
  unfold decodeSample
  exact if_pos (by rw [pow_add_two]; exact h)

theorem decodeSample_sampleOp {w item : Nat} {d : DState} {i : Instr} (h : decodeSample w d item = .ok i) :
    SampleOp d i := by
  cases hf : demFetches d with
  | false => simp only [decodeSample, hf] at h; split at h <;> simp at h
  | true =>
    rcases Nat.lt_or_ge item (4 * 2 ^ w) with h4 | h4
    · rcases Nat.lt_or_ge item (2 * 2 ^ w) with h2 | h2
      · rcases Nat.lt_or_ge item (2 ^ w) with h1 | h1
        · rw [decodeSample_data h1] at h
          cases d <;> simp only [reduceCtorEq] at h <;> cases h <;> constructor
        · rw [decodeSample_eos h1 h2 hf] at h
          cases h
          cases d <;> first | exact .clsEos | (simp [demFetches] at hf; done) | exact .syncEos rfl
      · rw [decodeSample_fail h2 h4 hf] at h
        cases h; exact .rdfail hf
    · rw [decodeSample_overwide h4] at h; cases h

theorem decodeSample_not_halted {w item : Nat} {d : DState} (hd : demFetches d = true) :
    decodeSample w d item ≠ .error .unitHalted := by
  intro h
  rcases Nat.lt_or_ge item (4 * 2 ^ w) with h4 | h4
  · rcases Nat.lt_or_ge item (2 * 2 ^ w) with h2 | h2
    · rcases Nat.lt_or_ge item (2 ^ w) with h1 | h1
      · rw [decodeSample_data h1] at h
        cases d <;> simp_all [demFetches]
      · rw [decodeSample_eos h1 h2 hd] at h; cases h
    · rw [decodeSample_fail h2 h4 hd] at h; cases h
  · rw [decodeSample_overwide h4] at h; cases h

/-- `CLS.SAMPLE` with the end of the period read off the registers before the step. -/
theorem execClsSample_eq (x : Int) (s : State) : exec (.clsSample x) s =
    if s.dem.pos + 1 = s.dem.symlen then flowResult (decidePeriod (scoreSample x s)) else .next (scoreSample x s) := rfl

/-- A turn of `DEM` that answers a next state starts a run, does nothing, or runs the operation of the item it
fetched. -/
theorem demTurn_cases {start : Bool} {s t : State} (h : demTurn start s = .next t) :
    (start = true ∧ s.cfg.wellFormed = true ∧ t = s.setDem .reset) ∨
    (start = false ∧ t = s) ∨
    (start = false ∧ s.cfg.wellFormed = true ∧ demFetches s.dem.state = true ∧ ∃ item rest i,
      s.env.smpSrc = item :: rest ∧ SampleOp s.dem.state i ∧
        exec i (s.setEnv { s.env with smpSrc := rest }) = .next t) := by
  unfold demTurn at h
  cases start with
  | true =>
    obtain ⟨h1, h2⟩ := guarded_next h
    cases h2
    exact .inl ⟨rfl, h1, rfl⟩
  | false =>
    simp only [Bool.false_eq_true, if_false] at h
    cases hf : demFetches s.dem.state with
    | false => rw [hf] at h; cases h; exact .inr (.inl ⟨rfl, rfl⟩)
    | true =>
      rw [hf] at h
      simp only [srcReadSample] at h
      cases hb : s.env.smpSrc with
      | nil => rw [hb] at h; cases h; exact .inr (.inl ⟨rfl, rfl⟩)
      | cons item rest =>
        rw [hb] at h
        obtain ⟨h1, h2⟩ := guarded_next h
        simp only [decode] at h2
        cases hd : decodeSample s.cfg.sampleBits s.dem.state item with
        | ok i =>
          rw [hd] at h2
          exact .inr (.inr ⟨rfl, h1, rfl, item, rest, i, rfl, decodeSample_sampleOp hd, h2⟩)
        | error r =>
          rw [hd] at h2
          cases r with
          | notAnItem => simp [runDecoded] at h2
          | unitHalted => exact absurd hd (decodeSample_not_halted hf)

end Sys2Proof.Laws
end

