-- ==== Sys2Proof/Tests/Slice0.lean ====
section
/-!
SUPPORT. Tests. Expected values come from spec/95_test_vectors.md and spec/30_encoding.md, by the vector's name,
never from the model. The second half shows, for every statement with hypotheses, that they can be met.
-/

namespace Sys2Proof.Tests

open Sys2Proof Sys2Proof.Machine Sys2Proof.Safety Sys2Proof.Laws

/-! ### Helpers -/

/-- What a next state shows; nothing for a fault or a refusal. -/
def look {α : Type} (f : State → α) : Result → Option α
  | .next s => some (f s)
  | .fault _ => none
  | .refused _ => none

/-- The reference configuration with another symbol length. -/
def cfgL (l : Nat) : Config :=
  { Config.reference with symbolLen := l }

/-- The configuration of spec/70_reset_and_hazards.md R231. -/
def cfg8000 : Config :=
  { Config.reference with sampleRate := 8000, symlenMax := 16 }

/-- The reset state under a configuration. -/
def at_ (c : Config) : State :=
  { State.reset with cfg := c }

/-- `MOD` running at a time index, with or without a held bit. -/
def running (l t : Nat) (held : Bool) (bit : BitVec 1) : State :=
  (at_ (cfgL l)).setMod { state := .run, t := t, held := held, bit := bit, cause := .none }

/-- `DEM` in a state, with its counters. -/
def dem (d : DState) (t symlen rem pos : Nat) (cnt : Counts) : State :=
  (at_ (cfgL 2)).setDem
    { state := d, t := t, symlen := symlen, rem := rem, cnt := cnt, pos := pos, cause := .none, fstate := .init }

/-- Answers waiting at both sinks. -/
def answering (l : List Answer) (s : State) : State :=
  s.setEnv { s.env with smpAnswers := l, bitAnswers := l }

/-- A schedule. -/
def scheduled (l : List Turn) (s : State) : State :=
  s.setEnv { s.env with turns := l }

/-- One item ready on each source. -/
def offering (b : BitItem) (x : SampleItem) (s : State) : State :=
  s.setEnv { s.env with bitSrc := [b], smpSrc := [x] }

/-- `D_STATE`, `D_T`, `D_SYMLEN`, `D_REM`. -/
def counters (s : State) : DState × Nat × Nat × Nat :=
  (s.dem.state, s.dem.t, s.dem.symlen, s.dem.rem)

/-! ### WellFormed refuses what is no operation -/

theorem test_wellFormed_stop0 : (Instr.modStop 0x30#8).wellFormed 32 = false := by decide
theorem test_wellFormed_stop1 : (Instr.modStop 0x31#8).wellFormed 32 = false := by decide
theorem test_wellFormed_syncInit : (Instr.syncInit 2147483648).wellFormed 32 = false := by decide
theorem test_wellFormed_syncFz : (Instr.syncFz (-2147483649)).wellFormed 32 = false := by decide
theorem test_wellFormed_syncFo : (Instr.syncFo 2147483648).wellFormed 32 = false := by decide
theorem test_wellFormed_syncSz : (Instr.syncSz (-2147483649)).wellFormed 32 = false := by decide
theorem test_wellFormed_syncSo : (Instr.syncSo 2147483648).wellFormed 32 = false := by decide
theorem test_wellFormed_clsSample : (Instr.clsSample (-2147483649)).wellFormed 32 = false := by decide
theorem test_wellFormed_edges :
    (Instr.clsSample (-2147483648)).wellFormed 32 = true ∧ (Instr.clsSample 2147483647).wellFormed 32 = true := by
  decide
theorem test_config_amplitude : { Config.reference with amplitude := 0x80000000 }.wellFormed = false := by decide
theorem test_config_length : (cfgL 37).wellFormedMod = false ∧ (cfgL 0).wellFormedMod = false := by decide
theorem test_config_reference : Config.reference.wellFormedMod = true ∧ cfg8000.wellFormed = true := by decide

/-! ### Decoding, bits as spec/30_encoding.md R70, R71, R83, R84 lay them out -/

theorem test_decode_modBit0 : decodeTableWord 16 0b0000110000 = some .modBit0 := by decide
theorem test_decode_modBit1 : decodeTableWord 16 0b0000110001 = some .modBit1 := by decide
theorem test_decode_modStop : decodeTableWord 16 0b0001111000 = some (.modStop 0x78#8) := by decide
theorem test_decode_modEos : decodeTableWord 16 0b0110110110 = some .modEos := by decide
theorem test_decode_modRdfail : decodeTableWord 16 0b1100110001 = some .modRdfail := by decide
theorem test_decode_gen : decodeTableWord 8 0b10 = some (.gen 0b10#2) := by decide
theorem test_decode_modStart : decode 32 .failed .cls (.strobe .modStart) = .ok .modStart := by rfl
theorem test_decode_demStart : decode 32 .run .failed (.strobe .demStart) = .ok .demStart := by rfl
theorem test_decode_clsDecide : decode 32 .run .cls .invokeDecide = .ok .clsDecide := by rfl
theorem test_decode_demRdfail : decode 32 .run .so (.sampleItem 0b1100000000000000000000000000000101) = .ok .demRdfail := by
  decide
theorem test_decode_syncEos : decode 32 .run .fz (.sampleItem 0b0111111111111111111111111111111111) = .ok .syncEos := by
  decide
theorem test_decode_clsEos : decode 32 .run .cls (.sampleItem 0b0100000000000000000000000000000000) = .ok .clsEos := by
  decide
theorem test_decode_syncInit :
    decode 32 .run .init (.sampleItem 0b0001011001110011010111010010100111) = .ok (.syncInit 1506636967) := by decide
theorem test_decode_syncFz :
    decode 32 .run .fz (.sampleItem 0b0011110100111011100110010001111010) = .ok (.syncFz (-185703302)) := by decide
theorem test_decode_syncFo :
    decode 32 .run .fo (.sampleItem 0b0000100000110111101011100110001100) = .ok (.syncFo 551467404) := by decide
theorem test_decode_syncSz :
    decode 32 .run .sz (.sampleItem 0b0010010111111101111011101010001110) = .ok (.syncSz (-1745372530)) := by decide
theorem test_decode_syncSo :
    decode 32 .run .so (.sampleItem 0b0001111110100001000100100000110011) = .ok (.syncSo 2122598451) := by decide
theorem test_decode_clsSample :
    decode 32 .run .cls (.sampleItem 0b0010000000000000000000000000000000) = .ok (.clsSample (-2147483648)) := by decide
theorem test_decode_halted :
    decode 32 .done .failed (.bitItem 0x030#10) = .error .unitHalted ∧
      decode 32 .done .failed (.sampleItem 0) = .error .unitHalted := by decide
theorem test_decode_overwide : decode 32 .run .init (.sampleItem 0x400000000) = .error .notAnItem := by decide

/-! ### The numbers -/

/-- V40-2, the row `t = 8`. -/
theorem test_index : [0#2, 1#2, 2#2, 3#2].map (carrierJ .reference 8) = [41, 23, 59, 5] := by decide

/-- V40-3, `t = 3`, `k = 1`, and V40's corner values `COSQ[12] = A/2`, `COSQ[18] = 0`, `COSQ[36] = -A`. -/
theorem test_samples :
    sampleValue .reference 3 1#2 = 2058104371 ∧ cosq .reference 12 = 1065353216 ∧ cosq .reference 18 = 0 ∧
      cosq .reference 36 = -2130706432 := by decide +kernel

/-- V40-4, the boundaries of `MATCH(0, 0, x)`. -/
theorem test_match_boundaries :
    [1293566323, 1293566324, 1719707609, 1719707610].map (phaseMatch .reference 0 0#2) =
      [false, true, true, false] := by decide +kernel

/-- V40-5, a generated sample that matches two candidates. -/
theorem test_match_double :
    [0#2, 1#2, 2#2, 3#2].map (fun k => phaseMatch .reference 9 k (-1506636967)) = [true, true, false, false] := by
  decide +kernel

/-- V40-6, a sample larger than the amplitude. -/
theorem test_match_extreme :
    phaseMatch .reference 124 0#2 2147483647 = true ∧ phaseMatch .reference 124 3#2 (-2147483648) = true := by
  decide +kernel

/-! ### One step of each operation -/

/-- P4: `PREAMBLE(1)`. -/
theorem test_modStart :
    look (fun s => (s.mod.state, s.mod.t, s.env.smpSink)) (exec .modStart (at_ (cfgL 1))) =
      some (.run, 4, [0x59CD74A7, 0xCA53D5C7, 0x0B119B86, 0x20DEB98C]) := by decide +kernel

/-- V41-8, with `L = 1`: the fourth write fails. -/
theorem test_modStart_sinkfail :
    look (fun s => (modStatus s, s.mod.t, s.env.smpSink.length))
      (exec .modStart (answering [.ok, .ok, .ok, .fail] (at_ (cfgL 1)))) = some (0x23#8, 3, 3) := by decide +kernel

/-- V41-9. -/
theorem test_modRdfail :
    look (fun s => (modStatus s, s.mod.t)) (exec .modRdfail (running 2 8 true 0#1)) = some (0x27#8, 8) := by decide

/-- V41-4. -/
theorem test_modEos : look modStatus (exec .modEos (running 2 10 true 1#1)) = some 0x0E#8 := by decide

/-- P1, step 1. -/
theorem test_modBit0_first :
    look (fun s => (s.mod.held, s.mod.bit, s.mod.t)) (exec .modBit0 (running 2 8 false 0#1)) =
      some (true, 0#1, 8) := by decide

/-- P1, step 4. -/
theorem test_modBit0_second :
    look (fun s => (s.mod.held, s.mod.t, s.env.smpSink)) (exec .modBit0 (running 2 10 true 1#1)) =
      some (false, 12, [0x7319E0F7, 0x7E844833]) := by decide +kernel

/-- P1, step 2. -/
theorem test_modBit1_second :
    look (fun s => (s.mod.held, s.mod.t, s.env.smpSink)) (exec .modBit1 (running 2 8 true 0#1)) =
      some (false, 10, [0xCA53D5C7, 0xA6328B59]) := by decide +kernel

/-- V41-10: the pair is cleared before the samples are written. -/
theorem test_modBit1_sinkfail :
    look (fun s => (modStatus s, s.mod.t, s.env.smpSink))
      (exec .modBit1 (answering [.ok, .fail] (running 2 8 true 0#1))) = some (0x23#8, 9, [0xCA53D5C7]) := by
  decide +kernel

/-- V41-6. -/
theorem test_modStop : look modStatus (exec (.modStop 0x78#8) (running 2 8 true 0#1)) = some 0x06#8 := by decide

/-- V41-7, symbol 3 at `t = 8`. -/
theorem test_gen :
    look (fun s => (s.mod.t, s.env.smpSink)) (exec (.gen 3#2) (running 2 8 false 0#1)) =
      some (10, [0x7319E0F7, 0x59CD74A7]) := by decide +kernel

/-- R140: a new run after a failed one. -/
theorem test_demStart :
    look (fun s => (demStatus s, counters s)) (exec .demStart (raiseDem .sync .sz (dem .sz 4 2 2 0 zeroCounts))) =
      some (0x00#8, .init, 0, 0, 0) := by decide

/-- V42-9. -/
theorem test_demRdfail :
    look (fun s => (demStatus s, counters s)) (exec .demRdfail (dem .fo 3 2 1 0 zeroCounts)) =
      some (0x57#8, .failed, 3, 2, 1) := by decide

/-- V42-8, the row `n = 7`. -/
theorem test_syncEos_fail :
    look (fun s => (demStatus s, s.env.bitSink)) (exec .syncEos (dem .so 7 2 1 0 zeroCounts)) =
      some (0x9F#8, []) := by decide

/-- V42-8 under `NORMAL`. -/
theorem test_syncEos_normal :
    look (fun s => (counters s, s.env.bitSink))
      (exec .syncEos { dem .so 7 2 1 0 zeroCounts with cfg := { cfgL 2 with eosInSync := .normal } }) =
      some ((.done, 7, 2, 1), [0x0A#8]) := by decide

/-- V43-6: the partial period is kept. -/
theorem test_clsEos :
    look (fun s => (demStatus s, s.dem.pos, s.dem.cnt, s.env.bitSink))
      (exec .clsEos (dem .cls 137 30 0 17 { c0 := 17, c1 := 2, c2 := 0, c3 := 0 })) =
      some (0x06#8, 17, { c0 := 17, c1 := 2, c2 := 0, c3 := 0 }, [0x0A#8]) := by decide

/-- V43-10. -/
theorem test_clsEos_sinkfail :
    look (fun s => (demStatus s, s.env.bitSink))
      (exec .clsEos (answering [.fail] (dem .cls 12 2 0 0 zeroCounts))) = some (0xB7#8, []) := by decide

/-- V42-6, accepted. -/
theorem test_syncInit_accepts :
    look counters (exec (.syncInit 1293566324) (dem .init 0 0 0 0 zeroCounts)) = some (.fz, 1, 1, 0) := by
  decide +kernel

/-- V42-6, rejected. -/
theorem test_syncInit_rejects :
    look (fun s => (demStatus s, counters s)) (exec (.syncInit 1293566323) (dem .init 0 0 0 0 zeroCounts)) =
      some (0x0F#8, .failed, 0, 0, 0) := by decide +kernel

/-- R231, the sample at `t = 5` that matches both preamble phases. -/
theorem test_syncFz_zero_first :
    look counters (exec (.syncFz 0) { dem .fz 5 5 0 0 zeroCounts with cfg := cfg8000 }) = some (.fz, 6, 6, 0) := by
  decide +kernel

/-- V42-3, `t = 3`. -/
theorem test_syncFz_ends :
    look counters (exec (.syncFz 551467404) (dem .fz 3 3 0 0 zeroCounts)) = some (.fo, 4, 3, 2) := by decide +kernel

/-- V42-1, `t = 2`. -/
theorem test_syncFo_redispatch :
    look counters (exec (.syncFo 185703302) (dem .fo 2 1 0 0 zeroCounts)) = some (.sz, 3, 1, 0) := by decide +kernel

/-- P3, `t = 4`: the reload stays. -/
theorem test_syncFo_fails_in_sz :
    look (fun s => (demStatus s, counters s)) (exec (.syncFo 0) (dem .fo 4 2 0 0 zeroCounts)) =
      some (0x6F#8, .failed, 4, 2, 2) := by decide +kernel

/-- V42-1, `t = 3`. -/
theorem test_syncSz_completes :
    look counters (exec (.syncSz 551467404) (dem .sz 3 1 0 0 zeroCounts)) = some (.cls, 4, 1, 0) := by decide +kernel

/-- V42-7, sample 6. -/
theorem test_syncSz_fails_in_so :
    look (fun s => (s.dem.fstate, counters s)) (exec (.syncSz 0) (dem .sz 6 2 0 0 zeroCounts)) =
      some (.so, .failed, 6, 2, 2) := by decide +kernel

/-- P2, `t = 7`. -/
theorem test_syncSo_completes :
    look counters (exec (.syncSo 2122598451) (dem .so 7 2 1 0 zeroCounts)) = some (.cls, 8, 2, 0) := by decide +kernel

/-- V42-7, sample 7. -/
theorem test_syncSo_fails :
    look (fun s => (s.dem.fstate, counters s)) (exec (.syncSo 0) (dem .so 7 2 1 0 zeroCounts)) =
      some (.so, .failed, 7, 2, 1) := by decide +kernel

/-- P2, `t = 9`. -/
theorem test_clsSample_decides :
    look (fun s => (s.env.bitSink, s.dem.t, s.dem.pos, s.dem.cnt))
      (exec (.clsSample (-1506636967)) (dem .cls 9 2 0 1 { c0 := 0, c1 := 1, c2 := 0, c3 := 0 })) =
      some ([0x30#8, 0x31#8], 10, 0, { c0 := 0, c1 := 0, c2 := 0, c3 := 0 }) := by decide +kernel

/-- V43-8: the second character fails. -/
theorem test_clsSample_sinkfail :
    look (fun s => (demStatus s, s.env.bitSink, s.dem.t, s.dem.pos, s.dem.cnt))
      (exec (.clsSample (-1506636967))
        (answering [.ok, .fail] (dem .cls 9 2 0 1 { c0 := 0, c1 := 1, c2 := 0, c3 := 0 }))) =
      some (0xB7#8, [0x30#8], 10, 2, { c0 := 1, c1 := 2, c2 := 0, c3 := 0 }) := by decide +kernel

/-- V43-4: candidates 2 and 3 tie. -/
theorem test_clsDecide :
    look (fun s => (s.env.bitSink, s.dem.pos))
      (exec .clsDecide (dem .cls 150 30 0 30 { c0 := 2, c1 := 3, c2 := 4, c3 := 4 })) = some ([0x31#8, 0x30#8], 0) := by
  decide

/-- V43-2: all four tie. -/
theorem test_clsDecide_tie :
    look (fun s => s.env.bitSink) (exec .clsDecide (dem .cls 150 30 0 30 { c0 := 3, c1 := 3, c2 := 3, c3 := 3 })) =
      some [0x30#8, 0x30#8] := by decide

/-- V41-11: an item offered to an idle `MOD` stays where it is. -/
theorem test_idle_reads_nothing :
    look (fun s => (modStatus s, s.env.bitSrc))
      (step (scheduled [.mod false] (offering 0x030#10 0 (at_ .reference)))) = some (0x00#8, [0x030#10]) := by decide

/-- The placed bits run at the next step: `BI` and `SI` items, and `GEN` through the bit pair that invokes it. -/
theorem test_withFetchWord :
    look (fun s => s.mod.held) (step (State.reset.withFetchWord 16 0x031)) = some true ∧
      look counters (step (State.reset.withFetchWord 40 0x059CD74A7)) = some (.fz, 1, 1, 0) ∧
      look (fun s => s.env.smpSink) (step ((at_ (cfgL 1)).withFetchWord 8 2)) = some [0xA6328B59] := by decide +kernel

/-! ### The hypotheses of the statements can be met -/

/-- A match of the real-number carrier, read off the machine's. -/
theorem matches_of {c : Config} {t : ℕ} {k : Symbol} {x : ℤ} (hc : c.wellFormed = true)
    (h : phaseMatch c t k x = true) : Matches c t k x :=
  (phaseMatch_iff hc t k x).mp h

theorem not_matches_of {c : Config} {t : ℕ} {k : Symbol} {x : ℤ} (hc : c.wellFormed = true)
    (h : phaseMatch c t k x = false) : ¬ Matches c t k x :=
  fun hm => Bool.false_ne_true (h.symm.trans ((phaseMatch_iff hc t k x).mpr hm))

/-- Every decision of the list is `ok`. -/
theorem allOk_of {l : List Answer} {n : ℕ} (h : (l.take n).all (fun a => a == .ok) = true) : AllOk l n := by
  intro a ha
  simpa using List.all_eq_true.mp h a ha

theorem witness_DecodeOfEncodeIsTheOperation :
    1 ≤ 32 ∧ (Instr.clsSample (-2147483648)).wellFormed 32 = true ∧
      selectedIn .run .cls (.clsSample (-2147483648)) = true := by decide

theorem witness_BitItemsDecodeByTheTable : MState.idle ≠ .run ∧ MState.run = .run := by decide

theorem witness_SampleItemsDecodeByTheTable :
    1 ≤ 32 ∧ (DState.done = .done ∧ DState.so ≠ .done ∧ DState.so ≠ .failed) ∧
      (2 * 2 ^ 32 ≤ 4 * 2 ^ 32 - 1 ∧ 4 * 2 ^ 32 - 1 < 4 * 2 ^ 32) ∧
      (2 ^ 32 ≤ 2 * 2 ^ 32 - 1 ∧ 2 * 2 ^ 32 - 1 < 2 * 2 ^ 32) ∧
      (2 ^ 32 - 1 < 2 ^ 32 ∧ ¬ 2 ^ 32 - 1 < 2 ^ (32 - 1) ∧ (-1 : ℤ) = (2 ^ 32 - 1 : ℕ) - 2 ^ 32) := by decide

/-- For the clauses that say which items select an operation: items at the bounds of `DATA`, `EOS` and `FAIL`, the
statuses of R70, and a character that is not a bit. -/
theorem witness_selection :
    (2 ^ 32 - 1 < 2 ^ 32 ∧ 0 < 2 ^ 32) ∧ (2 ^ 32 ≤ 2 ^ 32 ∧ 2 ^ 32 < 2 * 2 ^ 32) ∧
      (2 * 2 ^ 32 ≤ 2 * 2 ^ 32 ∧ 4 * 2 ^ 32 - 1 < 4 * 2 ^ 32) ∧
      (0x1FF#10).extractLsb' 8 2 = 0b01#2 ∧ ((0x3FF#10).extractLsb' 8 2).getLsbD 1 = true ∧
      (0x2F#8 ≠ 0x30#8 ∧ 0x2F#8 ≠ 0x31#8) ∧ inSync .so = true ∧ demFetches .cls = true := by decide

/-- A state in which either unit's next turn runs an operation. -/
def busy (turns : List Turn) : State :=
  scheduled turns (offering 0x031#10 0x059CD74A7
    ((at_ (cfgL 2)).setMod { state := .run, t := 8, held := false, bit := 0#1, cause := .none }))

theorem witness_StepRunsTheSelectedOperation :
    ((busy [.mod true]).env.turns = [.mod true] ∧ (busy [.mod true]).cfg.wellFormedMod = true) ∧
    ((busy [.dem true]).env.turns = [.dem true] ∧ (busy [.dem true]).cfg.wellFormed = true) ∧
    ((busy [.mod false]).env.turns = [.mod false] ∧ (busy [.mod false]).mod.state = .run ∧
      (busy [.mod false]).env.bitSrc = [0x031#10] ∧ (busy [.mod false]).cfg.wellFormedMod = true ∧
      decode 32 (busy [.mod false]).mod.state .init (.bitItem 0x031#10) = .ok .modBit1) ∧
    ((busy [.dem false]).env.turns = [.dem false] ∧ demFetches (busy [.dem false]).dem.state = true ∧
      (busy [.dem false]).env.smpSrc = [0x059CD74A7] ∧ (busy [.dem false]).cfg.wellFormed = true ∧
      decode 32 .run (busy [.dem false]).dem.state (.sampleItem 0x059CD74A7) = .ok (.syncInit 1506636967)) := by decide

theorem witness_HaltedAndWaitingUnitsDoNothing :
    ((scheduled [.mod false] State.reset).env.turns = [.mod false] ∧
      (scheduled [.mod false] State.reset).mod.state ≠ .run) ∧
    ((scheduled [.mod false] (running 2 8 false 0#1)).mod.state = .run ∧
      (scheduled [.mod false] (running 2 8 false 0#1)).env.bitSrc = []) ∧
    ((scheduled [.dem false] (dem .done 8 2 0 0 zeroCounts)).env.turns = [.dem false] ∧
      (scheduled [.dem false] (dem .done 8 2 0 0 zeroCounts)).dem.state = .done) ∧
    (scheduled [.dem false] (dem .failed 8 2 0 0 zeroCounts)).dem.state = .failed ∧
    (scheduled [.dem false] State.reset).env.smpSrc = [] := by decide

/-- A busy machine whose configuration breaks one bound of R13. -/
def broken (c : Config) (turns : List Turn) : State :=
  { busy turns with cfg := c }

theorem witness_IllFormedConfigurationIsRefused :
    ((broken (cfgL 37) [.mod false]).env.turns = [.mod false] ∧ (broken (cfgL 37) [.mod false]).mod.state = .run ∧
      (broken (cfgL 37) [.mod false]).env.bitSrc ≠ [] ∧
      ¬ (broken (cfgL 37) [.mod false]).cfg.symbolLen ≤ (broken (cfgL 37) [.mod false]).cfg.symlenMax) ∧
    ((broken { cfgL 2 with frequency := 0 } [.dem false]).env.turns = [.dem false] ∧
      demFetches (broken { cfgL 2 with frequency := 0 } [.dem false]).dem.state = true ∧
      (broken { cfgL 2 with frequency := 0 } [.dem false]).env.smpSrc ≠ [] ∧
      ¬ 1 ≤ (broken { cfgL 2 with frequency := 0 } [.dem false]).cfg.frequency) := by decide

theorem witness_OverwideSampleItemIsRefused :
    ∃ s : State, s.env.turns = [.dem false] ∧ demFetches s.dem.state = true ∧ s.env.smpSrc = [0x400000000] ∧
      s.cfg.wellFormed = true ∧ 2 ^ (s.cfg.sampleBits + 2) ≤ 0x400000000 :=
  ⟨scheduled [.dem false] (offering 0#10 0x400000000 State.reset), by decide⟩

theorem witness_ResetStrobeWritesEveryRegister :
    (scheduled [.reset, .mod true] (running 2 8 true 1#1)).env.turns = .reset :: [.mod true] := rfl

theorem witness_GenWritesOneSymbolOfCarrier :
    (running 2 8 false 0#1).cfg.wellFormed = true ∧ AllOk (running 2 8 false 0#1).env.smpAnswers 2 ∧
      0 < 2 ∧ FirstFail (answering [.fail] (running 2 8 false 0#1)).env.smpAnswers 0 ∧
      1 < 2 ∧ FirstFail (answering [.ok, .fail] (running 2 8 false 0#1)).env.smpAnswers 1 :=
  ⟨by decide, allOk_of rfl, by decide, ⟨allOk_of rfl, rfl⟩, by decide, ⟨allOk_of rfl, rfl⟩⟩

theorem witness_ModStartEmitsThePreamble :
    (at_ (cfgL 1)).cfg.wellFormedMod = true ∧ AllOk (at_ (cfgL 1)).env.smpAnswers (4 * 1) ∧
      0 < 4 * 1 ∧ FirstFail (answering [.fail] (at_ (cfgL 1))).env.smpAnswers 0 ∧
      3 < 4 * 1 ∧ FirstFail (answering [.ok, .ok, .ok, .fail] (at_ (cfgL 1))).env.smpAnswers 3 :=
  ⟨by decide, allOk_of rfl, by decide, ⟨allOk_of rfl, rfl⟩, by decide, ⟨allOk_of rfl, rfl⟩⟩

theorem witness_FirstBitOfPairIsHeld : (running 2 8 false 0#1).mod.held = false := rfl

theorem witness_SecondBitOfPairGeneratesItsSymbol :
    (running 2 8 true 1#1).cfg.wellFormed = true ∧ (running 2 8 true 1#1).mod.held = true ∧
      (0 = 0 ∧ Instr.modBit0 = .modBit0) ∧ (0b10#2 : Symbol).toNat = 2 * (running 2 8 true 1#1).mod.bit.toNat + 0 ∧
      (1 = 1 ∧ Instr.modBit1 = .modBit1) ∧ (0b11#2 : Symbol).toNat = 2 * (running 2 8 true 1#1).mod.bit.toNat + 1 ∧
      AllOk (running 2 8 true 1#1).env.smpAnswers 2 ∧
      1 < 2 ∧ FirstFail (answering [.ok, .fail] (running 2 8 true 1#1)).env.smpAnswers 1 :=
  ⟨by decide, rfl, by decide, by decide, by decide, by decide, allOk_of rfl, by decide, ⟨allOk_of rfl, rfl⟩⟩

theorem witness_SyncInitTestsPhaseZero :
    (dem .init 0 0 0 0 zeroCounts).cfg.wellFormed = true ∧
      Matches (cfgL 2) (dem .init 0 0 0 0 zeroCounts).dem.t 0b00#2 1293566324 ∧
      ¬ Matches (cfgL 2) (dem .init 0 0 0 0 zeroCounts).dem.t 0b00#2 1293566323 :=
  ⟨by decide, matches_of (by decide) (by decide +kernel), not_matches_of (by decide) (by decide +kernel)⟩

theorem witness_SyncFzCountsTheFirstPlateau :
    (dem .fz 1 1 0 0 zeroCounts).cfg.wellFormed = true ∧ 1 ≤ (dem .fz 1 1 0 0 zeroCounts).dem.symlen ∧
      Matches (cfgL 2) 1 0b00#2 900475449 ∧
      (¬ Matches (cfgL 2) 1 0b00#2 (-900475449) ∧ Matches (cfgL 2) 1 0b11#2 (-900475449)) ∧
      (¬ Matches (cfgL 2) 1 0b00#2 2130706432 ∧ ¬ Matches (cfgL 2) 1 0b11#2 2130706432) :=
  ⟨by decide, by decide, matches_of (by decide) (by decide +kernel),
    ⟨not_matches_of (by decide) (by decide +kernel), matches_of (by decide) (by decide +kernel)⟩,
    ⟨not_matches_of (by decide) (by decide +kernel), not_matches_of (by decide) (by decide +kernel)⟩⟩

theorem witness_SyncFoCountsDownOrRedispatches :
    (dem .fo 3 2 1 0 zeroCounts).cfg.wellFormed = true ∧
      (1 ≤ (dem .fo 3 2 1 0 zeroCounts).dem.rem ∧ Matches (cfgL 2) 3 0b11#2 551467404 ∧
        ¬ Matches (cfgL 2) 3 0b11#2 0) ∧
      ((dem .fo 4 2 0 0 zeroCounts).dem.rem = 0 ∧ 1 ≤ (dem .fo 2 1 0 0 zeroCounts).dem.symlen ∧
        Matches (cfgL 2) 4 0b00#2 (-1222123002) ∧ ¬ Matches (cfgL 2) 4 0b00#2 0) ∧
      ((dem .fo 3 0 0 0 zeroCounts).dem.rem = 0 ∧ (dem .fo 3 0 0 0 zeroCounts).dem.symlen = 0) :=
  ⟨by decide,
    ⟨by decide, matches_of (by decide) (by decide +kernel), not_matches_of (by decide) (by decide +kernel)⟩,
    ⟨rfl, by decide, matches_of (by decide) (by decide +kernel), not_matches_of (by decide) (by decide +kernel)⟩,
    ⟨rfl, rfl⟩⟩

theorem witness_SyncSzCountsDownOrRedispatches :
    (dem .sz 5 2 1 0 zeroCounts).cfg.wellFormed = true ∧
      (1 ≤ (dem .sz 5 2 1 0 zeroCounts).dem.rem ∧ Matches (cfgL 2) 5 0b00#2 (-1745372530) ∧
        ¬ Matches (cfgL 2) 5 0b00#2 0) ∧
      ((dem .sz 3 1 0 0 zeroCounts).dem.rem = 0 ∧ (dem .sz 3 1 0 0 zeroCounts).dem.symlen = 1 ∧
        Matches (cfgL 2) 3 0b11#2 551467404) ∧
      ((dem .sz 6 2 0 0 zeroCounts).dem.rem = 0 ∧ 2 ≤ (dem .sz 6 2 0 0 zeroCounts).dem.symlen ∧
        Matches (cfgL 2) 6 0b11#2 2058104371 ∧ ¬ Matches (cfgL 2) 6 0b11#2 0) :=
  ⟨by decide,
    ⟨by decide, matches_of (by decide) (by decide +kernel), not_matches_of (by decide) (by decide +kernel)⟩,
    ⟨rfl, rfl, matches_of (by decide) (by decide +kernel)⟩,
    ⟨rfl, by decide, matches_of (by decide) (by decide +kernel), not_matches_of (by decide) (by decide +kernel)⟩⟩

theorem witness_SyncSoCompletesOnTheLastSample :
    (dem .so 7 2 1 0 zeroCounts).cfg.wellFormed = true ∧ (dem .so 7 2 1 0 zeroCounts).dem.rem = 1 ∧
      2 ≤ (dem .so 7 2 2 0 zeroCounts).dem.rem ∧ Matches (cfgL 2) 7 0b11#2 2122598451 ∧
      ¬ Matches (cfgL 2) 7 0b11#2 0 :=
  ⟨by decide, rfl, by decide, matches_of (by decide) (by decide +kernel), not_matches_of (by decide) (by decide +kernel)⟩

theorem witness_CounterUnderflowStopsByName :
    (dem .fz 1 0 0 0 zeroCounts).cfg.wellFormed = true ∧ Matches (cfgL 2) 1 0b11#2 (-900475449) ∧
      (dem .fz 1 0 0 0 zeroCounts).dem.symlen = 0 ∧ (dem .fz 1 0 0 0 zeroCounts).dem.rem = 0 ∧
      ¬ Matches (cfgL 2) 1 0b00#2 (-900475449) :=
  ⟨by decide, matches_of (by decide) (by decide +kernel), rfl, rfl, not_matches_of (by decide) (by decide +kernel)⟩

theorem witness_EndOfStreamInPreamble :
    State.reset.cfg.eosInSync = .fail ∧
      (at_ { cfgL 2 with eosInSync := .normal }).cfg.eosInSync = .normal ∧
      AllOk (at_ { cfgL 2 with eosInSync := .normal }).env.bitAnswers 1 ∧
      FirstFail (answering [.fail] (at_ { cfgL 2 with eosInSync := .normal })).env.bitAnswers 0 :=
  ⟨rfl, rfl, allOk_of rfl, ⟨allOk_of rfl, rfl⟩⟩

theorem witness_ClsSampleScoresFourLanes :
    (dem .cls 8 2 0 0 zeroCounts).cfg.wellFormed = true ∧
      (dem .cls 8 2 0 0 zeroCounts).dem.pos + 1 ≠ (dem .cls 8 2 0 0 zeroCounts).dem.symlen := by decide

theorem witness_ClsSampleDecidesACompletePeriod :
    (dem .cls 9 2 0 1 zeroCounts).cfg.wellFormed = true ∧
      (dem .cls 9 2 0 1 zeroCounts).dem.pos + 1 = (dem .cls 9 2 0 1 zeroCounts).dem.symlen ∧
      AllOk (dem .cls 9 2 0 1 zeroCounts).env.bitAnswers 2 ∧
      0 < 2 ∧ FirstFail (answering [.fail] (dem .cls 9 2 0 1 zeroCounts)).env.bitAnswers 0 ∧
      1 < 2 ∧ FirstFail (answering [.ok, .fail] (dem .cls 9 2 0 1 zeroCounts)).env.bitAnswers 1 :=
  ⟨by decide, by decide, allOk_of rfl, by decide, ⟨allOk_of rfl, rfl⟩, by decide, ⟨allOk_of rfl, rfl⟩⟩

/-- V43-4: candidates 2 and 3 tie and 2 wins. -/
theorem witness_ClsDecideEmitsTheWinner :
    Wins { c0 := 2, c1 := 3, c2 := 4, c3 := 4 } 0b10#2 ∧ AllOk State.reset.env.bitAnswers 2 ∧
      1 < 2 ∧ FirstFail (answering [.ok, .fail] State.reset).env.bitAnswers 1 :=
  ⟨by unfold Wins; decide, allOk_of rfl, by decide, ⟨allOk_of rfl, rfl⟩⟩

theorem witness_ClsEosWritesTheNewline :
    AllOk (dem .cls 12 2 0 0 zeroCounts).env.bitAnswers 1 ∧
      FirstFail (answering [.fail] (dem .cls 12 2 0 0 zeroCounts)).env.bitAnswers 0 :=
  ⟨allOk_of rfl, ⟨allOk_of rfl, rfl⟩⟩

theorem witness_GeneratedSamplesFitTheirWord : cfg8000.wellFormed = true := by decide

theorem witness_GeneratedSampleMatchesItsPhase :
    Config.reference.wellFormed = true ∧
      1 / 2 < (Config.reference.amplitude : ℚ) * Config.reference.threshold := by decide +kernel

theorem witness_CarrierIsPeriodic : Config.reference.wellFormed = true := by decide

/-- `DEM` counting down the second `00` plateau, `MOD` halfway through a pair. -/
def midway (turns : List Turn) : State :=
  scheduled turns (offering 0x031#10 0x097F7BA8E
    ((dem .sz 5 2 1 0 zeroCounts).setMod { state := .run, t := 8, held := true, bit := 0#1, cause := .none }))

theorem midway_inv (turns : List Turn) : Inv (midway turns) := by
  have hM : ModInv (cfgL 2) { state := .run, t := 8, held := true, bit := 0#1, cause := .none } :=
    ⟨fun h => Bool.noConfusion h, fun _ => ⟨0, rfl⟩, fun h => MState.noConfusion h, fun _ => rfl⟩
  have hD : DemInv (cfgL 2) (dem .sz 5 2 1 0 zeroCounts).dem :=
    ⟨⟨by decide, rfl, by decide, rfl⟩, by decide, by decide, fun _ => ⟨rfl, rfl⟩, fun h => DState.noConfusion h,
      by decide⟩
  exact ⟨hM, hD⟩

theorem witness_StepKeepsTheInvariant :
    Inv (midway [.dem false]) ∧ look counters (step (midway [.dem false])) = some (.sz, 6, 2, 0) :=
  ⟨midway_inv _, by decide +kernel⟩

theorem witness_LegalMachineNeverStops : Legal (midway [.mod false, .dem false]) :=
  ⟨midway_inv _, by decide, by decide⟩

/-- For `ConfigurationNeverChanges`, `UnitsDoNotTouchEachOther`, `SinksOnlyGrow`, `SourcesAreReadInOrder` and
`ModulatorTimeCountsSamples`: a step that answers a next state, of each unit and of each strobe. -/
theorem witness_steps :
    (look (fun s => s.env.turns) (step (midway [.dem false])) = some [] ∧ (midway [.dem false]).dem.state = .sz) ∧
    look (fun s => s.env.smpSink.length) (step (midway [.mod false])) = some 2 ∧
    look (fun s => s.dem.state) (step (midway [.dem true])) = some .init ∧
    look (fun s => s.mod.state) (step (scheduled [.mod true] (at_ (cfgL 1)))) = some .run ∧
    look (fun s => s.mod.state) (step (midway [.reset])) = some .idle := by decide +kernel

theorem witness_OrderOfTheUnitsCannotBeObserved : (midway []).cfg.wellFormedMod = true := by decide

theorem witness_DemodulatorTimeCountsSamples :
    (dem .so 7 2 1 0 zeroCounts).dem.state ≠ .failed ∧
      look (fun s => s.dem.t) (exec (.syncSo 2122598451) (dem .so 7 2 1 0 zeroCounts)) = some 8 ∧
      look (fun s => (s.dem.state, s.dem.t)) (exec (.syncSo 0) (dem .so 7 2 1 0 zeroCounts)) = some (.failed, 7) := by
  decide +kernel

theorem witness_SymbolLengthIsKeptAfterFz :
    (midway [.dem false]).env.turns = [.dem false] ∧ (midway [.dem false]).dem.state ≠ .init ∧
      (midway [.dem false]).dem.state ≠ .fz := by decide

/-- A run that ends: the newline and `DONE` from `CLS`. -/
def ending : State :=
  scheduled [.dem false] (offering 0#10 0x100000000 (dem .cls 12 2 0 0 zeroCounts))

theorem witness_SynchronisationIsNeverLeftBackwards :
    ending.env.turns = [.dem false] ∧ ending.dem.state = .cls ∧ ending.cfg.eosInSync = .fail ∧
      look (fun s => s.dem.state) (step ending) = some .done := by decide

/-- A run that fails in a synchronizer state. -/
def failing : State :=
  scheduled [.dem false] (offering 0#10 0 (dem .so 7 2 1 0 zeroCounts))

theorem witness_NoOutputBeforeSynchronisation :
    failing.env.turns = [.dem false] ∧ inSync failing.dem.state = true ∧ failing.cfg.eosInSync = .fail ∧
      look (fun s => (s.dem.state, s.dem.cause)) (step failing) = some (.failed, .sync) := by decide +kernel

/-- Both units failed, and a turn for one of them. -/
def bothFailed : State :=
  scheduled [.dem false] (raiseMod (raiseDem .sync .so (dem .so 7 2 1 0 zeroCounts)))

theorem witness_FailureIsFinal :
    bothFailed.mod.state = .failed ∧ bothFailed.dem.state = .failed ∧ Turn.dem false ≠ .reset ∧
      Turn.dem false ≠ .mod true ∧ Turn.dem false ≠ .dem true ∧
      look (fun s => s.dem.state) (step bothFailed) = some .failed := by decide

/-- Both values of `EOS_IN_SYNC`, under which R34 reads `dem_synced` differently. -/
theorem witness_StatusWordsShowTheRegisters :
    (dem .done 12 2 0 0 zeroCounts).cfg.eosInSync = .fail ∧
      (at_ { cfgL 2 with eosInSync := .normal }).cfg.eosInSync = .normal := by decide

/-- V43-4's counts: candidate 2 is a winner, as the uniqueness clause asks. -/
theorem witness_EveryPeriodHasOneWinner : Wins { c0 := 2, c1 := 3, c2 := 4, c3 := 4 } 0b10#2 := by
  unfold Wins; decide

theorem witness_ModulatorRunWritesModulate : (at_ (cfgL 2)).cfg.wellFormedMod = true := by decide

theorem witness_PreambleIsSynchronised :
    (at_ (cfgL 2)).cfg.wellFormed = true ∧ 1 ≤ 2 ∧
      1 / 2 < ((at_ (cfgL 2)).cfg.amplitude : ℚ) * (at_ (cfgL 2)).cfg.threshold ∧
      ¬ Matches (at_ (cfgL 2)).cfg 2 0b00#2 (sample (at_ (cfgL 2)).cfg 2 0b11#2) := by
  refine ⟨by decide, by decide, by decide +kernel, ?_⟩
  rw [← sampleValue_eq (by decide)]
  exact not_matches_of (by decide) (by decide +kernel)

/-- Symbol 1 sent at `t = 8`, `9` with `L = 2`: candidate 0 matches at `t = 9` only. -/
theorem witness_GeneratedPeriodIsDecidedAsItsSymbol :
    (dem .cls 8 2 0 0 zeroCounts).cfg.wellFormed = true ∧
      1 / 2 < ((dem .cls 8 2 0 0 zeroCounts).cfg.amplitude : ℚ) * (dem .cls 8 2 0 0 zeroCounts).cfg.threshold ∧
      (dem .cls 8 2 0 0 zeroCounts).dem.state = .cls ∧ (dem .cls 8 2 0 0 zeroCounts).dem.pos = 0 ∧
      (dem .cls 8 2 0 0 zeroCounts).dem.cnt = { c0 := 0, c1 := 0, c2 := 0, c3 := 0 } ∧
      1 ≤ (dem .cls 8 2 0 0 zeroCounts).dem.symlen ∧
      ∀ j : Symbol, j.toNat < (0b01#2 : Symbol).toNat → ∃ n, n < (dem .cls 8 2 0 0 zeroCounts).dem.symlen ∧
        ¬ Matches (cfgL 2) (8 + n) j (sample (cfgL 2) (8 + n) 0b01#2) := by
  refine ⟨by decide, by decide +kernel, rfl, rfl, rfl, by decide, fun j hj => ⟨0, by decide, ?_⟩⟩
  have h0 : j = 0b00#2 := by revert j; decide
  rw [h0, ← sampleValue_eq (by decide)]
  exact not_matches_of (by decide) (by decide +kernel)

theorem witness_RoundTripReproducesTheBits :
    2 ≤ 2 ∧ (at_ (cfgL 2)).cfg = { Config.reference with symbolLen := 2 } ∧
      (∀ ch ∈ [0x30#8, 0x31#8, 0x31#8, 0x30#8], ch = 0x30#8 ∨ ch = 0x31#8) ∧
      [0x30#8, 0x31#8, 0x31#8, 0x30#8].length % 2 = 0 := by decide

end Sys2Proof.Tests
end

section
/-!
SUPPORT. Proof of O7, with the rules for a unit's turn that it turns on: which turns run an operation at all, and
what the guard of spec/00_scope.md R13 makes of them.
-/

namespace Sys2Proof.Proofs.Scope

open Sys2Proof Sys2Proof.Machine Sys2Proof.Laws

/-! ### R13's bounds -/

/-- R13 asks `TH > 0` of the threshold itself; the model's check reads its numerator. -/
theorem wellFormed_iff_bounds (c : Config) : c.wellFormed = true ↔
    1 ≤ c.sampleRate ∧ 1 ≤ c.frequency ∧ 1 ≤ c.amplitude ∧ c.amplitude < 2 ^ (c.sampleBits - 1) ∧
      0 < c.threshold := by
  rw [Config.wellFormed_iff, Rat.num_pos]

theorem wellFormedMod_iff_bounds (c : Config) : c.wellFormedMod = true ↔
    1 ≤ c.sampleRate ∧ 1 ≤ c.frequency ∧ 1 ≤ c.amplitude ∧ c.amplitude < 2 ^ (c.sampleBits - 1) ∧
      0 < c.threshold ∧ 1 ≤ c.symbolLen ∧ c.symbolLen ≤ c.symlenMax := by
  simp only [Config.wellFormedMod_iff, wellFormed_iff_bounds, and_assoc]

/-! ### The guard -/

theorem guarded_of_illFormed {wf : Bool} (h : wf ≠ true) (r : Result) :
    guarded wf r = .refused .illFormedConfiguration := by
  simp [guarded, h]

/-! ### The turns that run an operation -/

theorem modTurn_strobe (s : State) : modTurn true s = guarded s.cfg.wellFormedMod (exec .modStart s) := rfl

theorem modTurn_item {s : State} {item : BitItem} {items : List BitItem} (hrun : s.mod.state = .run)
    (hsrc : s.env.bitSrc = item :: items) :
    modTurn false s =
      guarded s.cfg.wellFormedMod (exec (decodeBit item) (s.setEnv { s.env with bitSrc := items })) := by
  simp [modTurn, srcReadBit, decode, runDecoded, modFetches, hrun, hsrc]

theorem demTurn_strobe (s : State) : demTurn true s = guarded s.cfg.wellFormed (exec .demStart s) := rfl

theorem demTurn_item {s : State} {item : SampleItem} {items : List SampleItem}
    (hfetch : demFetches s.dem.state = true) (hsrc : s.env.smpSrc = item :: items) :
    demTurn false s =
      guarded s.cfg.wellFormed (runDecoded (decodeSample s.cfg.sampleBits s.dem.state item)
        (s.setEnv { s.env with smpSrc := items })) := by
  simp [demTurn, srcReadSample, decode, hfetch, hsrc]

/-! ### Under an ill-formed configuration -/

/-- A strobe and a fetched item are the only ways into an operation of `MOD`, and both pass the guard. -/
theorem modTurn_of_illFormed {s : State} {start : Bool}
    (hop : start = true ∨ (s.mod.state = .run ∧ s.env.bitSrc ≠ [])) (hwf : s.cfg.wellFormedMod ≠ true) :
    modTurn start s = .refused .illFormedConfiguration := by
  cases start with
  | true => rw [modTurn_strobe, guarded_of_illFormed hwf]
  | false =>
    obtain ⟨hrun, hoffered⟩ := hop.resolve_left Bool.false_ne_true
    obtain ⟨item, items, hsrc⟩ := List.exists_cons_of_ne_nil hoffered
    rw [modTurn_item hrun hsrc, guarded_of_illFormed hwf]

/-- The same of `DEM`. The guard comes before the decoder's rejections, so an overwide item does not hide the
refusal. -/
theorem demTurn_of_illFormed {s : State} {start : Bool}
    (hop : start = true ∨ (demFetches s.dem.state = true ∧ s.env.smpSrc ≠ [])) (hwf : s.cfg.wellFormed ≠ true) :
    demTurn start s = .refused .illFormedConfiguration := by
  cases start with
  | true => rw [demTurn_strobe, guarded_of_illFormed hwf]
  | false =>
    obtain ⟨hfetch, hoffered⟩ := hop.resolve_left Bool.false_ne_true
    obtain ⟨item, items, hsrc⟩ := List.exists_cons_of_ne_nil hoffered
    rw [demTurn_item hfetch hsrc, guarded_of_illFormed hwf]

/-- Settles O7: a turn that would run an operation meets the guard, and the guard's checks are R13's bounds. -/
theorem illFormedConfigurationIsRefused : Obligations.IllFormedConfigurationIsRefused := by
  unfold Obligations.IllFormedConfigurationIsRefused
  intro s rest start
  constructor
  · intro hturn hop hbounds
    rw [step_cons hturn]
    exact modTurn_of_illFormed hop (mt (wellFormedMod_iff_bounds s.cfg).mp hbounds)
  · intro hturn hop hbounds
    rw [step_cons hturn]
    exact demTurn_of_illFormed hop (mt (wellFormed_iff_bounds s.cfg).mp hbounds)

end Sys2Proof.Proofs.Scope
end

section
/-!
SUPPORT. What one turn can do, said once for each unit: the frame of a turn of `MOD`, every outcome of an operation
that `DEM` fetches, and the frame of a turn of `DEM`. With them the proofs of O38, O42 and O44.
-/

namespace Sys2Proof.Proofs.Turns

open Sys2Proof Sys2Proof.Machine Sys2Proof.Laws

/-! ### A turn of `MOD` -/

/-- A write to `MOD`'s registers alone. -/
theorem modFrame_setMod (s : State) (m : ModRegs) : ModFrame s (s.setMod m) [] 0 :=
  ⟨rfl, rfl, by simp⟩

theorem execModStart_frame {s t : State} (h : exec .modStart s = .next t) : ∃ ws k, ModFrame s t ws k := by
  rcases execModStart_cases s with ⟨ws, -, he⟩ | ⟨ws, -, he⟩
  · cases he.symm.trans h
    exact ⟨ws, ws.length, rfl, rfl, rfl⟩
  · cases he.symm.trans h
    exact ⟨ws, ws.length + 1, rfl, rfl, rfl⟩

/-- The operation of a fetched bit item keeps `MOD`'s frame, and `M_T` counts the words it writes (R22). -/
theorem execBitOp_frame {i : Instr} {s t : State} (hi : BitOp i) (h : exec i s = .next t) :
    ∃ ws k, ModFrame s t ws k ∧ t.mod.t = s.mod.t + ws.length := by
  rcases execBitOp_cases hi s with he | he | ⟨-, b, he⟩ | ⟨-, ws, -, he⟩ | ⟨-, ws, -, he⟩ <;>
    cases he.symm.trans h
  · exact ⟨[], 0, modFrame_setMod .., rfl⟩
  · exact ⟨[], 0, modFrame_setMod .., rfl⟩
  · exact ⟨[], 0, modFrame_setMod .., rfl⟩
  · exact ⟨ws, ws.length, modFrame_sent .., rfl⟩
  · exact ⟨ws, ws.length + 1, modFrame_sent .., rfl⟩

/-- A turn of `MOD` reads `BITSRC`, and beyond that keeps `MOD`'s frame; without the strobe, `M_T` counts the words
written. -/
theorem modTurn_frame {start : Bool} {s t : State} (h : modTurn start s = .next t) :
    ∃ items ws k, ModFrame (s.setEnv { s.env with bitSrc := items }) t ws k ∧
      (start = false → t.mod.t = s.mod.t + ws.length) := by
  rcases modTurn_cases h with ⟨rfl, -, he⟩ | ⟨-, rfl⟩ | ⟨-, -, -, item, items, -, hi, he⟩
  · obtain ⟨ws, k, hf⟩ := execModStart_frame he
    exact ⟨s.env.bitSrc, ws, k, hf, nofun⟩
  · exact ⟨t.env.bitSrc, [], 0, ⟨rfl, rfl, by simp⟩, fun _ => rfl⟩
  · obtain ⟨ws, k, hf, ht⟩ := execBitOp_frame hi he
    exact ⟨items, ws, k, hf, fun _ => ht⟩

/-! ### The outcomes of an operation that `DEM` fetches -/

@[simp] theorem charsSent_cfg (cs n) (s : State) : (charsSent cs n s).cfg = s.cfg := rfl
@[simp] theorem charsSent_mod (cs n) (s : State) : (charsSent cs n s).mod = s.mod := rfl
@[simp] theorem charsSent_dem (cs n) (s : State) : (charsSent cs n s).dem = s.dem := rfl
@[simp] theorem charsSent_env (cs n) (s : State) : (charsSent cs n s).env =
    { s.env with bitAnswers := s.env.bitAnswers.drop n, bitSink := s.env.bitSink ++ cs } := rfl

theorem charsSent_zero (s : State) : charsSent [] 0 s = s := by
  simp [charsSent, State.setEnv]

/-- The next plateau begins with a full `D_REM` (R145). -/
def reload (next : DState) (s : State) : State :=
  s.setDem { s.dem with rem := s.dem.symlen, state := next }

@[simp] theorem reload_cfg (next : DState) (s : State) : (reload next s).cfg = s.cfg := rfl
@[simp] theorem reload_mod (next : DState) (s : State) : (reload next s).mod = s.mod := rfl
@[simp] theorem reload_dem (next : DState) (s : State) :
    (reload next s).dem = { s.dem with rem := s.dem.symlen, state := next } := rfl
@[simp] theorem reload_env (next : DState) (s : State) : (reload next s).env = s.env := rfl

/-- `SampleOutcome s t`: an operation that `DEM` fetches in `s` can answer `t`. One constructor per branch of
spec/42_synchronizer.md R143 to R152 and spec/43_classifier.md R171 to R175. -/
inductive SampleOutcome : State → State → Prop where
  /-- `raise ChannelError` after a failed read, or after a failed write of the newline. -/
  | channelFails {s : State} (cs : List Char8) (n : Nat) (hf : demFetches s.dem.state = true) :
      SampleOutcome s (raiseDemChannel (charsSent cs n s))
  /-- `raise SyncEos(D_STATE)`. -/
  | eosInPreamble {s : State} (hs : inSync s.dem.state = true) :
      SampleOutcome s (raiseDem .syncEos s.dem.state s)
  /-- The newline and `DONE`: from `CLS`, or from the preamble under `EOS_IN_SYNC = NORMAL`. -/
  | ends {s : State} (hs : s.dem.state = .cls ∨ s.cfg.eosInSync = .normal) :
      SampleOutcome s ((charsSent [newline] 1 s).setDem { s.dem with state := .done })
  /-- `raise SyncError(D_STATE)`. -/
  | mismatch {s : State} {d : DState} (hs : s.dem.state = d) (hd : inSync d = true) :
      SampleOutcome s (raiseDem .sync d s)
  /-- `INIT` to `FZ`. -/
  | firstSample {s : State} (hs : s.dem.state = .init) :
      SampleOutcome s (s.setDem { s.dem with symlen := s.dem.symlen + 1, t := s.dem.t + 1, state := .fz })
  /-- One more sample of the plateau that measures `D_SYMLEN`. -/
  | plateauGrows {s : State} (hs : s.dem.state = .fz) :
      SampleOutcome s (s.setDem { s.dem with symlen := s.dem.symlen + 1, t := s.dem.t + 1 })
  /-- `FZ` to `FO`. -/
  | plateauEnds {s : State} {n : Nat} (hs : s.dem.state = .fz) (hn : s.dem.symlen = n + 1) :
      SampleOutcome s (s.setDem { s.dem with rem := n, t := s.dem.t + 1, state := .fo })
  /-- One more sample of `FO` or `SZ`, or one of `SO` that is not its last. -/
  | countsDown {s : State} {n : Nat} (hn : s.dem.rem = n + 1)
      (hs : s.dem.state = .fo ∨ s.dem.state = .sz ∨ s.dem.state = .so ∧ 1 ≤ n) :
      SampleOutcome s (s.setDem { s.dem with rem := n, t := s.dem.t + 1 })
  /-- The last sample of `SO`. -/
  | synchronises {s : State} (hs : s.dem.state = .so) (hr : s.dem.rem = 1) :
      SampleOutcome s (s.setDem { s.dem with rem := 0, t := s.dem.t + 1, state := .cls })
  /-- The same sample goes on in the next plateau. -/
  | redispatches {s t : State} {next : DState} (hr : s.dem.rem = 0)
      (hs : s.dem.state = .fo ∧ next = .sz ∨ s.dem.state = .sz ∧ next = .so)
      (ht : SampleOutcome (reload next s) t) : SampleOutcome s t
  /-- A sample inside a period. -/
  | scores {s : State} (x : Int) (hs : s.dem.state = .cls) (hp : s.dem.pos + 1 ≠ s.dem.symlen) :
      SampleOutcome s (scoreSample x s)
  /-- The last sample of a period, decided. -/
  | decides {s : State} (x : Int) (cs : List Char8) (hs : s.dem.state = .cls) (hp : s.dem.pos + 1 = s.dem.symlen) :
      SampleOutcome s ((charsSent cs 2 (scoreSample x s)).setDem
        { (scoreSample x s).dem with cnt := zeroCounts, pos := 0 })
  /-- The last sample of a period, a write of its decision failing. -/
  | decisionFails {s : State} (x : Int) (cs : List Char8) (n : Nat) (hs : s.dem.state = .cls) :
      SampleOutcome s (raiseDemChannel (charsSent cs n (scoreSample x s)))

theorem demFetches_of_inSync {d : DState} (h : inSync d = true) : demFetches d = true := by
  cases d <;> simp_all [inSync, demFetches]

theorem finishDem_outcome {s t : State} (hf : demFetches s.dem.state = true)
    (hs : s.dem.state = .cls ∨ s.cfg.eosInSync = .normal) (h : flowResult (finishDem s) = .next t) :
    SampleOutcome s t := by
  rcases finishDem_cases s with he | he <;> rw [he] at h <;> cases h
  · exact .ends hs
  · exact .channelFails [] 1 hf

theorem execSyncEos_outcome {s t : State} (hs : inSync s.dem.state = true) (h : exec .syncEos s = .next t) :
    SampleOutcome s t := by
  simp only [exec, execSyncEos] at h
  split at h
  next => cases h; exact .eosInPreamble hs
  next hn => exact finishDem_outcome (demFetches_of_inSync hs) (.inr hn) h

theorem execSyncInit_outcome {x : Int} {s t : State} (hs : s.dem.state = .init)
    (h : exec (.syncInit x) s = .next t) : SampleOutcome s t := by
  simp only [exec, execSyncInit] at h
  split at h <;> cases h
  · exact .firstSample hs
  · exact .mismatch hs rfl

theorem execSyncFz_outcome {x : Int} {s t : State} (hs : s.dem.state = .fz)
    (h : exec (.syncFz x) s = .next t) : SampleOutcome s t := by
  simp only [exec, execSyncFz] at h
  split at h
  · cases h; exact .plateauGrows hs
  · split at h
    · split at h <;> cases h
      next hn => exact .plateauEnds hs hn
    · cases h; exact .mismatch hs rfl

theorem execSyncSo_outcome {x : Int} {s t : State} (hs : s.dem.state = .so)
    (h : exec (.syncSo x) s = .next t) : SampleOutcome s t := by
  simp only [exec, execSyncSo] at h
  split at h
  · split at h <;> cases h
    next hr => exact .synchronises hs hr
    next hr => exact .countsDown hr (.inr (.inr ⟨hs, by omega⟩))
  · cases h; exact .mismatch hs rfl

theorem execSyncSz_outcome {x : Int} {s t : State} (hs : s.dem.state = .sz)
    (h : exec (.syncSz x) s = .next t) : SampleOutcome s t := by
  simp only [exec, execSyncSz] at h
  split at h
  next hr => exact .redispatches hr (.inr ⟨hs, rfl⟩) (execSyncSo_outcome (s := reload .so s) rfl h)
  next hr =>
    split at h <;> cases h
    · exact .countsDown hr (.inr (.inl hs))
    · exact .mismatch hs rfl

theorem execSyncFo_outcome {x : Int} {s t : State} (hs : s.dem.state = .fo)
    (h : exec (.syncFo x) s = .next t) : SampleOutcome s t := by
  simp only [exec, execSyncFo] at h
  split at h
  next hr => exact .redispatches hr (.inl ⟨hs, rfl⟩) (execSyncSz_outcome (s := reload .sz s) rfl h)
  next hr =>
    split at h <;> cases h
    · exact .countsDown hr (.inl hs)
    · exact .mismatch hs rfl

theorem execClsSample_outcome {x : Int} {s t : State} (hs : s.dem.state = .cls)
    (h : exec (.clsSample x) s = .next t) : SampleOutcome s t := by
  rw [execClsSample_eq] at h
  split at h
  next hp =>
    rcases decidePeriod_cases (scoreSample x s) with he | he | he <;> rw [he] at h <;> cases h
    · exact .decides x _ hs hp
    · exact .decisionFails x _ _ hs
    · exact .decisionFails x _ _ hs
  next hp => cases h; exact .scores x hs hp

/-- Every next state of an operation that `DEM` fetches is one of the outcomes. -/
theorem exec_sampleOutcome {i : Instr} {s t : State} (hi : SampleOp s.dem.state i) (h : exec i s = .next t) :
    SampleOutcome s t := by
  generalize hs : s.dem.state = d at hi
  cases hi with
  | rdfail hf =>
    cases h
    simpa only [charsSent_zero] using SampleOutcome.channelFails [] 0 (hs ▸ hf)
  | syncEos hd => exact execSyncEos_outcome (hs ▸ hd) h
  | clsEos => exact finishDem_outcome (hs ▸ rfl) (.inl hs) h
  | init x => exact execSyncInit_outcome hs h
  | fz x => exact execSyncFz_outcome hs h
  | fo x => exact execSyncFo_outcome hs h
  | sz x => exact execSyncSz_outcome hs h
  | so x => exact execSyncSo_outcome hs h
  | cls x => exact execClsSample_outcome hs h

/-! ### A turn of `DEM` -/

/-- What the operations of `DEM` may change: its own registers, and characters appended to `BITSINK` with answers
used up. -/
structure DemFrame (s t : State) (cs : List Char8) (k : Nat) : Prop where
  cfg : t.cfg = s.cfg
  mod : t.mod = s.mod
  env : t.env = { s.env with bitSink := s.env.bitSink ++ cs, bitAnswers := s.env.bitAnswers.drop k }

theorem demFrame_sent (cs : List Char8) (k : Nat) (s : State) (d : DemRegs) :
    DemFrame s ((charsSent cs k s).setDem d) cs k := ⟨rfl, rfl, rfl⟩

/-- A write to `DEM`'s registers alone. -/
theorem demFrame_setDem (s : State) (d : DemRegs) : DemFrame s (s.setDem d) [] 0 :=
  ⟨rfl, rfl, by simp⟩

theorem SampleOutcome.frame {s t : State} (h : SampleOutcome s t) : ∃ cs k, DemFrame s t cs k := by
  induction h with
  | channelFails cs n | decisionFails _ cs n => exact ⟨cs, n, demFrame_sent ..⟩
  | ends | decides => exact ⟨_, _, demFrame_sent ..⟩
  | eosInPreamble | mismatch | firstSample | plateauGrows | plateauEnds | countsDown | synchronises | scores =>
    exact ⟨[], 0, demFrame_setDem ..⟩
  | redispatches _ _ _ ih =>
    obtain ⟨cs, k, hf⟩ := ih
    exact ⟨cs, k, hf.cfg, hf.mod, hf.env⟩

/-- `D_SYMLEN` is written in `INIT` and `FZ` only (R27). -/
theorem SampleOutcome.symlen {s t : State} (h : SampleOutcome s t) (hinit : s.dem.state ≠ .init)
    (hfz : s.dem.state ≠ .fz) : t.dem.symlen = s.dem.symlen := by
  induction h with
  | firstSample hs => exact absurd hs hinit
  | plateauGrows hs => exact absurd hs hfz
  | redispatches _ hs _ ih =>
    rcases hs with ⟨-, rfl⟩ | ⟨-, rfl⟩ <;> exact ih nofun nofun
  | _ => rfl

/-- A turn of `DEM` starts a run, does nothing, or has an outcome of the operation it fetched. -/
theorem demTurn_outcome {start : Bool} {s t : State} (h : demTurn start s = .next t) :
    (start = true ∧ t = s.setDem .reset) ∨
    (start = false ∧ t = s) ∨
    (start = false ∧ demFetches s.dem.state = true ∧
      ∃ items, SampleOutcome (s.setEnv { s.env with smpSrc := items }) t) := by
  rcases demTurn_cases h with ⟨hstart, -, ht⟩ | hwait | ⟨hstart, -, hf, item, items, i, -, hi, he⟩
  · exact .inl ⟨hstart, ht⟩
  · exact .inr (.inl hwait)
  · exact .inr (.inr ⟨hstart, hf, items,
      exec_sampleOutcome (s := s.setEnv { s.env with smpSrc := items }) hi he⟩)

/-- A turn of `DEM` reads `SMPSRC`, and beyond that keeps `DEM`'s frame. -/
theorem demTurn_frame {start : Bool} {s t : State} (h : demTurn start s = .next t) :
    ∃ items cs k, DemFrame (s.setEnv { s.env with smpSrc := items }) t cs k := by
  rcases demTurn_outcome h with ⟨-, rfl⟩ | ⟨-, rfl⟩ | ⟨-, -, items, ho⟩
  · exact ⟨s.env.smpSrc, [], 0, demFrame_setDem ..⟩
  · exact ⟨t.env.smpSrc, [], 0, ⟨rfl, rfl, by simp⟩⟩
  · exact ⟨items, ho.frame⟩

/-! ### The obligations -/

/-- Settles O38: each unit's turn keeps its frame, and the frames do not meet. -/
theorem unitsDoNotTouchEachOther : Obligations.UnitsDoNotTouchEachOther := by
  unfold Obligations.UnitsDoNotTouchEachOther
  intro s t rest start h
  constructor
  · intro hturn
    rw [step_cons hturn] at h
    obtain ⟨items, ws, k, hf, -⟩ := modTurn_frame h
    simp [hf.dem, hf.env]
  · intro hturn
    rw [step_cons hturn] at h
    obtain ⟨items, cs, k, hf⟩ := demTurn_frame h
    simp [hf.mod, hf.env]

/-- Settles O42: without the strobe, `M_T` grows by the number of words the turn appends to `SMPSINK`. -/
theorem modulatorTimeCountsSamples : Obligations.ModulatorTimeCountsSamples := by
  unfold Obligations.ModulatorTimeCountsSamples
  intro s t rest hturn h
  rw [step_cons hturn] at h
  obtain ⟨items, ws, k, hf, ht⟩ := modTurn_frame h
  have hgrow : t.mod.t = s.mod.t + ws.length := ht rfl
  have hsink : t.env.smpSink.length = s.env.smpSink.length + ws.length := by simp [hf.env]
  omega

/-- Settles O44: a turn without strobe waits or runs a fetched operation, and from `FO` on none of its outcomes
writes `D_SYMLEN`. -/
theorem symbolLengthIsKeptAfterFz : Obligations.SymbolLengthIsKeptAfterFz := by
  unfold Obligations.SymbolLengthIsKeptAfterFz
  intro s t rest hturn h hinit hfz
  rw [step_cons hturn] at h
  rcases demTurn_outcome h with ⟨hstart, -⟩ | ⟨-, rfl⟩ | ⟨-, -, items, ho⟩
  · exact absurd hstart Bool.false_ne_true
  · rfl
  · exact ho.symlen hinit hfz

end Sys2Proof.Proofs.Turns
end

section
/-!
SUPPORT. The invariant of spec/10_state.md R41: it holds right after reset (O35), and every step keeps it (O34).
The two units' parts are proved apart; the frames of `Sys2Proof.Proofs.Turns` put them together.
-/

namespace Sys2Proof.Proofs.Invariant

open Sys2Proof Sys2Proof.Machine Sys2Proof.Safety Sys2Proof.Laws Sys2Proof.Proofs.Turns

/-! ### `MOD`'s part -/

theorem modInv_reset (c : Config) : ModInv c .reset :=
  ⟨fun _ => rfl, nofun, nofun, fun _ => rfl⟩

/-- A failed `MOD` need only hold no bit when `M_HAVE = 0`. -/
theorem modInv_failed (c : Config) {m : ModRegs} (hbit : m.held = false → m.bit = 0#1) :
    ModInv c { m with state := .failed, cause := .channel } :=
  ⟨hbit, nofun, fun _ => rfl, fun h => absurd rfl h⟩

/-- Whole symbols have been generated: the preamble's four and `pairs` more. -/
theorem modInv_run {c : Config} {m : ModRegs} {pairs : ℕ} (hstate : m.state = .run) (hcause : m.cause = .none)
    (hbit : m.held = false → m.bit = 0#1) (ht : m.t = c.symbolLen * (4 + pairs)) : ModInv c m :=
  ⟨hbit, fun _ => ⟨pairs, ht⟩, fun h => (nomatch hstate.symm.trans h), fun _ => hcause⟩

theorem modInv_done {c : Config} {m : ModRegs} (hcause : m.cause = .none) (hbit : m.held = false → m.bit = 0#1) :
    ModInv c { m with state := .done } :=
  ⟨hbit, nofun, nofun, fun _ => hcause⟩

/-- `MOD.START` meets the invariant whatever the registers were. -/
theorem execModStart_modInv {s t : State} (h : exec .modStart s = .next t) : ModInv s.cfg t.mod := by
  rcases execModStart_cases s with ⟨ws, hlen, he⟩ | ⟨ws, -, he⟩
  · cases he.symm.trans h
    exact modInv_run (pairs := 0) rfl rfl (fun _ => rfl) hlen
  · cases he.symm.trans h
    exact modInv_failed (m := { state := .failed, t := ws.length, held := false, bit := 0#1, cause := .channel })
      s.cfg fun _ => rfl

/-- A bit operation in `RUN`: a held bit moves no time, a completed pair moves it by a whole symbol. -/
theorem execBitOp_modInv {i : Instr} {s t : State} (hi : BitOp i) (hrun : s.mod.state = .run)
    (hinv : ModInv s.cfg s.mod) (h : exec i s = .next t) : ModInv s.cfg t.mod := by
  obtain ⟨hbit, htime, -, hcause⟩ := hinv
  obtain ⟨pairs, ht⟩ := htime hrun
  have hnone : s.mod.cause = .none := hcause (hrun ▸ nofun)
  rcases execBitOp_cases hi s with he | he | ⟨-, b, he⟩ | ⟨-, ws, hlen, he⟩ | ⟨-, ws, -, he⟩ <;>
    cases he.symm.trans h
  · exact modInv_failed s.cfg hbit
  · exact modInv_done hnone hbit
  · exact modInv_run hrun hnone nofun ht
  · refine modInv_run (pairs := pairs + 1) hrun hnone (fun _ => rfl) ?_
    calc s.mod.t + ws.length = s.cfg.symbolLen * (4 + pairs) + s.cfg.symbolLen := by rw [ht, hlen]
      _ = s.cfg.symbolLen * (4 + (pairs + 1)) := by ring
  · exact modInv_failed
      (m := { state := .failed, t := s.mod.t + ws.length, held := false, bit := 0#1, cause := .channel })
      s.cfg fun _ => rfl

theorem modTurn_modInv {start : Bool} {s t : State} (hinv : ModInv s.cfg s.mod) (h : modTurn start s = .next t) :
    ModInv s.cfg t.mod := by
  rcases modTurn_cases h with ⟨-, -, he⟩ | ⟨-, rfl⟩ | ⟨-, -, hrun, item, items, -, hi, he⟩
  · exact execModStart_modInv he
  · exact hinv
  · exact execBitOp_modInv (s := s.setEnv { s.env with bitSrc := items }) hi hrun hinv he

/-! ### `DEM`'s part -/

theorem getCount_zeroCounts (k : Symbol) : getCount zeroCounts k = 0 := by
  unfold getCount zeroCounts
  split <;> rfl

theorem bump_le {hit : Bool} {n p : ℕ} (h : n ≤ p) : bump hit n ≤ p + 1 := by
  cases hit
  · exact Nat.le_succ_of_le h
  · exact Nat.succ_le_succ h

/-- A sample adds at most one to each counter, as it does to `D_POS`. -/
theorem getCount_scoreCounts_le {cnt : Counts} {p : ℕ} (h : ∀ k : Symbol, getCount cnt k ≤ p) (c : Config) (t : ℕ)
    (x : ℤ) (k : Symbol) : getCount (scoreCounts c t x cnt) k ≤ p + 1 := by
  unfold getCount scoreCounts
  split
  · exact bump_le (h 0#2)
  · exact bump_le (h 1#2)
  · exact bump_le (h 2#2)
  · exact bump_le (h 3#2)

theorem demInv_reset (c : Config) : DemInv c .reset :=
  ⟨⟨rfl, rfl, rfl, rfl⟩, Nat.le_refl 0, fun k => (getCount_zeroCounts k).le, fun _ => ⟨rfl, rfl⟩, nofun, nofun⟩

/-- The counters' part of what an operation of a fetching `DEM` works on. In a plateau after the first it asks less
than `CountersInv`: `D_REM` may still be a full `D_SYMLEN`, as it is within a step after a reload (R145). -/
def CountersReady (c : Config) (d : DemRegs) : Prop :=
  match d.state with
  | .fo => 1 ≤ d.symlen ∧ d.t + d.rem = 2 * d.symlen ∧ d.pos = 0
  | .sz => 1 ≤ d.symlen ∧ d.t + d.rem = 3 * d.symlen ∧ d.pos = 0
  | .so => 1 ≤ d.symlen ∧ d.t + d.rem = 4 * d.symlen ∧ d.pos = 0
  | _ => CountersInv c d

theorem countersReady_of_countersInv {c : Config} {d : DemRegs} (h : CountersInv c d) : CountersReady c d := by
  unfold CountersReady
  split
  next hs => simp only [CountersInv, hs] at h; omega
  next hs => simp only [CountersInv, hs] at h; omega
  next hs => simp only [CountersInv, hs] at h; omega
  next => exact h

/-- The registers an operation of a fetching `DEM` works on, also after a reload within the step. -/
structure Ready (c : Config) (d : DemRegs) : Prop where
  counters : CountersReady c d
  rem_le : d.rem ≤ d.symlen
  cnt_le : ∀ k : Symbol, getCount d.cnt k ≤ d.pos
  cause : d.cause = .none
  fstate : d.fstate = .init

theorem ready_of_demInv {c : Config} {d : DemRegs} (h : DemInv c d) (hf : demFetches d.state = true) :
    Ready c d := by
  obtain ⟨hcounters, hrem, hcnt, hrunning, -, -⟩ := h
  obtain ⟨hcause, hfstate⟩ := hrunning (by intro hs; simp [hs, demFetches] at hf)
  exact ⟨countersReady_of_countersInv hcounters, hrem, hcnt, hcause, hfstate⟩

/-- A unit that has not failed shows no cause, so only the counters are left to show. -/
theorem demInv_running {c : Config} {d : DemRegs} (hs : d.state ≠ .failed) (hcause : d.cause = .none)
    (hfstate : d.fstate = .init) (hcounters : CountersInv c d) (hrem : d.rem ≤ d.symlen)
    (hcnt : ∀ k : Symbol, getCount d.cnt k ≤ d.pos) : DemInv c d :=
  ⟨hcounters, hrem, hcnt, fun _ => ⟨hcause, hfstate⟩, fun h => absurd h hs,
    fun h => by rw [hcause] at h; exact h.elim nofun nofun⟩

/-- A raised error keeps the counters and names a state that checks it. -/
theorem demInv_failed {cfg : Config} {d : DemRegs} {c : Cause} {f : DState} (hrem : d.rem ≤ d.symlen)
    (hcnt : ∀ k : Symbol, getCount d.cnt k ≤ d.pos) (hc : c ≠ .none) (hf : demFetches f = true)
    (hsync : c = .sync ∨ c = .syncEos → inSync f = true) :
    DemInv cfg { d with state := .failed, cause := c, fstate := f } :=
  ⟨trivial, hrem, hcnt, fun h => absurd rfl h, fun _ => ⟨hc, hf⟩, hsync⟩

/-- `raise` in a synchronizer state. -/
theorem Ready.raise_sync {cfg : Config} {d : DemRegs} (h : Ready cfg d) {c : Cause} {f : DState} (hc : c ≠ .none)
    (hf : inSync f = true) : DemInv cfg { d with state := .failed, cause := c, fstate := f } :=
  demInv_failed h.rem_le h.cnt_le hc (demFetches_of_inSync hf) fun _ => hf

/-- The reload starts the next plateau at its full length. -/
theorem Ready.reload {s : State} {next : DState} (h : Ready s.cfg s.dem) (hr : s.dem.rem = 0)
    (hs : s.dem.state = .fo ∧ next = .sz ∨ s.dem.state = .sz ∧ next = .so) :
    Ready (reload next s).cfg (reload next s).dem := by
  refine ⟨?_, Nat.le_refl _, h.cnt_le, h.cause, h.fstate⟩
  have hc := h.counters
  rcases hs with ⟨hs, rfl⟩ | ⟨hs, rfl⟩ <;>
  · simp only [CountersReady, hs, hr] at hc
    obtain ⟨hlen, htime, hpos⟩ := hc
    exact ⟨hlen, by simp only [reload_dem]; omega, hpos⟩

/-- The counters stay below `D_POS` when a sample of a period is scored. -/
theorem getCount_scoreSample_le {s : State} (h : Ready s.cfg s.dem) (x : ℤ) (k : Symbol) :
    getCount (scoreSample x s).dem.cnt k ≤ (scoreSample x s).dem.pos :=
  getCount_scoreCounts_le h.cnt_le s.cfg s.dem.t x k

/-- Every outcome of a fetched operation meets `DEM`'s invariant. -/
theorem demInv_of_sampleOutcome {s t : State} (ho : SampleOutcome s t) (h : Ready s.cfg s.dem) :
    DemInv s.cfg t.dem := by
  have hcounters := h.counters
  induction ho with
  | channelFails cs n hf => exact demInv_failed h.rem_le h.cnt_le nofun hf nofun
  | eosInPreamble hs => exact h.raise_sync nofun hs
  | mismatch hs hd => exact h.raise_sync nofun hd
  | ends hs =>
    refine demInv_running nofun h.cause h.fstate (fun hfail => ?_) h.rem_le h.cnt_le
    rcases hs with hs | hnormal
    · simp only [CountersReady, CountersInv, hs] at hcounters
      obtain ⟨-, hpos, -⟩ := hcounters
      exact Nat.one_le_of_lt hpos
    · exact nomatch hnormal.symm.trans hfail
  | firstSample hs =>
    simp only [CountersReady, CountersInv, hs] at hcounters
    obtain ⟨ht, hlen, hrem, hpos⟩ := hcounters
    refine demInv_running nofun h.cause h.fstate ?_ (Nat.le_succ_of_le h.rem_le) h.cnt_le
    simp [CountersInv, ht, hlen, hrem, hpos]
  | plateauGrows hs =>
    simp only [CountersReady, CountersInv, hs] at hcounters
    obtain ⟨hlen, -, hrem, hpos⟩ := hcounters
    refine demInv_running (by simp [hs]) h.cause h.fstate ?_ (Nat.le_succ_of_le h.rem_le) h.cnt_le
    simp [CountersInv, hs, hlen, hrem, hpos]
  | plateauEnds hs hn =>
    simp only [CountersReady, CountersInv, hs] at hcounters
    obtain ⟨hlen, -, hrem, hpos⟩ := hcounters
    refine demInv_running nofun h.cause h.fstate ?_ (by simp [hn]) h.cnt_le
    simp only [CountersInv, setDem_dem]
    omega
  | countsDown hn hs =>
    have hrem := h.rem_le
    refine demInv_running ?_ h.cause h.fstate ?_ (by simp only [setDem_dem]; omega) h.cnt_le
    · rcases hs with hs | hs | ⟨hs, -⟩ <;> simp [hs]
    · rcases hs with hs | hs | ⟨hs, hn1⟩ <;>
      · simp only [CountersReady, hs] at hcounters
        simp only [CountersInv, setDem_dem, hs]
        omega
  | synchronises hs hr =>
    simp only [CountersReady, hs] at hcounters
    obtain ⟨hlen, htime, hpos⟩ := hcounters
    refine demInv_running nofun h.cause h.fstate ⟨rfl, ?_, 0, ?_⟩ (Nat.zero_le _) h.cnt_le
    · simp only [setDem_dem]; omega
    · simp only [setDem_dem]; omega
  | redispatches hr hs _ ih => exact ih (h.reload hr hs) (h.reload hr hs).counters
  | @scores s x hs hp =>
    simp only [CountersReady, CountersInv, hs] at hcounters
    obtain ⟨hrem, hpos, emitted, ht⟩ := hcounters
    have hstate : (scoreSample x s).dem.state = .cls := hs
    refine demInv_running (hstate ▸ nofun) h.cause h.fstate ?_ h.rem_le (getCount_scoreSample_le h x)
    simp only [CountersInv, hstate]
    exact ⟨hrem, Nat.lt_of_le_of_ne hpos hp, emitted, congrArg (· + 1) ht⟩
  | @decides s x cs hs hp =>
    simp only [CountersReady, CountersInv, hs] at hcounters
    obtain ⟨hrem, hpos, emitted, ht⟩ := hcounters
    have hstate : (scoreSample x s).dem.state = .cls := hs
    refine demInv_running (hstate ▸ nofun) h.cause h.fstate ?_ h.rem_le fun k => (getCount_zeroCounts k).le
    simp only [CountersInv, setDem_dem, hstate]
    refine ⟨hrem, Nat.zero_lt_of_lt hpos, emitted + 1, ?_⟩
    calc s.dem.t + 1 = 4 * s.dem.symlen + s.dem.symlen * emitted + (s.dem.pos + 1) := by rw [ht, Nat.add_assoc]
      _ = 4 * s.dem.symlen + s.dem.symlen * (emitted + 1) + 0 := by rw [hp]; ring
  | @decisionFails s x cs n hs =>
    refine demInv_failed (d := (scoreSample x s).dem) h.rem_le (getCount_scoreSample_le h x) nofun ?_ nofun
    exact congrArg demFetches hs

theorem demTurn_demInv {start : Bool} {s t : State} (hinv : DemInv s.cfg s.dem) (h : demTurn start s = .next t) :
    DemInv s.cfg t.dem := by
  rcases demTurn_outcome h with ⟨-, rfl⟩ | ⟨-, rfl⟩ | ⟨-, hf, items, ho⟩
  · exact demInv_reset s.cfg
  · exact hinv
  · exact demInv_of_sampleOutcome (s := s.setEnv { s.env with smpSrc := items }) ho (ready_of_demInv hinv hf)

/-! ### The machine -/

theorem inv_resetUnits (s : State) : Inv (resetUnits s) :=
  ⟨modInv_reset s.cfg, demInv_reset s.cfg⟩

theorem modTurn_inv {start : Bool} {s t : State} (hinv : Inv s) (h : modTurn start s = .next t) : Inv t := by
  obtain ⟨hmod, hdem⟩ := hinv
  obtain ⟨items, ws, k, hf, -⟩ := modTurn_frame h
  have hcfg : t.cfg = s.cfg := hf.cfg
  have hsame : t.dem = s.dem := hf.dem
  refine ⟨?_, ?_⟩
  · rw [hcfg]; exact modTurn_modInv hmod h
  · rw [hcfg, hsame]; exact hdem

theorem demTurn_inv {start : Bool} {s t : State} (hinv : Inv s) (h : demTurn start s = .next t) : Inv t := by
  obtain ⟨hmod, hdem⟩ := hinv
  obtain ⟨items, cs, k, hf⟩ := demTurn_frame h
  have hcfg : t.cfg = s.cfg := hf.cfg
  have hsame : t.mod = s.mod := hf.mod
  refine ⟨?_, ?_⟩
  · rw [hcfg, hsame]; exact hmod
  · rw [hcfg]; exact demTurn_demInv hdem h

/-! ### The obligations -/

/-- Settles O35: both units' reset values meet their parts. -/
theorem invariantHoldsAtReset : Obligations.InvariantHoldsAtReset :=
  inv_resetUnits State.reset

/-- Settles O34: a turn of one unit keeps its own part, by its outcomes, and the other unit's part, by its frame. -/
theorem stepKeepsTheInvariant : Obligations.StepKeepsTheInvariant := by
  unfold Obligations.StepKeepsTheInvariant
  intro s t hinv h
  rcases step_cases h with ⟨-, rfl⟩ | ⟨rest, ⟨-, rfl⟩ | ⟨start, ⟨-, hm⟩ | ⟨-, hd⟩⟩⟩
  · exact hinv
  · exact inv_resetUnits (dropTurn rest s)
  · exact modTurn_inv (s := dropTurn rest s) hinv hm
  · exact demTurn_inv (s := dropTurn rest s) hinv hd

end Sys2Proof.Proofs.Invariant
end

section
/-!
SUPPORT. Proof of O48: a status word is a concatenation, and each of its fields is one of the parts.
-/

namespace Sys2Proof.Proofs.Status

open Sys2Proof Sys2Proof.Machine

/-- The middle part of three. -/
theorem extractLsb'_append_middle {u v w : ℕ} (high : BitVec u) (middle : BitVec v) (low : BitVec w) :
    (high ++ middle ++ low).extractLsb' w v = middle := by
  rw [BitVec.extractLsb'_append_eq_of_le (Nat.le_refl w), Nat.sub_self, BitVec.extractLsb'_append_eq_right]

/-- The fields of `MOD_STATUS` (R36), each found by skipping the parts below it. -/
theorem modStatus_fields (s : State) :
    (modStatus s).extractLsb' 0 2 = mStateCode s.mod.state ∧
      (modStatus s).getLsbD 2 = s.mod.held ∧
      (modStatus s).extractLsb' 3 1 = s.mod.bit ∧
      (modStatus s).extractLsb' 4 2 = causeCode s.mod.cause ∧
      (modStatus s).extractLsb' 6 2 = 0#2 := by
  have skipState {n len : ℕ} (h : 2 ≤ n) : (modStatus s).extractLsb' n len =
      (0#2 ++ causeCode s.mod.cause ++ s.mod.bit ++ BitVec.ofBool s.mod.held).extractLsb' (n - 2) len :=
    BitVec.extractLsb'_append_eq_of_le h
  refine ⟨BitVec.extractLsb'_append_eq_right, ?_, ?_, ?_, ?_⟩
  · calc (modStatus s).getLsbD 2
        = (0#2 ++ causeCode s.mod.cause ++ s.mod.bit ++ BitVec.ofBool s.mod.held).getLsbD 0 :=
          BitVec.getLsbD_append
      _ = (BitVec.ofBool s.mod.held).getLsbD 0 := BitVec.getLsbD_append
      _ = s.mod.held := by simp
  · rw [skipState (by decide)]
    exact extractLsb'_append_middle ..
  · rw [skipState (by decide), BitVec.extractLsb'_append_eq_of_le (by decide)]
    exact extractLsb'_append_middle ..
  · rw [skipState (by decide), BitVec.extractLsb'_append_eq_of_le (by decide),
      BitVec.extractLsb'_append_eq_of_le (by decide)]
    exact BitVec.extractLsb'_append_eq_left

/-- The fields of `DEM_STATUS` (R36). -/
theorem demStatus_fields (s : State) :
    (demStatus s).extractLsb' 0 3 = dStateCode s.dem.state ∧
      (demStatus s).extractLsb' 3 2 = causeCode s.dem.cause ∧
      (demStatus s).extractLsb' 5 3 = dStateCode s.dem.fstate :=
  ⟨BitVec.extractLsb'_append_eq_right, extractLsb'_append_middle ..,
    (BitVec.extractLsb'_append_eq_of_le (w := 3) (by decide)).trans BitVec.extractLsb'_append_eq_left⟩

/-! ### The predicates of R34 -/

theorem demSynced_iff_of_fail {s : State} (h : s.cfg.eosInSync = .fail) :
    demSynced s = true ↔ s.dem.state = .cls ∨ s.dem.state = .done := by
  simp [demSynced, h]

theorem demSynced_iff_of_normal {s : State} (h : s.cfg.eosInSync = .normal) :
    demSynced s = true ↔ s.dem.state = .cls := by
  simp [demSynced, h]

/-- Settles O48: the fields by their place in the concatenation, the code numbers by definition, the predicates by
the states they test. -/
theorem statusWordsShowTheRegisters : Obligations.StatusWordsShowTheRegisters := by
  unfold Obligations.StatusWordsShowTheRegisters
  refine ⟨fun s => ⟨modStatus_fields s, demStatus_fields s⟩, by decide, by decide, by decide, fun s => ?_⟩
  exact ⟨beq_iff_eq, beq_iff_eq, demSynced_iff_of_fail, demSynced_iff_of_normal, beq_iff_eq, beq_iff_eq⟩

end Sys2Proof.Proofs.Status
end

section
/-!
SUPPORT. Proofs of O40 and O41: what one turn does to the four streams of spec/20_memory.md. The frames of
`Sys2Proof.Proofs.Turns` say which streams a turn touches; here is what it reads from the front of its source, and
which characters it offers to `BITSINK`.
-/

namespace Sys2Proof.Proofs.Streams

open Sys2Proof Sys2Proof.Machine Sys2Proof.Laws Sys2Proof.Proofs.Turns

/-! ### Sources -/

/-- `ReadAtMostOne before after`: a source is as it was or has lost exactly its first item (R52). -/
def ReadAtMostOne {α : Type} (before after : List α) : Prop :=
  after = before ∨ ∃ item, before = item :: after

theorem modTurn_reads {start : Bool} {s t : State} (h : modTurn start s = .next t) :
    ReadAtMostOne s.env.bitSrc t.env.bitSrc ∧ t.env.smpSrc = s.env.smpSrc := by
  rcases modTurn_cases h with ⟨-, -, he⟩ | ⟨-, rfl⟩ | ⟨-, -, -, item, items, hsrc, hi, he⟩
  · obtain ⟨ws, k, hf⟩ := execModStart_frame he
    exact ⟨.inl (by rw [hf.env]), by rw [hf.env]⟩
  · exact ⟨.inl rfl, rfl⟩
  · obtain ⟨ws, k, hf, -⟩ := execBitOp_frame hi he
    exact ⟨.inr ⟨item, by rw [hf.env]; exact hsrc⟩, by rw [hf.env]; rfl⟩

theorem demTurn_reads {start : Bool} {s t : State} (h : demTurn start s = .next t) :
    ReadAtMostOne s.env.smpSrc t.env.smpSrc ∧ t.env.bitSrc = s.env.bitSrc := by
  rcases demTurn_cases h with ⟨-, -, rfl⟩ | ⟨-, rfl⟩ | ⟨-, -, -, item, items, i, hsrc, hi, he⟩
  · exact ⟨.inl rfl, rfl⟩
  · exact ⟨.inl rfl, rfl⟩
  · obtain ⟨cs, k, hf⟩ := (exec_sampleOutcome (s := s.setEnv { s.env with smpSrc := items }) hi he).frame
    exact ⟨.inr ⟨item, by rw [hf.env]; exact hsrc⟩, by rw [hf.env]; rfl⟩

/-- Settles O41: each unit's turn reads its own source, and the frame keeps the other one. -/
theorem sourcesAreReadInOrder : Obligations.SourcesAreReadInOrder := by
  unfold Obligations.SourcesAreReadInOrder
  intro s t h
  rcases step_cases h with ⟨-, rfl⟩ | ⟨rest, ⟨-, rfl⟩ | ⟨start, ⟨-, hm⟩ | ⟨-, hd⟩⟩⟩
  · exact ⟨.inl rfl, .inl rfl⟩
  · exact ⟨.inl rfl, .inl rfl⟩
  · obtain ⟨hread, hkept⟩ := modTurn_reads hm
    exact ⟨hread, .inl hkept⟩
  · obtain ⟨hread, hkept⟩ := demTurn_reads hd
    exact ⟨.inl hkept, hread⟩

/-! ### Characters offered to `BITSINK` -/

/-- The characters of R73: the two bits and the newline. -/
def OutputChar (c : Char8) : Prop :=
  c = 0x30#8 ∨ c = 0x31#8 ∨ c = 0x0A#8

theorem outputChar_firstChar : ∀ k : Symbol, OutputChar (firstChar k) := by
  unfold OutputChar; decide

theorem outputChar_secondChar : ∀ k : Symbol, OutputChar (secondChar k) := by
  unfold OutputChar; decide

theorem outputChar_newline : OutputChar newline := .inr (.inr rfl)

/-- `BITSINK` has received what it had, and then only characters of R73. -/
def BitSinkGrows (s t : State) : Prop :=
  ∃ cs : List Char8, t.env.bitSink = s.env.bitSink ++ cs ∧ ∀ c ∈ cs, OutputChar c

theorem bitSinkGrows_of_eq {s t : State} (h : t.env.bitSink = s.env.bitSink) : BitSinkGrows s t :=
  ⟨[], by simp [h], by simp⟩

theorem finishDem_grows {s t : State} (h : flowResult (finishDem s) = .next t) : BitSinkGrows s t := by
  rcases finishDem_cases s with he | he <;> rw [he] at h <;> cases h
  · exact ⟨[newline], rfl, by simpa using outputChar_newline⟩
  · exact ⟨[], rfl, by simp⟩

theorem decidePeriod_grows {s t : State} (h : flowResult (decidePeriod s) = .next t) : BitSinkGrows s t := by
  have hfirst := outputChar_firstChar (winner s.dem.cnt)
  have hsecond := outputChar_secondChar (winner s.dem.cnt)
  rcases decidePeriod_cases s with he | he | he <;> rw [he] at h <;> cases h
  · exact ⟨_, rfl, by simp [hfirst, hsecond]⟩
  · exact ⟨[], rfl, by simp⟩
  · exact ⟨_, rfl, by simp [hfirst]⟩

/-! ### The operations that offer none -/

theorem execSyncInit_env {x : Int} {s t : State} (h : exec (.syncInit x) s = .next t) : t.env = s.env := by
  simp only [exec, execSyncInit] at h
  split at h <;> cases h <;> rfl

theorem execSyncFz_env {x : Int} {s t : State} (h : exec (.syncFz x) s = .next t) : t.env = s.env := by
  simp only [exec, execSyncFz] at h
  split at h
  · cases h; rfl
  · split at h
    · split at h <;> cases h
      rfl
    · cases h; rfl

theorem execSyncSo_env {x : Int} {s t : State} (h : exec (.syncSo x) s = .next t) : t.env = s.env := by
  simp only [exec, execSyncSo] at h
  split at h
  · split at h <;> cases h <;> rfl
  · cases h; rfl

theorem execSyncSz_env {x : Int} {s t : State} (h : exec (.syncSz x) s = .next t) : t.env = s.env := by
  simp only [exec, execSyncSz] at h
  split at h
  · exact execSyncSo_env (s := reload .so s) h
  · split at h <;> cases h <;> rfl

theorem execSyncFo_env {x : Int} {s t : State} (h : exec (.syncFo x) s = .next t) : t.env = s.env := by
  simp only [exec, execSyncFo] at h
  split at h
  · exact execSyncSz_env (s := reload .sz s) h
  · split at h <;> cases h <;> rfl

/-! ### Sinks -/

/-- An operation that `DEM` fetches offers only characters of R73: the newline at an end of stream, the winner's two
bits at the end of a period. -/
theorem execSampleOp_grows {d : DState} {i : Instr} {s t : State} (hi : SampleOp d i) (h : exec i s = .next t) :
    BitSinkGrows s t := by
  cases hi with
  | rdfail => cases h; exact bitSinkGrows_of_eq rfl
  | syncEos =>
    simp only [exec, execSyncEos] at h
    split at h
    · cases h; exact bitSinkGrows_of_eq rfl
    · exact finishDem_grows h
  | clsEos => exact finishDem_grows h
  | init x => exact bitSinkGrows_of_eq (by rw [execSyncInit_env h])
  | fz x => exact bitSinkGrows_of_eq (by rw [execSyncFz_env h])
  | fo x => exact bitSinkGrows_of_eq (by rw [execSyncFo_env h])
  | sz x => exact bitSinkGrows_of_eq (by rw [execSyncSz_env h])
  | so x => exact bitSinkGrows_of_eq (by rw [execSyncSo_env h])
  | cls x =>
    rw [execClsSample_eq] at h
    split at h
    · exact decidePeriod_grows (s := scoreSample x s) h
    · cases h; exact bitSinkGrows_of_eq rfl

theorem demTurn_grows {start : Bool} {s t : State} (h : demTurn start s = .next t) : BitSinkGrows s t := by
  rcases demTurn_cases h with ⟨-, -, rfl⟩ | ⟨-, rfl⟩ | ⟨-, -, -, item, items, i, -, hi, he⟩
  · exact bitSinkGrows_of_eq rfl
  · exact bitSinkGrows_of_eq rfl
  · exact execSampleOp_grows (s := s.setEnv { s.env with smpSrc := items }) hi he

/-- Settles O40: a turn of `MOD` appends words and keeps `BITSINK`; a turn of `DEM` keeps `SMPSINK` and appends
characters of R73. -/
theorem sinksOnlyGrow : Obligations.SinksOnlyGrow := by
  unfold Obligations.SinksOnlyGrow
  intro s t h
  rcases step_cases h with ⟨-, rfl⟩ | ⟨rest, ⟨-, rfl⟩ | ⟨start, ⟨-, hm⟩ | ⟨-, hd⟩⟩⟩
  · exact ⟨⟨[], by simp⟩, bitSinkGrows_of_eq rfl⟩
  · exact ⟨⟨[], by simp⟩, bitSinkGrows_of_eq rfl⟩
  · obtain ⟨items, ws, k, hf, -⟩ := modTurn_frame hm
    exact ⟨⟨ws, by rw [hf.env]; rfl⟩, bitSinkGrows_of_eq (by rw [hf.env]; rfl)⟩
  · obtain ⟨items, cs, k, hf⟩ := demTurn_frame hd
    exact ⟨⟨[], by rw [hf.env]; simp⟩, demTurn_grows (s := dropTurn rest s) hd⟩

end Sys2Proof.Proofs.Streams
end

section
/-!
SUPPORT. Proof of O39. A turn of `MOD` computes the same whatever stands on `DEM`'s side of the state, and the other
way round; so each of the two turns can be taken from the state before both, and their results put side by side.
-/

namespace Sys2Proof.Proofs.Independence

open Sys2Proof Sys2Proof.Machine Sys2Proof.Laws Sys2Proof.Proofs.Scope Sys2Proof.Proofs.Turns

/-! ### Operations that commute with a change of the state -/

/-- A change of the next state; a fault or a refusal stays. -/
def onNext (f : State → State) : Result → Result
  | .next s => .next (f s)
  | .fault r => .fault r
  | .refused r => .refused r

/-- A change of the state a part of a step leaves. -/
def onFlow (f : State → State) : Flow → Flow
  | .goOn s => .goOn (f s)
  | .raised s => .raised (f s)

/-- The operation `op` neither reads nor writes what `f` changes. -/
def Commutes (f : State → State) (op : State → Result) : Prop :=
  ∀ s, op (f s) = onNext f (op s)

/-- The same of a part of a step. -/
def FlowCommutes (f : State → State) (part : State → Flow) : Prop :=
  ∀ s, part (f s) = onFlow f (part s)

section Parts
variable {f : State → State} {part next : State → Flow}

theorem FlowCommutes.andThen (hp : FlowCommutes f part) (hn : FlowCommutes f next) :
    FlowCommutes f fun s => flowThen (part s) next := by
  intro s
  simp only [hp s]
  cases part s with
  | goOn s1 => exact hn s1
  | raised s1 => rfl

theorem FlowCommutes.result (hp : FlowCommutes f part) : Commutes f fun s => flowResult (part s) := by
  intro s
  simp only [hp s]
  cases part s <;> rfl

end Parts

theorem guarded_onNext (f : State → State) (wf : Bool) (r : Result) :
    guarded wf (onNext f r) = onNext f (guarded wf r) := by
  cases wf <;> rfl

/-! ### The two sides of a state -/

/-- `MOD`'s side of `s` (its registers, `BITSRC` and `SMPSINK`, under its constants) beside the rest of `u`. -/
def besideDem (u s : State) : State where
  cfg := s.cfg
  mod := s.mod
  dem := u.dem
  env := { u.env with bitSrc := s.env.bitSrc, smpSink := s.env.smpSink, smpAnswers := s.env.smpAnswers }

/-- `DEM`'s side of `s` (its registers, `SMPSRC` and `BITSINK`, under its constants) beside the rest of `u`. -/
def besideMod (u s : State) : State where
  cfg := s.cfg
  mod := u.mod
  dem := s.dem
  env := { u.env with smpSrc := s.env.smpSrc, bitSink := s.env.bitSink, bitAnswers := s.env.bitAnswers }

/-! ### `MOD` does not look at `DEM`'s side -/

section Mod
variable (u : State)

theorem genOne_commutes (ss : Symbol) : FlowCommutes (besideDem u) (genOne ss) := by
  intro s
  rcases h : s.env.smpAnswers.headD .ok with _ | _
  · rw [genOne_ok h, genOne_ok (s := besideDem u s) h]; rfl
  · rw [genOne_fail h, genOne_fail (s := besideDem u s) h]; rfl

theorem genLoop_commutes (ss : Symbol) (n : Nat) : FlowCommutes (besideDem u) (genLoop ss n) := by
  induction n with
  | zero => exact fun _ => rfl
  | succ n ih => exact (genOne_commutes u ss).andThen ih

theorem generate_commutes (ss : Symbol) : FlowCommutes (besideDem u) (generate ss) :=
  fun s => genLoop_commutes u ss s.cfg.symbolLen s

theorem generateAll_commutes (l : List Symbol) : FlowCommutes (besideDem u) (generateAll l) := by
  induction l with
  | nil => exact fun _ => rfl
  | cons ss l ih => exact (generate_commutes u ss).andThen ih

theorem consumeBit_commutes (b : BitVec 1) : FlowCommutes (besideDem u) (consumeBit b) := by
  intro s
  have hheld : (besideDem u s).mod.held = s.mod.held := rfl
  unfold consumeBit
  rw [hheld]
  split
  · exact generate_commutes u _ (s.setMod { s.mod with held := false, bit := 0#1 })
  · rfl

theorem execModStart_commutes : Commutes (besideDem u) (exec .modStart) :=
  FlowCommutes.result <| FlowCommutes.andThen (fun s => generateAll_commutes u preamble (clearMod s)) fun _ => rfl

theorem execBitOp_commutes {i : Instr} (hi : BitOp i) : Commutes (besideDem u) (exec i) := by
  cases hi with
  | rdfail | eos | stop => exact fun _ => rfl
  | bit0 => exact (consumeBit_commutes u 0#1).result
  | bit1 => exact (consumeBit_commutes u 1#1).result

theorem modFetches_of_ne_run {m : MState} (h : m ≠ .run) : modFetches m = false := by
  cases m with
  | run => exact absurd rfl h
  | idle | done | failed => rfl

theorem modTurn_idle {s : State} (h : s.mod.state ≠ .run ∨ s.env.bitSrc = []) : modTurn false s = .next s := by
  rcases h with h | h
  · simp [modTurn, modFetches_of_ne_run h]
  · simp [modTurn, srcReadBit, h]

theorem modTurn_commutes (start : Bool) : Commutes (besideDem u) (modTurn start) := by
  intro s
  cases start with
  | true =>
    rw [modTurn_strobe, modTurn_strobe, execModStart_commutes u, guarded_onNext]
    rfl
  | false =>
    by_cases h : s.mod.state ≠ .run ∨ s.env.bitSrc = []
    · rw [modTurn_idle h, modTurn_idle (s := besideDem u s) h]
      rfl
    · obtain ⟨hrun, hoffered⟩ := not_or.mp h
      have hrun : s.mod.state = .run := not_not.mp hrun
      obtain ⟨item, items, hsrc⟩ := List.exists_cons_of_ne_nil hoffered
      rw [modTurn_item hrun hsrc, modTurn_item (s := besideDem u s) hrun hsrc, ← guarded_onNext,
        ← execBitOp_commutes u (decodeBit_bitOp item)]
      rfl

end Mod

/-! ### `DEM` does not look at `MOD`'s side -/

section Dem
variable (u : State)

theorem writeChar_commutes (c : Char8) : FlowCommutes (besideMod u) (writeChar c) := by
  intro s
  rcases h : s.env.bitAnswers.headD .ok with _ | _
  · rw [writeChar_ok h, writeChar_ok (s := besideMod u s) h]; rfl
  · rw [writeChar_fail h, writeChar_fail (s := besideMod u s) h]; rfl

theorem decidePeriod_commutes : FlowCommutes (besideMod u) decidePeriod := fun s =>
  (writeChar_commutes u (firstChar (winner s.dem.cnt))).andThen
    ((writeChar_commutes u (secondChar (winner s.dem.cnt))).andThen fun _ => rfl) s

theorem finishDem_commutes : FlowCommutes (besideMod u) finishDem :=
  (writeChar_commutes u newline).andThen fun _ => rfl

/-- The phase test reads the sample, `D_T` and the constants. -/
theorem matchesNow_besideMod (s : State) (k : Symbol) (x : Int) :
    matchesNow (besideMod u s) k x = matchesNow s k x := rfl

theorem besideMod_dem (s : State) : (besideMod u s).dem = s.dem := rfl

theorem execSyncInit_commutes (x : Int) : Commutes (besideMod u) (exec (.syncInit x)) := by
  intro s
  simp only [exec, execSyncInit]
  rw [matchesNow_besideMod]
  cases matchesNow s 0#2 x <;> rfl

theorem execSyncFz_commutes (x : Int) : Commutes (besideMod u) (exec (.syncFz x)) := by
  intro s
  simp only [exec, execSyncFz, besideMod_dem]
  rw [matchesNow_besideMod, matchesNow_besideMod]
  cases matchesNow s 0#2 x with
  | true => rfl
  | false =>
    cases matchesNow s 3#2 x with
    | true => cases s.dem.symlen <;> rfl
    | false => rfl

theorem execSyncSo_commutes (x : Int) : Commutes (besideMod u) (exec (.syncSo x)) := by
  intro s
  simp only [exec, execSyncSo, besideMod_dem]
  rw [matchesNow_besideMod]
  cases matchesNow s 3#2 x with
  | true => rcases s.dem.rem with _ | _ | n <;> rfl
  | false => rfl

theorem execSyncSz_commutes (x : Int) : Commutes (besideMod u) (exec (.syncSz x)) := by
  intro s
  simp only [exec, execSyncSz, besideMod_dem]
  rw [matchesNow_besideMod]
  cases s.dem.rem with
  | zero => exact execSyncSo_commutes u x (reload .so s)
  | succ n => cases matchesNow s 0#2 x <;> rfl

theorem execSyncFo_commutes (x : Int) : Commutes (besideMod u) (exec (.syncFo x)) := by
  intro s
  simp only [exec, execSyncFo, besideMod_dem]
  rw [matchesNow_besideMod]
  cases s.dem.rem with
  | zero => exact execSyncSz_commutes u x (reload .sz s)
  | succ n => cases matchesNow s 3#2 x <;> rfl

theorem execSyncEos_commutes : Commutes (besideMod u) (exec .syncEos) := by
  intro s
  have hcfg : (besideMod u s).cfg = s.cfg := rfl
  simp only [exec, execSyncEos, hcfg]
  cases s.cfg.eosInSync with
  | fail => rfl
  | normal => exact (finishDem_commutes u).result s

theorem execClsSample_commutes (x : Int) : Commutes (besideMod u) (exec (.clsSample x)) := by
  intro s
  by_cases h : s.dem.pos + 1 = s.dem.symlen
  · rw [execClsSample_eq, execClsSample_eq, if_pos h, if_pos (by exact h)]
    exact (decidePeriod_commutes u).result (scoreSample x s)
  · rw [execClsSample_eq, execClsSample_eq, if_neg h, if_neg (by exact h)]
    rfl

theorem execSampleOp_commutes {d : DState} {i : Instr} (hi : SampleOp d i) : Commutes (besideMod u) (exec i) := by
  cases hi with
  | rdfail => exact fun _ => rfl
  | syncEos => exact execSyncEos_commutes u
  | clsEos => exact (finishDem_commutes u).result
  | init x => exact execSyncInit_commutes u x
  | fz x => exact execSyncFz_commutes u x
  | fo x => exact execSyncFo_commutes u x
  | sz x => exact execSyncSz_commutes u x
  | so x => exact execSyncSo_commutes u x
  | cls x => exact execClsSample_commutes u x

/-- Running what the decoder answers for a sample item, a rejection included. -/
theorem runDecodedSample_commutes (w : Nat) (d : DState) (item : SampleItem) :
    Commutes (besideMod u) (runDecoded (decodeSample w d item)) := by
  cases h : decodeSample w d item with
  | ok i => exact execSampleOp_commutes u (decodeSample_sampleOp h)
  | error r => cases r <;> exact fun _ => rfl

theorem demTurn_idle {s : State} (h : demFetches s.dem.state = false ∨ s.env.smpSrc = []) :
    demTurn false s = .next s := by
  rcases h with h | h <;> simp [demTurn, srcReadSample, h]

theorem demTurn_commutes (start : Bool) : Commutes (besideMod u) (demTurn start) := by
  intro s
  cases start with
  | true =>
    rw [demTurn_strobe, demTurn_strobe, ← guarded_onNext]
    rfl
  | false =>
    by_cases h : demFetches s.dem.state = false ∨ s.env.smpSrc = []
    · rw [demTurn_idle h, demTurn_idle (s := besideMod u s) h]
      rfl
    · obtain ⟨hfetch, hoffered⟩ := not_or.mp h
      have hfetch : demFetches s.dem.state = true := Bool.not_eq_false _ ▸ hfetch
      obtain ⟨item, items, hsrc⟩ := List.exists_cons_of_ne_nil hoffered
      rw [demTurn_item hfetch hsrc, demTurn_item (s := besideMod u s) hfetch hsrc, ← guarded_onNext,
        ← runDecodedSample_commutes u]
      rfl

end Dem

/-! ### The obligation -/

/-- Under a well-formed configuration a turn of `MOD` never stops the machine. -/
theorem modTurn_answers_next {s : State} (hwf : s.cfg.wellFormedMod = true) (start : Bool) :
    ∃ t, modTurn start s = .next t := by
  cases start with
  | true =>
    rw [modTurn_strobe, hwf]
    rcases execModStart_cases s with ⟨ws, -, he⟩ | ⟨ws, -, he⟩ <;> exact ⟨_, he⟩
  | false =>
    by_cases h : s.mod.state ≠ .run ∨ s.env.bitSrc = []
    · exact ⟨s, modTurn_idle h⟩
    · obtain ⟨hrun, hoffered⟩ := not_or.mp h
      obtain ⟨item, items, hsrc⟩ := List.exists_cons_of_ne_nil hoffered
      rw [modTurn_item (not_not.mp hrun) hsrc, hwf]
      rcases execBitOp_cases (decodeBit_bitOp item) (s.setEnv { s.env with bitSrc := items }) with
        he | he | ⟨-, b, he⟩ | ⟨-, ws, -, he⟩ | ⟨-, ws, -, he⟩ <;> exact ⟨_, he⟩

theorem run_succ_of_next {s t : State} (n : ℕ) (h : step s = .next t) :
    Sys2Proof.core.run (n + 1) s = Sys2Proof.core.run n t := by
  have hs : Sys2Proof.core.step s = .next t := h
  simp only [Host.Core.run, hs]

theorem run_succ_of_fault {s : State} {r : Fault} (n : ℕ) (h : step s = .fault r) :
    Sys2Proof.core.run (n + 1) s = .fault r := by
  have hs : Sys2Proof.core.step s = .fault r := h
  simp only [Host.Core.run, hs]

theorem run_succ_of_refused {s : State} {r : Refusal} (n : ℕ) (h : step s = .refused r) :
    Sys2Proof.core.run (n + 1) s = .refused r := by
  have hs : Sys2Proof.core.step s = .refused r := h
  simp only [Host.Core.run, hs]

theorem run_one (s : State) : Sys2Proof.core.run 1 s = step s := by
  cases h : step s with
  | next t => exact run_succ_of_next 0 h
  | fault r => exact run_succ_of_fault 0 h
  | refused r => exact run_succ_of_refused 0 h

theorem run_two_of_next {s t : State} (h : step s = .next t) : Sys2Proof.core.run 2 s = step t :=
  (run_succ_of_next 1 h).trans (run_one t)

/-- `s` with a schedule. -/
def scheduled (turns : List Turn) (s : State) : State :=
  { s with env := { s.env with turns := turns } }

section Orders
variable {s t : State} {a b : Bool}

/-- The schedule stands outside `MOD`'s side, so a scheduled turn answers what the turn answers from `s`. -/
theorem step_mod_scheduled (a : Bool) (turns : List Turn) (s : State) :
    step (scheduled (.mod a :: turns) s) = onNext (besideDem (scheduled turns s)) (modTurn a s) :=
  modTurn_commutes (scheduled turns s) a s

theorem step_dem_scheduled (b : Bool) (turns : List Turn) (s : State) :
    step (scheduled (.dem b :: turns) s) = onNext (besideMod (scheduled turns s)) (demTurn b s) :=
  demTurn_commutes (scheduled turns s) b s

/-- `DEM`'s turn after `MOD`'s: it finds its own side as `s` has it. -/
theorem run_mod_dem (hm : modTurn a s = .next t) :
    Sys2Proof.core.run 2 (scheduled (.mod a :: .dem b :: s.env.turns) s) = onNext (besideMod t) (demTurn b s) := by
  obtain ⟨items, ws, k, hf, -⟩ := modTurn_frame hm
  have hfirst : step (scheduled (.mod a :: .dem b :: s.env.turns) s) =
      .next (besideDem (scheduled (.dem b :: s.env.turns) s) t) := by
    rw [step_mod_scheduled, hm, onNext]
  have hbetween : dropTurn s.env.turns (besideDem (scheduled (.dem b :: s.env.turns) s) t) = besideMod t s := by
    simp [dropTurn, State.setEnv, besideDem, besideMod, scheduled, hf.cfg, hf.env]
  refine (run_two_of_next hfirst).trans ?_
  calc step (besideDem (scheduled (.dem b :: s.env.turns) s) t)
      = demTurn b (besideMod t s) := by rw [step_cons rfl, hbetween, takeTurn]
    _ = onNext (besideMod t) (demTurn b s) := demTurn_commutes t b s

/-- `MOD`'s turn after `DEM`'s. A turn of `DEM` that stops the machine stops it here before `MOD`'s, and there after
it, with the same reason. -/
theorem run_dem_mod (hm : modTurn a s = .next t) :
    Sys2Proof.core.run 2 (scheduled (.dem b :: .mod a :: s.env.turns) s) = onNext (besideMod t) (demTurn b s) := by
  have hfirst := step_dem_scheduled b (.mod a :: s.env.turns) s
  cases hd : demTurn b s with
  | fault r => rw [hd] at hfirst; exact run_succ_of_fault 1 hfirst
  | refused r => rw [hd] at hfirst; exact run_succ_of_refused 1 hfirst
  | next u =>
    rw [hd, onNext] at hfirst
    obtain ⟨_, _, _, hmod, -⟩ := modTurn_frame hm
    obtain ⟨_, _, _, hdem⟩ := demTurn_frame hd
    have hbetween : dropTurn s.env.turns (besideMod (scheduled (.mod a :: s.env.turns) s) u) = besideDem u s := by
      simp [dropTurn, State.setEnv, besideDem, besideMod, scheduled, hdem.cfg, hdem.env]
    have hsides : besideDem u t = besideMod t u := by
      simp [besideDem, besideMod, hmod.cfg, hmod.env, hdem.cfg, hdem.env]
    refine (run_two_of_next hfirst).trans ?_
    calc step (besideMod (scheduled (.mod a :: s.env.turns) s) u)
        = modTurn a (besideDem u s) := by rw [step_cons rfl, hbetween, takeTurn]
      _ = .next (besideDem u t) := by rw [modTurn_commutes, hm, onNext]
      _ = .next (besideMod t u) := by rw [hsides]

end Orders

/-- Settles O39: in either order both turns give what they give from the state before them, side by side. -/
theorem orderOfTheUnitsCannotBeObserved : Obligations.OrderOfTheUnitsCannotBeObserved := by
  unfold Obligations.OrderOfTheUnitsCannotBeObserved
  intro s rest a b hwf
  obtain ⟨t, hm⟩ := modTurn_answers_next (s := dropTurn rest s) hwf a
  exact (run_mod_dem hm).trans (run_dem_mod hm).symm

end Sys2Proof.Proofs.Independence
end

section
/-!
SUPPORT. Proofs of O1 to O4 and O8, the encoding of spec/30_encoding.md: the round trip assembled from its operations,
and the tables R83 and R84 read off the number that an item spells.
-/

namespace Sys2Proof.Proofs.Encoding

open Sys2Proof Sys2Proof.Machine Sys2Proof.Laws Sys2Proof.Proofs.Scope Sys2Proof.Proofs.Independence

/-! ### Decode of encode -/

/-- Every operation comes back from its selector, in the unit states that select it. -/
theorem decode_encode : ∀ i : Instr, RoundTrip.Statement i
  | .modStart => RoundTrip.modStart
  | .modRdfail => RoundTrip.modRdfail
  | .modEos => RoundTrip.modEos
  | .modBit0 => RoundTrip.modBit0
  | .modBit1 => RoundTrip.modBit1
  | .modStop ch => RoundTrip.modStop ch
  | .gen ss => RoundTrip.gen ss
  | .demStart => RoundTrip.demStart
  | .demRdfail => RoundTrip.demRdfail
  | .syncEos => RoundTrip.syncEos
  | .clsEos => RoundTrip.clsEos
  | .syncInit x => RoundTrip.syncInit x
  | .syncFz x => RoundTrip.syncFz x
  | .syncFo x => RoundTrip.syncFo x
  | .syncSz x => RoundTrip.syncSz x
  | .syncSo x => RoundTrip.syncSo x
  | .clsSample x => RoundTrip.clsSample x
  | .clsDecide => RoundTrip.clsDecide

/-- Settles O1, operation by operation. -/
theorem decodeOfEncodeIsTheOperation : Obligations.DecodeOfEncodeIsTheOperation := by
  unfold Obligations.DecodeOfEncodeIsTheOperation
  exact fun w m d i => decode_encode i w m d

/-! ### `SI` items -/

section Sample

variable {w item : ℕ} {d : DState}

/-- R79: the two halves of the `W`-bit words, the upper one read as negative. -/
theorem sintW_eq_ite (hw : 1 ≤ w) (h : item < 2 ^ w) :
    sintW w item = if item < 2 ^ (w - 1) then (item : ℤ) else (item : ℤ) - 2 ^ w := by
  have hhalf : 2 * 2 ^ (w - 1) = 2 ^ w := mul_pow_sub_one (by omega) 2
  have hsign : 2 * item < 2 ^ w ↔ item < 2 ^ (w - 1) := by omega
  rw [sintW, BitVec.toInt_eq_toNat_cond, BitVec.toNat_ofNat, Nat.mod_eq_of_lt h]
  simp only [hsign, Nat.cast_pow, Nat.cast_ofNat]

theorem demFetches_iff : demFetches d = true ↔ d ≠ .done ∧ d ≠ .failed := by
  cases d <;> decide

/-- In `DONE` and `FAILED` no item is decoded. -/
theorem decodeSample_halted (hd : demFetches d = false) (h : item < 4 * 2 ^ w) :
    decodeSample w d item = .error .unitHalted := by
  have hitem : ¬ 2 ^ (w + 2) ≤ item := by rw [pow_add_two]; omega
  simp [decodeSample, hitem, hd]

end Sample

/-- Settles O3: the rows of R84 are the ranges of the item's number, and `D_STATE` picks the operation in a row. -/
theorem sampleItemsDecodeByTheTable : Obligations.SampleItemsDecodeByTheTable := by
  unfold Obligations.SampleItemsDecodeByTheTable
  intro w m d item hw
  refine ⟨fun hhalted hitem => decodeSample_halted ?_ hitem,
    fun hdone hfailed hlow hhigh => decodeSample_fail hlow hhigh (demFetches_iff.mpr ⟨hdone, hfailed⟩),
    fun hdone hfailed hlow hhigh => decodeSample_eos hlow hhigh (demFetches_iff.mpr ⟨hdone, hfailed⟩), ?_⟩
  · rcases hhalted with rfl | rfl <;> rfl
  · intro hdata x hx
    obtain rfl : sintW w item = x := (sintW_eq_ite hw hdata).trans hx.symm
    have hrow := decodeSample_data (d := d) hdata
    refine ⟨?_, ?_, ?_, ?_, ?_, ?_⟩ <;> (rintro rfl; exact hrow)

/-! ### `BI` items -/

section Bit

variable {item : BitItem}

/-- The `st` field of a `BI` item lies above 8 bits (R70), as that of an `SI` item lies above `W` (R71). -/
theorem bitStatus_eq (item : BitItem) : item.extractLsb' 8 2 = sampleStatus 8 item.toNat := by
  rw [BitVec.extractLsb', sampleStatus, Nat.shiftRight_eq_div_pow]

theorem bitChar_eq (item : BitItem) : item.extractLsb' 0 8 = BitVec.ofNat 8 item.toNat := by
  rw [BitVec.extractLsb', Nat.shiftRight_zero]

/-- The character field of a `DATA` item, compared with a character by the numbers they spell. -/
theorem bitChar_eq_iff (h : item.toNat < 0x100) (ch : Char8) :
    BitVec.ofNat 8 item.toNat = ch ↔ item.toNat = ch.toNat := by
  rw [← BitVec.toNat_inj, BitVec.toNat_ofNat, Nat.mod_eq_of_lt h]

/-- A failed read is `MOD.RDFAIL`. -/
theorem decodeBit_fail (h : 0x200 ≤ item.toNat) : decodeBit item = .modRdfail := by
  have hst := sampleStatus_fail (w := 8) h item.isLt
  simp [decodeBit, bitStatus_eq, hst]

/-- The end of the stream is `MOD.EOS`. -/
theorem decodeBit_eos (hlow : 0x100 ≤ item.toNat) (hhigh : item.toNat < 0x200) : decodeBit item = .modEos := by
  have hst := sampleStatus_eos (w := 8) hlow hhigh
  simp [decodeBit, bitStatus_eq, hst]

/-- A character is one of the two bits, or it stops the run. -/
theorem decodeBit_data (h : item.toNat < 0x100) :
    decodeBit item =
      if item.toNat = 0x30 then .modBit0
      else if item.toNat = 0x31 then .modBit1
      else .modStop (BitVec.ofNat 8 item.toNat) := by
  have hst := sampleStatus_data (w := 8) h
  have h0 : BitVec.ofNat 8 item.toNat = char0 ↔ item.toNat = 0x30 := bitChar_eq_iff h char0
  have h1 : BitVec.ofNat 8 item.toNat = char1 ↔ item.toNat = 0x31 := bitChar_eq_iff h char1
  have hfield : (0b00#2).getLsbD 1 = false := rfl
  have heos : ¬ 0b00#2 = 0b01#2 := by decide
  simp only [decodeBit, bitStatus_eq, bitChar_eq, hst, hfield, heos, h0, h1, Bool.false_eq_true, if_false]

/-- The table of R83, first row that applies. -/
theorem decodeBit_eq_table (item : BitItem) :
    decodeBit item =
      if 0x200 ≤ item.toNat then .modRdfail
      else if 0x100 ≤ item.toNat then .modEos
      else if item.toNat = 0x30 then .modBit0
      else if item.toNat = 0x31 then .modBit1
      else .modStop (BitVec.ofNat 8 item.toNat) := by
  by_cases hfail : 0x200 ≤ item.toNat
  · rw [if_pos hfail, decodeBit_fail hfail]
  · rw [if_neg hfail]
    by_cases heos : 0x100 ≤ item.toNat
    · rw [if_pos heos, decodeBit_eos heos (not_le.mp hfail)]
    · rw [if_neg heos, decodeBit_data (not_le.mp heos)]

theorem decode_bitItem_run (w : ℕ) (d : DState) (item : BitItem) :
    decode w .run d (.bitItem item) = .ok (decodeBit item) := rfl

theorem decode_bitItem_halted {m : MState} (hm : m ≠ .run) (w : ℕ) (d : DState) (item : BitItem) :
    decode w m d (.bitItem item) = .error .unitHalted := by
  simp [decode, modFetches_of_ne_run hm]

end Bit

/-- Settles O2: only `RUN` decodes, and there the decoder is the table of R83. -/
theorem bitItemsDecodeByTheTable : Obligations.BitItemsDecodeByTheTable := by
  unfold Obligations.BitItemsDecodeByTheTable
  intro w m d item
  refine ⟨fun hm => decode_bitItem_halted hm w d item, ?_⟩
  rintro rfl
  rw [decode_bitItem_run, decodeBit_eq_table]

/-! ### Items written out -/

/-- The table word of a `BI` item is decoded with `MOD` in `RUN` (log entry 7). -/
theorem decodeTableWord_bitItem {word : ℕ} (h : word < 2 ^ 10) :
    decodeTableWord 16 word = some (decodeBit (BitVec.ofNat 10 word)) := by
  have hsel : tableSelector 16 word = some (.bitItem (BitVec.ofNat 10 word)) := if_pos h
  simp only [decodeTableWord, hsel, decode_bitItem_run]

/-- Settles O4: each item lies in the range of its row, and the two samples in the lower and the upper half. -/
theorem writtenItemsDecode : Obligations.WrittenItemsDecode := by
  unfold Obligations.WrittenItemsDecode
  have hpos : sintW 32 0x059CD74A7 = 1506636967 := sintW_eq_ite (by decide) (by decide)
  have hneg : sintW 32 0x0F4EE647A = -185703302 := sintW_eq_ite (by decide) (by decide)
  refine ⟨?_, ?_, ?_, ?_, ?_, ?_, ?_, decodeSample_eos (by decide) (by decide) rfl,
    decodeSample_eos (by decide) (by decide) rfl, decodeSample_fail (by decide) (by decide) rfl⟩
  · rw [decodeTableWord_bitItem (by decide), decodeBit_data (by decide)]; rfl
  · rw [decodeTableWord_bitItem (by decide), decodeBit_data (by decide)]; rfl
  · rw [decodeTableWord_bitItem (by decide), decodeBit_eos (by decide) (by decide)]
  · rw [decodeTableWord_bitItem (by decide), decodeBit_fail (by decide)]
  · rw [decodeTableWord_bitItem (by decide), decodeBit_data (by decide)]; rfl
  · exact hpos ▸ decodeSample_data (d := .init) (by decide)
  · exact hneg ▸ decodeSample_data (d := .fz) (by decide)

/-! ### Numbers that are no item -/

/-- Settles O8: `DEM` fetches the number, the decoder rejects it, and the step refuses it by that name. -/
theorem overwideSampleItemIsRefused : Obligations.OverwideSampleItemIsRefused := by
  unfold Obligations.OverwideSampleItemIsRefused
  intro s rest item items hturn hfetch hsrc hwf hitem
  have hoverwide : 4 * 2 ^ s.cfg.sampleBits ≤ item := pow_add_two s.cfg.sampleBits ▸ hitem
  calc step s
      = demTurn false (dropTurn rest s) := step_cons hturn
    _ = guarded s.cfg.wellFormed (runDecoded (decodeSample s.cfg.sampleBits s.dem.state item)
          ((dropTurn rest s).setEnv { (dropTurn rest s).env with smpSrc := items })) := demTurn_item hfetch hsrc
    _ = .refused .notAnItem := by rw [hwf, decodeSample_overwide hoverwide]; rfl

end Sys2Proof.Proofs.Encoding
end

section
/-!
SUPPORT. Proofs of O22 and O36. The only way an operation stops the machine is a decrement below 0
(spec/40_phase_numerics.md R116): here is where it stops, and that the invariant of spec/10_state.md R41 keeps every
legal machine away from there.
-/

namespace Sys2Proof.Proofs.Progress

open Sys2Proof Sys2Proof.Machine Sys2Proof.Safety Sys2Proof.Laws
open Sys2Proof.Proofs.Scope Sys2Proof.Proofs.Turns Sys2Proof.Proofs.Invariant Sys2Proof.Proofs.Independence

/-! ### Where a decrement would go below 0 -/

section Underflow

variable {x : ℤ} {s : State}

theorem matchesNow_iff (hc : s.cfg.wellFormed = true) (k : Symbol) :
    matchesNow s k x = true ↔ Matches s.cfg s.dem.t k x :=
  phaseMatch_iff hc s.dem.t k x

theorem execSyncFz_underflow (hzero : matchesNow s 0#2 x ≠ true) (hone : matchesNow s 3#2 x = true)
    (hlen : s.dem.symlen = 0) : exec (.syncFz x) s = .fault .counterUnderflow := by
  simp [exec, execSyncFz, hzero, hone, hlen]

theorem execSyncSo_underflow (hone : matchesNow s 3#2 x = true) (hrem : s.dem.rem = 0) :
    exec (.syncSo x) s = .fault .counterUnderflow := by
  simp [exec, execSyncSo, hone, hrem]

/-- R145: with `D_REM = 0` the sample goes on as one of the second `11` plateau. -/
theorem execSyncSz_redispatches (hrem : s.dem.rem = 0) :
    exec (.syncSz x) s = exec (.syncSo x) (reload .so s) := by
  simp [exec, execSyncSz, hrem, reload]

/-- R145: with `D_REM = 0` the sample goes on as one of the second `00` plateau. -/
theorem execSyncFo_redispatches (hrem : s.dem.rem = 0) :
    exec (.syncFo x) s = exec (.syncSz x) (reload .sz s) := by
  simp [exec, execSyncFo, hrem, reload]

/-- The reload takes `D_SYMLEN = 0` into `D_REM`. -/
theorem execSyncSz_underflow (hone : matchesNow s 3#2 x = true) (hrem : s.dem.rem = 0) (hlen : s.dem.symlen = 0) :
    exec (.syncSz x) s = .fault .counterUnderflow := by
  rw [execSyncSz_redispatches hrem]
  exact execSyncSo_underflow (s := reload .so s) hone hlen

theorem execSyncFo_underflow (hone : matchesNow s 3#2 x = true) (hrem : s.dem.rem = 0) (hlen : s.dem.symlen = 0) :
    exec (.syncFo x) s = .fault .counterUnderflow := by
  rw [execSyncFo_redispatches hrem]
  exact execSyncSz_underflow (s := reload .sz s) hone hlen hlen

end Underflow

/-- Settles O22: `FZ` and `SO` decrement at once, `SZ` and `FO` after their reloads. -/
theorem counterUnderflowStopsByName : Obligations.CounterUnderflowStopsByName := by
  unfold Obligations.CounterUnderflowStopsByName
  intro x s hc hmatch
  have hone : matchesNow s 3#2 x = true := (matchesNow_iff hc _).mpr hmatch
  exact ⟨fun hlen hno => execSyncFz_underflow (mt (matchesNow_iff hc _).mp hno) hone hlen,
    execSyncSo_underflow hone, execSyncSz_underflow hone, execSyncFo_underflow hone⟩

/-! ### Where no decrement goes below 0 -/

section Answers

variable {x : ℤ} {s : State}

theorem flowResult_answers_next (f : Flow) : ∃ t, flowResult f = .next t := by
  cases f <;> exact ⟨_, rfl⟩

theorem execSyncInit_answers_next : ∃ t, exec (.syncInit x) s = .next t := by
  simp only [exec, execSyncInit]
  split <;> exact ⟨_, rfl⟩

theorem execSyncFz_answers_next (hlen : 1 ≤ s.dem.symlen) : ∃ t, exec (.syncFz x) s = .next t := by
  simp only [exec, execSyncFz]
  split
  · exact ⟨_, rfl⟩
  · split
    · split
      next h0 => omega
      next => exact ⟨_, rfl⟩
    · exact ⟨_, rfl⟩

theorem execSyncSo_answers_next (hrem : 1 ≤ s.dem.rem) : ∃ t, exec (.syncSo x) s = .next t := by
  simp only [exec, execSyncSo]
  split
  · split
    next h0 => omega
    next => exact ⟨_, rfl⟩
    next => exact ⟨_, rfl⟩
  · exact ⟨_, rfl⟩

/-- The reload of a positive `D_SYMLEN` leaves `SO` something to count down. -/
theorem execSyncSz_answers_next (hlen : 1 ≤ s.dem.symlen) : ∃ t, exec (.syncSz x) s = .next t := by
  rcases hrem : s.dem.rem with _ | n
  · rw [execSyncSz_redispatches hrem]
    exact execSyncSo_answers_next (s := reload .so s) hlen
  · simp only [exec, execSyncSz, hrem]
    split <;> exact ⟨_, rfl⟩

theorem execSyncFo_answers_next (hlen : 1 ≤ s.dem.symlen) : ∃ t, exec (.syncFo x) s = .next t := by
  rcases hrem : s.dem.rem with _ | n
  · rw [execSyncFo_redispatches hrem]
    exact execSyncSz_answers_next (s := reload .sz s) hlen
  · simp only [exec, execSyncFo, hrem]
    split <;> exact ⟨_, rfl⟩

theorem execSyncEos_answers_next : ∃ t, exec .syncEos s = .next t := by
  simp only [exec, execSyncEos]
  split
  · exact ⟨_, rfl⟩
  · exact flowResult_answers_next _

theorem execClsSample_answers_next : ∃ t, exec (.clsSample x) s = .next t := by
  rw [execClsSample_eq]
  split
  · exact flowResult_answers_next _
  · exact ⟨_, rfl⟩

/-- The operation an item selects answers a next state where the counters of `D_STATE` meet the invariant. -/
theorem execSampleOp_answers_next {i : Instr} (hi : SampleOp s.dem.state i) (hinv : CountersInv s.cfg s.dem) :
    ∃ t, exec i s = .next t := by
  generalize hs : s.dem.state = d at hi
  simp only [CountersInv, hs] at hinv
  cases hi with
  | rdfail => exact ⟨_, rfl⟩
  | syncEos => exact execSyncEos_answers_next
  | clsEos => exact flowResult_answers_next _
  | init x => exact execSyncInit_answers_next
  | fz x =>
    obtain ⟨hlen, htime, -, -⟩ := hinv
    exact execSyncFz_answers_next (hlen ▸ htime)
  | fo x =>
    obtain ⟨hlen, -, -, -⟩ := hinv
    exact execSyncFo_answers_next hlen
  | sz x =>
    obtain ⟨hlen, -, -, -⟩ := hinv
    exact execSyncSz_answers_next hlen
  | so x =>
    obtain ⟨hrem, -, -, -⟩ := hinv
    exact execSyncSo_answers_next hrem
  | cls x => exact execClsSample_answers_next

end Answers

/-! ### A step of a legal machine -/

/-- The three rows of R84 leave no item of format `SI` without an operation while `DEM` fetches. -/
theorem decodeSample_ok {w item : ℕ} {d : DState} (hfetch : demFetches d = true) (hitem : item < 2 ^ (w + 2)) :
    ∃ i, decodeSample w d item = .ok i := by
  rw [pow_add_two] at hitem
  rcases Nat.lt_or_ge item (2 ^ w) with hdata | hmore
  · rw [decodeSample_data hdata]
    cases d with
    | done | failed => exact absurd hfetch Bool.false_ne_true
    | _ => exact ⟨_, rfl⟩
  · rcases Nat.lt_or_ge item (2 * 2 ^ w) with heos | hfail
    · exact ⟨_, decodeSample_eos hmore heos hfetch⟩
    · exact ⟨_, decodeSample_fail hfail hitem hfetch⟩

theorem demTurn_answers_next {s : State} (hwf : s.cfg.wellFormed = true) (hinv : DemInv s.cfg s.dem)
    (hitems : ∀ item ∈ s.env.smpSrc, item < 2 ^ (s.cfg.sampleBits + 2)) (start : Bool) :
    ∃ t, demTurn start s = .next t := by
  cases start with
  | true => exact ⟨_, by rw [demTurn_strobe, hwf]; rfl⟩
  | false =>
    by_cases h : demFetches s.dem.state = false ∨ s.env.smpSrc = []
    · exact ⟨s, demTurn_idle h⟩
    · obtain ⟨hfetch, hoffered⟩ := not_or.mp h
      have hfetch : demFetches s.dem.state = true := Bool.not_eq_false _ ▸ hfetch
      obtain ⟨item, items, hsrc⟩ := List.exists_cons_of_ne_nil hoffered
      obtain ⟨i, hdec⟩ := decodeSample_ok hfetch (hitems item (by simp [hsrc]))
      obtain ⟨hcounters, -⟩ := hinv
      rw [demTurn_item hfetch hsrc, hwf, hdec]
      exact execSampleOp_answers_next (s := s.setEnv { s.env with smpSrc := items })
        (decodeSample_sampleOp hdec) hcounters

theorem step_answers_next {s : State} (hs : Legal s) : ∃ t, step s = .next t := by
  obtain ⟨⟨-, hdem⟩, hwf, hitems⟩ := hs
  cases hturns : s.env.turns with
  | nil => exact ⟨s, step_nil hturns⟩
  | cons turn rest =>
    rw [step_cons hturns]
    cases turn with
    | reset => exact ⟨_, rfl⟩
    | mod start => exact modTurn_answers_next (s := dropTurn rest s) hwf start
    | dem start =>
      obtain ⟨hwfDem, -⟩ := (Config.wellFormedMod_iff s.cfg).mp hwf
      exact demTurn_answers_next (s := dropTurn rest s) hwfDem hdem hitems start

/-- The constants stand outside both units' frames. -/
theorem step_cfg {s t : State} (h : step s = .next t) : t.cfg = s.cfg := by
  rcases step_cases h with ⟨-, rfl⟩ | ⟨rest, ⟨-, rfl⟩ | ⟨start, ⟨-, hm⟩ | ⟨-, hd⟩⟩⟩
  · rfl
  · rfl
  · obtain ⟨_, _, _, hf, -⟩ := modTurn_frame hm
    exact hf.cfg
  · obtain ⟨_, _, _, hf⟩ := demTurn_frame hd
    exact hf.cfg

/-- A step brings no item to `SMPSRC`. -/
theorem step_smpSrc_subset {s t : State} (h : step s = .next t) : t.env.smpSrc ⊆ s.env.smpSrc := by
  obtain ⟨-, hkept | ⟨item, hread⟩⟩ := Streams.sourcesAreReadInOrder s t h
  · exact fun _ hx => hkept ▸ hx
  · exact fun _ hx => hread ▸ List.mem_cons_of_mem item hx

theorem step_keeps_legal {s t : State} (hs : Legal s) (h : step s = .next t) : Legal t := by
  obtain ⟨hinv, hwf, hitems⟩ := hs
  have hcfg := step_cfg h
  exact ⟨stepKeepsTheInvariant s t hinv h, hcfg ▸ hwf, fun item hi => hcfg ▸ hitems item (step_smpSrc_subset h hi)⟩

/-- Settles O36, by induction on the number of steps: a legal state has a next state, and it is legal. -/
theorem legalMachineNeverStops : Obligations.LegalMachineNeverStops := by
  unfold Obligations.LegalMachineNeverStops
  intro n
  induction n with
  | zero => exact fun s hs => ⟨s, rfl, hs⟩
  | succ n ih =>
    intro s hs
    obtain ⟨u, hstep⟩ := step_answers_next hs
    obtain ⟨t, hrun, ht⟩ := ih u (step_keeps_legal hs hstep)
    exact ⟨t, (run_succ_of_next n hstep).trans hrun, ht⟩

end Sys2Proof.Proofs.Progress
end

section
/-!
SUPPORT. Proofs of O30 to O33, the numbers of spec/40_phase_numerics.md. The machine's integers are the spec's real
carrier (Laws/Carrier.lean); the range, the match of a sample with its own phase and the coincidences are read off the
real cosine, the period off the index `J`.
-/

namespace Sys2Proof.Proofs.Numerics

open Sys2Proof Sys2Proof.Machine Sys2Proof.Safety Sys2Proof.Laws Real

/-! ### Range (R108) -/

/-- R13's bound on the amplitude leaves room for a sign bit. -/
theorem sampleBits_pos {c : Config} (hc : c.wellFormed = true) : 1 ≤ c.sampleBits := by
  obtain ⟨-, -, hA, hbound, -⟩ := (Config.wellFormed_iff c).mp hc
  by_contra hzero
  have hW : c.sampleBits - 1 = 0 := by omega
  rw [hW, pow_zero] at hbound
  omega

theorem sampleInRange_sample {c : Config} (hc : c.wellFormed = true) (t : ℕ) (k : Symbol) :
    sampleInRange c.sampleBits (sample c t k) = true := by
  obtain ⟨-, -, -, hbound, -⟩ := (Config.wellFormed_iff c).mp hc
  obtain ⟨hlow, hhigh⟩ := sample_range c t k
  rw [sampleInRange_iff]
  omega

/-- Settles O30: the real sample's range is `-A .. A`, which R13 keeps inside the `W`-bit integers. -/
theorem generatedSamplesFitTheirWord : Obligations.GeneratedSamplesFitTheirWord := by
  unfold Obligations.GeneratedSamplesFitTheirWord
  intro c t k hc
  rw [sampleValue_eq hc]
  obtain ⟨hlow, hhigh⟩ := sample_range c t k
  exact ⟨hlow, hhigh, sintW_bitsW (sampleBits_pos hc) (sampleInRange_sample hc t k)⟩

/-! ### A sample and its own phase (R112) -/

/-- R106 rounds to a nearest integer. -/
theorem abs_sub_roundHalfAway_le (r : ℝ) : |r - roundHalfAway r| ≤ 1 / 2 := by
  unfold roundHalfAway
  rw [abs_le]
  split
  · have hle := Int.floor_le (r + 1 / 2)
    have hlt := Int.lt_floor_add_one (r + 1 / 2)
    constructor <;> linarith
  · have hle := Int.le_ceil (r - 1 / 2)
    have hlt := Int.ceil_lt_add_one (r - 1 / 2)
    constructor <;> linarith

/-- The rounding error of a normalised sample. -/
theorem abs_ref_sub_sample_le {c : Config} (hA : 1 ≤ c.amplitude) (t : ℕ) (k : Symbol) :
    |ref c t k - (sample c t k : ℝ) / c.amplitude| ≤ 1 / 2 / c.amplitude := by
  have hpos : (0 : ℝ) < c.amplitude := by exact_mod_cast hA
  have hscale : ref c t k - (sample c t k : ℝ) / c.amplitude
      = (c.amplitude * ref c t k - sample c t k) / c.amplitude := by field_simp
  rw [hscale, abs_div, abs_of_pos hpos]
  exact div_le_div_of_nonneg_right (abs_sub_roundHalfAway_le _) hpos.le

theorem matches_sample {c : Config} (hA : 1 ≤ c.amplitude) (hth : 1 / 2 < (c.amplitude : ℚ) * c.threshold) (t : ℕ)
    (k : Symbol) : Matches c t k (sample c t k) := by
  have hpos : (0 : ℝ) < c.amplitude := by exact_mod_cast hA
  have hthR : (1 / 2 : ℝ) < c.amplitude * c.threshold := by
    simpa using (Rat.cast_lt (K := ℝ)).mpr hth
  calc |ref c t k - (sample c t k : ℝ) / c.amplitude|
      ≤ 1 / 2 / c.amplitude := abs_ref_sub_sample_le hA t k
    _ < c.threshold := by rw [div_lt_iff₀ hpos]; linarith

/-- Settles O31: the rounding error is at most `1/2`, less than `A·TH`. -/
theorem generatedSampleMatchesItsPhase : Obligations.GeneratedSampleMatchesItsPhase := by
  unfold Obligations.GeneratedSampleMatchesItsPhase
  intro c t k hc hth
  obtain ⟨-, -, hA, -, -⟩ := (Config.wellFormed_iff c).mp hc
  rw [phaseMatch_iff hc, sampleValue_eq hc]
  exact matches_sample hA hth t k

/-! ### The period (R104) -/

/-- `KT·P` is a whole number of periods of the index: both sides are `8·F·S` over `g·gcd(F, S)`. -/
theorem carrierKT_mul_period (c : Config) :
    carrierKT c * (c.sampleRate / Nat.gcd c.frequency c.sampleRate)
      = carrierN c * (c.frequency / Nat.gcd c.frequency c.sampleRate) := by
  have hg : carrierG c ∣ 8 * c.frequency := Nat.gcd_dvd_left _ _
  have hg' : carrierG c ∣ 8 * c.sampleRate := (Nat.gcd_dvd_right _ _).mul_left 8
  have hd : Nat.gcd c.frequency c.sampleRate ∣ c.sampleRate := Nat.gcd_dvd_right _ _
  have hd' : Nat.gcd c.frequency c.sampleRate ∣ c.frequency := Nat.gcd_dvd_left _ _
  rw [carrierKT, carrierN, Nat.div_mul_div_comm hg hd, Nat.div_mul_div_comm hg' hd']
  congr 1
  ring

theorem carrierJ_add_period (c : Config) (t : ℕ) (k : Symbol) :
    carrierJ c (t + c.sampleRate / Nat.gcd c.frequency c.sampleRate) k = carrierJ c t k := by
  unfold carrierJ
  rw [Nat.mul_add, carrierKT_mul_period c, Nat.add_right_comm, Nat.add_mul_mod_self_left]

/-- Settles O32: `SAMPLE` and `MATCH` see the time index through `J` alone. -/
theorem carrierIsPeriodic : Obligations.CarrierIsPeriodic := by
  unfold Obligations.CarrierIsPeriodic
  intro c t k x _
  simp only [sampleValue, phaseMatch, carrierJ_add_period, and_self]

/-! ### Sines of fractions of a half turn -/

/-- Jordan's inequality at the fractions `n/m` of a half turn, on either side of a quarter turn. -/
theorem two_div_le_sin {m n : ℕ} (h0 : 0 < n) (hm : n < m) : 2 / (m : ℝ) ≤ sin (π * n / m) := by
  have hmR : (0 : ℝ) < m := by exact_mod_cast h0.trans hm
  have hhalf : ∀ i : ℕ, 0 < i → 2 * i ≤ m → 2 / (m : ℝ) ≤ sin (π * i / m) := by
    intro i hi hle
    have hiR : (1 : ℝ) ≤ i := by exact_mod_cast hi
    have hleR : (2 * i : ℝ) ≤ m := by exact_mod_cast hle
    have hquarter : π * i / m ≤ π / 2 := by
      rw [div_le_div_iff₀ hmR two_pos]
      nlinarith [pi_pos]
    calc 2 / (m : ℝ) ≤ 2 * i / m := by gcongr; linarith
      _ = 2 / π * (π * i / m) := by field_simp
      _ ≤ sin (π * i / m) := mul_le_sin (by positivity) hquarter
  rcases Nat.le_total (2 * n) m with hle | hge
  · exact hhalf n h0 hle
  · have hmirror : sin (π * n / m) = sin (π * (m - n : ℕ) / m) := by
      rw [← sin_pi_sub, Nat.cast_sub hm.le]
      congr 1
      field_simp
    rw [hmirror]
    exact hhalf (m - n) (by omega) (by omega)

/-- A fraction of a half turn that is no whole number of half turns has a sine bounded away from 0. -/
theorem two_div_le_abs_sin {m : ℕ} {u : ℤ} (hm : 0 < m) (hu : ¬ (m : ℤ) ∣ u) : 2 / (m : ℝ) ≤ |sin (π * u / m)| := by
  have hmR : (0 : ℝ) < m := by exact_mod_cast hm
  have hrem : u % m ≠ 0 := mt Int.dvd_of_emod_eq_zero hu
  have hnonneg : 0 ≤ u % m := Int.emod_nonneg u (by omega)
  have hlt : u % m < m := Int.emod_lt_of_pos u (by omega)
  obtain ⟨n, hn⟩ := Int.eq_ofNat_of_zero_le hnonneg
  have hsplit : (u : ℝ) = n + m * (u / m : ℤ) := by
    have := Int.emod_add_mul_ediv u m
    rw [hn] at this
    exact_mod_cast this.symm
  have hshift : π * u / m = π * n / m + (u / m : ℤ) * π := by
    rw [hsplit]
    field_simp
  rw [hshift, sin_add_int_mul_pi, abs_mul, abs_zpow, abs_neg, abs_one, one_zpow, one_mul]
  exact (two_div_le_sin (by omega) (by omega)).trans (le_abs_self _)

/-! ### The reference configuration (R114) -/

/-- Half the sum of two symbols' phases, in eighths of a turn. -/
def meanPhase (k j : Symbol) : ℤ := ((phase8 k : ℤ) + phase8 j) / 2

/-- Half the difference of two symbols' phases, in eighths of a turn. -/
def halfGap (k j : Symbol) : ℤ := ((phase8 k : ℤ) - phase8 j) / 2

/-- The phases are odd, so both halves are whole. -/
theorem phase8_eq_mean_gap : ∀ k j : Symbol,
    (phase8 k : ℤ) = meanPhase k j + halfGap k j ∧ (phase8 j : ℤ) = meanPhase k j - halfGap k j := by
  decide

/-- Two different symbols are partners, or a quarter turn apart without being partners, or half a turn apart. -/
theorem phase_pairs : ∀ k j : Symbol, j ≠ k →
    (j.toNat / 2 = k.toNat / 2 ∧ meanPhase k j = 4 ∧ halfGap k j % 2 = 1) ∨
    (j.toNat / 2 ≠ k.toNat / 2 ∧ meanPhase k j % 4 = 2 ∧ halfGap k j % 2 = 1) ∨
    (j.toNat / 2 ≠ k.toNat / 2 ∧ meanPhase k j % 2 = 1 ∧ halfGap k j % 4 = 2) := by
  decide

theorem reference_wellFormed : Config.reference.wellFormed = true := by decide

theorem reference_threshold : Config.reference.threshold = 1 / 10 := by
  rw [← Rat.num_div_den Config.reference.threshold]
  norm_num [Config.reference]

/-- `F/S = 1/18`, so the angle counts in `1/36` of a half turn. -/
theorem ref_reference (t : ℕ) (k : Symbol) : ref .reference t k = cos (π * (4 * t + 9 * phase8 k) / 36) := by
  rw [ref, angle, phaseOf_eq]
  congr 1
  simp only [Config.reference]
  push_cast
  ring

/-- The difference of two reference values as a product: a sine that moves with the time, and one of the phases. -/
theorem ref_reference_sub (t : ℕ) (k j : Symbol) :
    ref .reference t k - ref .reference t j
      = -2 * sin (π * (4 * t + 9 * meanPhase k j : ℤ) / 36) * sin (π * halfGap k j / 4) := by
  obtain ⟨hk, hj⟩ := phase8_eq_mean_gap k j
  have hkR : (phase8 k : ℝ) = meanPhase k j + halfGap k j := by exact_mod_cast hk
  have hjR : (phase8 j : ℝ) = meanPhase k j - halfGap k j := by exact_mod_cast hj
  have hsum : (π * (4 * t + 9 * phase8 k) / 36 + π * (4 * t + 9 * phase8 j) / 36) / 2
      = π * (4 * t + 9 * meanPhase k j : ℤ) / 36 := by rw [hkR, hjR]; push_cast; ring
  have hdiff : (π * (4 * t + 9 * phase8 k) / 36 - π * (4 * t + 9 * phase8 j) / 36) / 2
      = π * halfGap k j / 4 := by rw [hkR, hjR]; ring
  rw [ref_reference, ref_reference, cos_sub_cos, hsum, hdiff]

/-- The bound of `ref_reference_apart`, from bounds on the product's two sines. R114's own minimum is `0.174...`; `1/9`
is what Jordan's inequality gives in every case, and is enough above `TH = 1/10`. -/
theorem ninth_le_abs_sub {t : ℕ} {k j : Symbol}
    (h : 1 / 18 ≤ |sin (π * (4 * t + 9 * meanPhase k j : ℤ) / 36)| * |sin (π * halfGap k j / 4)|) :
    1 / 9 ≤ |ref .reference t k - ref .reference t j| := by
  rw [ref_reference_sub, abs_mul, abs_mul, abs_neg, abs_two]
  linarith

/-- An odd half difference: the phases' sine is at least `1/2`, and the time counts in `1/18` of a half turn. -/
theorem ninth_le_of_odd_gap {t : ℕ} {k j : Symbol} {i : ℤ} (hgap : halfGap k j % 2 = 1)
    (hmean : meanPhase k j = 2 * i) (htime : ¬ (18 : ℤ) ∣ 2 * t + 9 * i) :
    1 / 9 ≤ |ref .reference t k - ref .reference t j| := by
  have hphase : 2 / ((4 : ℕ) : ℝ) ≤ |sin (π * halfGap k j / (4 : ℕ))| :=
    two_div_le_abs_sin (by norm_num) (by omega)
  have hmoving : 2 / ((18 : ℕ) : ℝ) ≤ |sin (π * (2 * t + 9 * i : ℤ) / (18 : ℕ))| :=
    two_div_le_abs_sin (by norm_num) htime
  have hangle : π * (4 * t + 9 * meanPhase k j : ℤ) / 36 = π * (2 * t + 9 * i : ℤ) / (18 : ℕ) := by
    rw [hmean]; push_cast; ring
  apply ninth_le_abs_sub
  rw [hangle]
  calc (1 / 18 : ℝ) = 2 / (18 : ℕ) * (2 / (4 : ℕ)) := by norm_num
    _ ≤ _ := mul_le_mul hmoving hphase (by positivity) (abs_nonneg _)

/-- Half a turn apart: the phases' sine is 1 in size, and the time's never closer to 0 than `1/36` of a half turn. -/
theorem ninth_le_of_even_gap {t : ℕ} {k j : Symbol} (hgap : halfGap k j % 4 = 2) (hmean : meanPhase k j % 2 = 1) :
    1 / 9 ≤ |ref .reference t k - ref .reference t j| := by
  obtain ⟨i, hi⟩ : ∃ i, halfGap k j = 2 * i := ⟨halfGap k j / 2, by omega⟩
  have hphase : 2 / ((2 : ℕ) : ℝ) ≤ |sin (π * i / (2 : ℕ))| := two_div_le_abs_sin (by norm_num) (by omega)
  have hmoving : 2 / ((36 : ℕ) : ℝ) ≤ |sin (π * (4 * t + 9 * meanPhase k j : ℤ) / (36 : ℕ))| :=
    two_div_le_abs_sin (by norm_num) (by omega)
  have hangle : π * halfGap k j / 4 = π * i / (2 : ℕ) := by rw [hi]; push_cast; ring
  apply ninth_le_abs_sub
  rw [hangle]
  calc (1 / 18 : ℝ) = 2 / (36 : ℕ) * (2 / (2 : ℕ)) := by norm_num
    _ ≤ _ := mul_le_mul hmoving hphase (by positivity) (abs_nonneg _)

/-- R114: away from the coincidences two reference values differ by more than `TH`. -/
theorem ref_reference_apart {t : ℕ} {k j : Symbol} (hne : j ≠ k) (hno : ¬ (t % 9 = 0 ∧ j.toNat / 2 = k.toNat / 2)) :
    1 / 9 ≤ |ref .reference t k - ref .reference t j| := by
  rcases phase_pairs k j hne with ⟨hpartner, hmean, hgap⟩ | ⟨-, hmean, hgap⟩ | ⟨-, hmean, hgap⟩
  · have htime : t % 9 ≠ 0 := fun h => hno ⟨h, hpartner⟩
    exact ninth_le_of_odd_gap (i := 2) hgap hmean (by omega)
  · exact ninth_le_of_odd_gap (i := meanPhase k j / 2) hgap (by omega) (by omega)
  · exact ninth_le_of_even_gap hgap hmean

/-- R114: at every ninth index partners have one reference value. -/
theorem ref_reference_partner {t : ℕ} {k j : Symbol} (ht : t % 9 = 0) (hpartner : j.toNat / 2 = k.toNat / 2) :
    ref .reference t j = ref .reference t k := by
  by_cases hne : j = k
  · rw [hne]
  · rcases phase_pairs k j hne with ⟨-, hmean, -⟩ | ⟨hother, -, -⟩ | ⟨hother, -, -⟩
    · obtain ⟨n, rfl⟩ := Nat.dvd_of_mod_eq_zero ht
      have hangle : π * (4 * (9 * n : ℕ) + 9 * meanPhase k j : ℤ) / 36 = (n + 1 : ℕ) * π := by
        rw [hmean]; push_cast; ring
      have hsub := ref_reference_sub (9 * n) k j
      rw [hangle, sin_nat_mul_pi] at hsub
      linarith
    · exact absurd hpartner hother
    · exact absurd hpartner hother

/-- Reference values more than `TH` and a rounding error apart are told apart by a generated sample. -/
theorem not_matches_of_apart {t : ℕ} {k j : Symbol} (h : 1 / 9 ≤ |ref .reference t k - ref .reference t j|) :
    ¬ Matches .reference t j (sample .reference t k) := by
  intro hmatch
  have hround := abs_ref_sub_sample_le (c := .reference) (by decide) t k
  have herror : (1 / 2 / (Config.reference.amplitude : ℝ)) ≤ 1 / 100 := by norm_num [Config.reference]
  have hth : ((Config.reference.threshold : ℚ) : ℝ) = 1 / 10 := by
    rw [reference_threshold]; norm_num
  rw [Matches, hth, abs_sub_comm] at hmatch
  have htriangle := abs_sub_le (ref .reference t k)
    ((sample .reference t k : ℝ) / Config.reference.amplitude) (ref .reference t j)
  linarith

/-- Settles O33: at a coincidence the candidate's reference value is the sample's own; elsewhere it is too far off. -/
theorem referenceCoincidences : Obligations.ReferenceCoincidences := by
  unfold Obligations.ReferenceCoincidences
  intro t k j
  rw [phaseMatch_iff reference_wellFormed, sampleValue_eq reference_wellFormed]
  have hown : Matches .reference t k (sample .reference t k) :=
    matches_sample (by decide) (by rw [reference_threshold]; norm_num [Config.reference]) t k
  constructor
  · intro hmatch
    by_contra hno
    obtain ⟨hne, hno⟩ := not_or.mp hno
    exact not_matches_of_apart (ref_reference_apart hne hno) hmatch
  · rintro (rfl | ⟨ht, hpartner⟩)
    · exact hown
    · rw [Matches, ref_reference_partner ht hpartner]
      exact hown

end Sys2Proof.Proofs.Numerics
end

section
/-!
SUPPORT. Proofs of O5, O6, O14 and O15: which operation a turn runs, when a turn runs none, and the operations of `MOD`
that end a run without writing.
-/

namespace Sys2Proof.Proofs.Selection

open Sys2Proof Sys2Proof.Machine Sys2Proof.Safety Sys2Proof.Laws
open Sys2Proof.Proofs.Scope Sys2Proof.Proofs.Independence Sys2Proof.Proofs.Encoding

/-! ### Turns -/

theorem guarded_of_wellFormed {wf : Bool} (h : wf = true) (r : Result) : guarded wf r = r :=
  if_pos h

/-- Settles O5: a turn that runs an operation passes the guard, and the decoder's answer names the operation. -/
theorem stepRunsTheSelectedOperation : Obligations.StepRunsTheSelectedOperation := by
  unfold Obligations.StepRunsTheSelectedOperation
  intro s rest
  refine ⟨?_, ?_, ?_, ?_⟩
  · intro hturn hwf
    calc step s
        = modTurn true (dropTurn rest s) := step_cons hturn
      _ = exec .modStart (dropTurn rest s) := guarded_of_wellFormed hwf _
  · intro hturn hwf
    calc step s
        = demTurn true (dropTurn rest s) := step_cons hturn
      _ = exec .demStart (dropTurn rest s) := guarded_of_wellFormed hwf _
  · intro item items i hturn hrun hsrc hwf hdec
    rw [hrun, decode_bitItem_run] at hdec
    obtain rfl : decodeBit item = i := Except.ok.inj hdec
    calc step s
        = modTurn false (dropTurn rest s) := step_cons hturn
      _ = guarded s.cfg.wellFormedMod _ := modTurn_item hrun hsrc
      _ = exec (decodeBit item) _ := guarded_of_wellFormed hwf _
  · intro item items i hturn hfetch hsrc hwf (hdec : decodeSample s.cfg.sampleBits s.dem.state item = .ok i)
    calc step s
        = demTurn false (dropTurn rest s) := step_cons hturn
      _ = guarded s.cfg.wellFormed (runDecoded (decodeSample s.cfg.sampleBits s.dem.state item) _) :=
        demTurn_item hfetch hsrc
      _ = runDecoded (.ok i) _ := by rw [guarded_of_wellFormed hwf, hdec]; rfl

/-- Settles O6: each unit's idle turn leaves the state without the turn as it is. -/
theorem haltedAndWaitingUnitsDoNothing : Obligations.HaltedAndWaitingUnitsDoNothing := by
  unfold Obligations.HaltedAndWaitingUnitsDoNothing
  intro s rest
  constructor
  · intro hturn hidle
    rw [step_cons hturn]
    exact modTurn_idle hidle
  · intro hturn hidle
    rw [step_cons hturn]
    apply demTurn_idle
    rcases hidle with hdone | hfailed | hwait
    · exact .inl (by rw [dropTurn_dem, hdone]; rfl)
    · exact .inl (by rw [dropTurn_dem, hfailed]; rfl)
    · exact .inr hwait

/-! ### The operations of `BI` items -/

/-- A `DATA` character is one of the two bits, or it stops the run (R83). -/
theorem decodeBit_bitData (ch : Char8) :
    decodeBit (bitData ch) =
      if ch = 0x30#8 then .modBit0 else if ch = 0x31#8 then .modBit1 else .modStop ch := by
  simp [decodeBit, RoundTrip.bitData_status, RoundTrip.bitData_char, char0, char1]

/-- The status `01` selects the end of the stream, whatever the ignored field holds. -/
theorem decodeBit_of_status_eos {item : BitItem} (h : item.extractLsb' 8 2 = 0b01#2) :
    decodeBit item = .modEos := by
  simp [decodeBit, h]

/-- A status with `st[1] = 1` selects the failed read, whatever the ignored fields hold. -/
theorem decodeBit_of_status_fail {item : BitItem} (h : (item.extractLsb' 8 2).getLsbD 1 = true) :
    decodeBit item = .modRdfail := by
  simp only [decodeBit, h, if_true]

/-- Settles O14: both operations are `M_STATE <- DONE` and no more, and R83 selects them. -/
theorem stopAndEndOfStreamFinishTheRun : Obligations.StopAndEndOfStreamFinishTheRun := by
  unfold Obligations.StopAndEndOfStreamFinishTheRun
  refine ⟨fun w d ch h0 h1 => ?_, fun w d item hst => ?_, fun ch s => ⟨rfl, rfl⟩⟩
  · have hstop : decodeBit (bitData ch) = .modStop ch := by rw [decodeBit_bitData, if_neg h0, if_neg h1]
    exact congrArg Except.ok hstop
  · rw [decode_bitItem_run, decodeBit_of_status_eos hst]

/-- Settles O15: the operation is `raise ChannelError` and no more, and R83 selects it. -/
theorem failedBitReadFailsTheRun : Obligations.FailedBitReadFailsTheRun := by
  unfold Obligations.FailedBitReadFailsTheRun
  refine ⟨fun w d item hst => ?_, fun s => rfl⟩
  rw [decode_bitItem_run, decodeBit_of_status_fail hst]

end Sys2Proof.Proofs.Selection
end

section
/-!
SUPPORT. Proofs of O10 to O13: `GEN`, the preamble of `MOD.START`, and the bit pair. What each writes is a stretch of
one stream of carrier samples, given by the symbol of each time index.
-/

namespace Sys2Proof.Proofs.Generator

open Sys2Proof Sys2Proof.Machine Sys2Proof.Safety Sys2Proof.Laws

/-! ### Answers -/

@[simp] theorem allOk_nil (n : ℕ) : AllOk [] n := by
  simp [AllOk]

theorem allOk_add {l : List Answer} {n m : ℕ} : AllOk l (n + m) ↔ AllOk l n ∧ AllOk (l.drop n) m := by
  simp only [AllOk, List.take_add, List.forall_mem_append]

theorem firstFail_add {l : List Answer} {n m : ℕ} :
    FirstFail l (n + m) ↔ AllOk l n ∧ FirstFail (l.drop n) m := by
  simp only [FirstFail, allOk_add, List.getElem?_drop, and_assoc]

/-! ### Streams of carrier samples -/

/-- The words of the carrier samples `t .. t + n - 1` of a stream whose sample `i` is of symbol `q i`. -/
noncomputable def streamWords (c : Config) (q : ℕ → Symbol) (t n : ℕ) : List SampleWord :=
  (List.range n).map fun i => bitsW c.sampleBits (sample c (t + i) (q (t + i)))

variable {c : Config} {q q' : ℕ → Symbol} {k : Symbol} {t n m : ℕ} {s : State}

@[simp] theorem streamWords_length : (streamWords c q t n).length = n := by
  simp [streamWords]

theorem streamWords_add :
    streamWords c q t (n + m) = streamWords c q t n ++ streamWords c q (t + n) m := by
  simp [streamWords, List.range_add, Nat.add_assoc]

theorem streamWords_congr (h : ∀ i < n, q (t + i) = q' (t + i)) : streamWords c q t n = streamWords c q' t n :=
  List.map_congr_left fun i hi => by rw [h i (List.mem_range.mp hi)]

theorem carrierWords_eq_streamWords : carrierWords c k t n = streamWords c (fun _ => k) t n := rfl

theorem preambleWords_eq_streamWords :
    preambleWords c n = streamWords c (preambleSymbolAt c.symbolLen) 0 n := by
  simp [preambleWords, streamWords]

/-- The words of `GEN` are the real carrier's, where the stream is of one symbol. -/
theorem genWords_eq_streamWords (hc : c.wellFormed = true) (hq : ∀ i < n, q (t + i) = k) :
    genWords c k t n = streamWords c q t n :=
  List.map_congr_left fun i hi => by rw [sampleValue_eq hc, hq i (List.mem_range.mp hi)]

/-! ### `GEN` -/

/-- `GEN` on a stretch of a stream that is of its symbol, every write answered `ok`. -/
theorem generate_allOk (hc : s.cfg.wellFormed = true) (hq : ∀ i < s.cfg.symbolLen, q (s.mod.t + i) = k)
    (hok : AllOk s.env.smpAnswers s.cfg.symbolLen) :
    generate k s =
      .goOn (wordsSent (streamWords s.cfg q s.mod.t s.cfg.symbolLen) s.cfg.symbolLen s.cfg.symbolLen s) := by
  rw [generate, genLoop_ok k _ s hok, genWords_eq_streamWords hc hq]

/-- `GEN` stops at the first write answered `fail`. -/
theorem generate_firstFail (hc : s.cfg.wellFormed = true) (hq : ∀ i < s.cfg.symbolLen, q (s.mod.t + i) = k)
    (hn : n < s.cfg.symbolLen) (hfail : FirstFail s.env.smpAnswers n) :
    generate k s = .raised (raiseMod (wordsSent (streamWords s.cfg q s.mod.t n) n (n + 1) s)) := by
  obtain ⟨hok, hanswer⟩ := hfail
  rw [generate, genLoop_fail k _ n s hn hok hanswer,
    genWords_eq_streamWords hc fun i hi => hq i (hi.trans hn)]

/-- The words sent, with one answer used up and one time index passed for each, as the obligations write it. -/
theorem wordsSent_streamWords :
    wordsSent (streamWords c q t n) n n s =
      onMod (fun m => { m with t := m.t + n }) (afterWords (streamWords c q t n) s) := by
  simp [wordsSent, State.setMod, State.setEnv, onMod, afterWords]

theorem raiseMod_wordsSent_streamWords :
    raiseMod (wordsSent (streamWords c q t n) n (n + 1) s) =
      onMod (fun m => Safety.modFailed { m with t := m.t + n })
        (afterWordsThenFail (streamWords c q t n) s) := by
  simp [wordsSent, raiseMod, State.setMod, State.setEnv, onMod, afterWordsThenFail, Safety.modFailed]

/-- Settles O10: `GEN` is a stretch of the stream whose every sample is of its symbol. -/
theorem genWritesOneSymbolOfCarrier : Obligations.GenWritesOneSymbolOfCarrier := by
  unfold Obligations.GenWritesOneSymbolOfCarrier
  intro k s hc
  refine ⟨fun hok => ?_, fun n hn hfail => ?_⟩
  · rw [carrierWords_eq_streamWords, ← wordsSent_streamWords]
    exact congrArg flowResult (generate_allOk hc (fun _ _ => rfl) hok)
  · rw [carrierWords_eq_streamWords, ← raiseMod_wordsSent_streamWords]
    exact congrArg flowResult (generate_firstFail hc (fun _ _ => rfl) hn hfail)

/-! ### The bit pair -/

theorem consumeBit_of_not_held {b : BitVec 1} (h : s.mod.held = false) :
    consumeBit b s = .goOn (onMod (fun m => { m with held := true, bit := b }) s) := by
  rw [consumeBit, h]; rfl

/-- The second bit of a pair is `GEN` of the pair's symbol, from the state with the pair taken out. -/
theorem consumeBit_of_held {b : BitVec 1} (h : s.mod.held = true) :
    consumeBit b s =
      generate (assembleSymbol s.mod.bit b) (onMod (fun m => { m with held := false, bit := 0#1 }) s) := by
  rw [consumeBit, h]; rfl

/-- R75 read as a number. -/
theorem assembleSymbol_toNat (bit1 bit2 : BitVec 1) :
    (assembleSymbol bit1 bit2).toNat = 2 * bit1.toNat + bit2.toNat := by
  revert bit1 bit2; decide

/-- Settles O12: both operations hold their bit when none is held. -/
theorem firstBitOfPairIsHeld : Obligations.FirstBitOfPairIsHeld := by
  unfold Obligations.FirstBitOfPairIsHeld
  intro s hheld
  exact ⟨congrArg flowResult (consumeBit_of_not_held hheld), congrArg flowResult (consumeBit_of_not_held hheld)⟩

/-- The bit operation of each value is the pseudocode both share. -/
theorem exec_bitOp_eq_consumeBit {b : ℕ} {i : Instr} (h : b = 0 ∧ i = .modBit0 ∨ b = 1 ∧ i = .modBit1) (s : State) :
    ∃ v : BitVec 1, v.toNat = b ∧ exec i s = flowResult (consumeBit v s) := by
  rcases h with ⟨rfl, rfl⟩ | ⟨rfl, rfl⟩
  · exact ⟨0#1, rfl, rfl⟩
  · exact ⟨1#1, rfl, rfl⟩

/-- Settles O13: with a bit held, the operation is `GEN` (O10) of the assembled symbol from the emptied pair. -/
theorem secondBitOfPairGeneratesItsSymbol : Obligations.SecondBitOfPairGeneratesItsSymbol := by
  unfold Obligations.SecondBitOfPairGeneratesItsSymbol
  intro s b i hc hheld hbi k hk
  obtain ⟨v, hv, hexec⟩ := exec_bitOp_eq_consumeBit hbi s
  obtain rfl : k = assembleSymbol s.mod.bit v := by
    apply BitVec.eq_of_toNat_eq
    rw [hk, assembleSymbol_toNat, hv]
  rw [consumeBit_of_held hheld] at hexec
  obtain ⟨hall, hfirst⟩ := genWritesOneSymbolOfCarrier (assembleSymbol s.mod.bit v)
    (onMod (fun m => { m with held := false, bit := 0#1 }) s) hc
  exact ⟨fun hok => hexec.trans (hall hok), fun n hn hfail => hexec.trans (hfirst n hn hfail)⟩

/-! ### The preamble -/

/-- From time index `t` on, the stream `q` is of the symbols of a list in order, each for `len` samples. -/
def Spells (q : ℕ → Symbol) (len : ℕ) : ℕ → List Symbol → Prop
  | _, [] => True
  | t, k :: l => (∀ i < len, q (t + i) = k) ∧ Spells q len (t + len) l

theorem generateAll_allOk {l : List Symbol} (hc : s.cfg.wellFormed = true)
    (hq : Spells q s.cfg.symbolLen s.mod.t l) (hok : AllOk s.env.smpAnswers (s.cfg.symbolLen * l.length)) :
    generateAll l s = .goOn (wordsSent (streamWords s.cfg q s.mod.t (s.cfg.symbolLen * l.length))
      (s.cfg.symbolLen * l.length) (s.cfg.symbolLen * l.length) s) := by
  induction l generalizing s with
  | nil => rw [generateAll, List.length_nil, Nat.mul_zero]; exact congrArg Flow.goOn (wordsSent_zero s).symm
  | cons k l ih =>
    have hlen : s.cfg.symbolLen * (k :: l).length = s.cfg.symbolLen + s.cfg.symbolLen * l.length := by
      rw [List.length_cons, Nat.mul_succ, Nat.add_comm]
    rw [hlen] at hok ⊢
    obtain ⟨hqk, hql⟩ := hq
    obtain ⟨hokk, hokl⟩ := allOk_add.mp hok
    rw [generateAll, generate_allOk hc hqk hokk, flowThen, ih (s := wordsSent _ _ _ s) hc hql hokl, wordsSent_wordsSent]
    simp only [wordsSent_cfg, wordsSent_mod, ← streamWords_add]

theorem generateAll_firstFail {l : List Symbol} (hc : s.cfg.wellFormed = true)
    (hq : Spells q s.cfg.symbolLen s.mod.t l) (hn : n < s.cfg.symbolLen * l.length)
    (hfail : FirstFail s.env.smpAnswers n) :
    generateAll l s = .raised (raiseMod (wordsSent (streamWords s.cfg q s.mod.t n) n (n + 1) s)) := by
  induction l generalizing s n with
  | nil => exact absurd hn (Nat.not_lt_zero n)
  | cons k l ih =>
    obtain ⟨hqk, hql⟩ := hq
    rcases Nat.lt_or_ge n s.cfg.symbolLen with hfirst | hlater
    · rw [generateAll, generate_firstFail hc hqk hfirst hfail, flowThen]
    · obtain ⟨m, rfl⟩ := Nat.exists_eq_add_of_le hlater
      obtain ⟨hokk, hfaill⟩ := firstFail_add.mp hfail
      have hm : m < s.cfg.symbolLen * l.length := by
        rw [List.length_cons, Nat.mul_succ] at hn
        omega
      rw [generateAll, generate_allOk hc hqk hokk, flowThen, ih (s := wordsSent _ _ _ s) hc hql hm hfaill,
        wordsSent_wordsSent]
      simp only [wordsSent_cfg, wordsSent_mod, ← streamWords_add, Nat.add_assoc]

/-- Period `j` of the preamble is `00` or `11` as `j` is even or odd (R57). -/
theorem preambleSymbolAt_of_period {l j i : ℕ} (hi : i < l) :
    preambleSymbolAt l (l * j + i) = if j % 2 = 0 then 0b00#2 else 0b11#2 := by
  rw [preambleSymbolAt, Nat.mul_add_div (by omega), Nat.div_eq_of_lt hi, Nat.add_zero]

/-- The four symbols that `MOD.START` generates are the periods 0 to 3 of the preamble. -/
theorem spells_preamble (l : ℕ) : Spells (preambleSymbolAt l) l 0 preamble := by
  refine ⟨fun i hi => ?_, fun i hi => ?_, fun i hi => ?_, fun i hi => ?_, trivial⟩
  · rw [show 0 + i = l * 0 + i by omega, preambleSymbolAt_of_period hi]; rfl
  · rw [show 0 + l + i = l * 1 + i by omega, preambleSymbolAt_of_period hi]; rfl
  · rw [show 0 + l + l + i = l * 2 + i by omega, preambleSymbolAt_of_period hi]; rfl
  · rw [show 0 + l + l + l + i = l * 3 + i by omega, preambleSymbolAt_of_period hi]; rfl

/-- Settles O11: the preamble is a stretch of its stream from time index 0, and the registers are cleared before it. -/
theorem modStartEmitsThePreamble : Obligations.ModStartEmitsThePreamble := by
  unfold Obligations.ModStartEmitsThePreamble
  refine ⟨fun _ _ _ => rfl, fun s hwf => ?_⟩
  obtain ⟨hc, -⟩ := (Config.wellFormedMod_iff s.cfg).mp hwf
  have hq : Spells (preambleSymbolAt s.cfg.symbolLen) (clearMod s).cfg.symbolLen (clearMod s).mod.t preamble :=
    spells_preamble s.cfg.symbolLen
  have hlen : 4 * s.cfg.symbolLen = (clearMod s).cfg.symbolLen * preamble.length := Nat.mul_comm 4 _
  refine ⟨fun hok => ?_, fun n hn hfail => ?_⟩
  · rw [hlen] at hok ⊢
    rw [exec, execModStart, generateAll_allOk (s := clearMod s) hc hq hok, preambleWords_eq_streamWords,
      wordsSent_streamWords]
    simp [flowThen, flowResult, onMod, afterWords, State.setMod]
  · rw [hlen] at hn
    rw [exec, execModStart, generateAll_firstFail (s := clearMod s) hc hq hn hfail, preambleWords_eq_streamWords,
      raiseMod_wordsSent_streamWords]
    simp [flowThen, flowResult, onMod, afterWordsThenFail, Safety.modFailed]

end Sys2Proof.Proofs.Generator
end

section
/-!
SUPPORT. Proof of O49. A run of `MOD` is the strobe, one turn for each bit, the turn that ends the run, and idle turns.
The bits' turns keep an invariant indexed by the number of bits consumed; each turn's effect is that of O11, O12, O13
or O14.
-/

namespace Sys2Proof.Proofs.ModulatorRun

open Sys2Proof Sys2Proof.Machine Sys2Proof.Safety Sys2Proof.Laws
open Sys2Proof.Proofs.Independence Sys2Proof.Proofs.Selection Sys2Proof.Proofs.Generator

/-! ### Runs of several steps -/

theorem run_add_of_next {s t : State} {n m : ℕ} (h : Sys2Proof.core.run n s = .next t) :
    Sys2Proof.core.run (n + m) s = Sys2Proof.core.run m t := by
  induction n generalizing s with
  | zero => cases h; rw [Nat.zero_add]
  | succ n ih =>
    cases hstep : step s with
    | next u =>
      rw [run_succ_of_next n hstep] at h
      rw [Nat.succ_add, run_succ_of_next _ hstep, ih h]
    | fault r => rw [run_succ_of_fault n hstep] at h; cases h
    | refused r => rw [run_succ_of_refused n hstep] at h; cases h

/-- An invariant indexed by the number of steps made, kept by each of `n` steps, holds after them. -/
theorem run_of_steps {P : ℕ → State → Prop} {n : ℕ}
    (hstep : ∀ j < n, ∀ s, P j s → ∃ t, step s = .next t ∧ P (j + 1) t) {s : State} (hs : P 0 s) :
    ∃ t, Sys2Proof.core.run n s = .next t ∧ P n t := by
  induction n with
  | zero => exact ⟨s, rfl, hs⟩
  | succ n ih =>
    obtain ⟨u, hrun, hu⟩ := ih fun j hj => hstep j (hj.trans n.lt_succ_self)
    obtain ⟨t, ht, hP⟩ := hstep n n.lt_succ_self u hu
    exact ⟨t, (run_add_of_next hrun).trans ((run_one u).trans ht), hP⟩

/-- Turns of a `MOD` that does not fetch are used up one by one. -/
theorem run_idle {n : ℕ} {s : State} (hstate : s.mod.state ≠ .run)
    (hturns : s.env.turns = List.replicate n (.mod false)) :
    Sys2Proof.core.run n s = .next { s with env := { s.env with turns := [] } } := by
  induction n generalizing s with
  | zero => rw [List.replicate_zero] at hturns; rw [← hturns]; rfl
  | succ n ih =>
    obtain ⟨hidle, -⟩ := haltedAndWaitingUnitsDoNothing s (List.replicate n (.mod false))
    rw [run_succ_of_next n (hidle hturns (.inl hstate))]
    exact ih hstate rfl

/-! ### Characters -/

/-- A character that is a bit (R76). -/
def IsBit (ch : Char8) : Prop :=
  ch = 0x30#8 ∨ ch = 0x31#8

/-- The bit a bit character carries (R75). -/
def charBit (ch : Char8) : BitVec 1 :=
  BitVec.ofNat 1 (bitValue ch)

theorem isBit_of_mem_bitPrefix {chars : List Char8} {ch : Char8} (h : ch ∈ bitPrefix chars) : IsBit ch := by
  simpa [IsBit] using List.mem_takeWhile_imp h

theorem decodeBit_of_isBit {ch : Char8} (h : IsBit ch) :
    bitValue ch = 0 ∧ decodeBit (bitData ch) = .modBit0 ∨ bitValue ch = 1 ∧ decodeBit (bitData ch) = .modBit1 := by
  rcases h with rfl | rfl
  · exact .inl ⟨rfl, by rw [decodeBit_bitData]; rfl⟩
  · exact .inr ⟨rfl, by rw [decodeBit_bitData]; rfl⟩

/-- O12 for a bit character. -/
theorem exec_firstBit {ch : Char8} {s : State} (hbit : IsBit ch) (hheld : s.mod.held = false) :
    exec (decodeBit (bitData ch)) s = .next (onMod (fun m => { m with held := true, bit := charBit ch }) s) := by
  obtain ⟨h0, h1⟩ := firstBitOfPairIsHeld s hheld
  rw [charBit]
  rcases decodeBit_of_isBit hbit with ⟨hv, hd⟩ | ⟨hv, hd⟩
  · rw [hd, hv, h0]
  · rw [hd, hv, h1]

/-- O13 for a bit character, every write answered `ok`, as a stretch of a stream. -/
theorem exec_secondBit {ch : Char8} {s : State} {q : ℕ → Symbol} {k : Symbol} (hc : s.cfg.wellFormed = true)
    (hbit : IsBit ch) (hheld : s.mod.held = true) (hk : k.toNat = 2 * s.mod.bit.toNat + bitValue ch)
    (hq : ∀ i < s.cfg.symbolLen, q (s.mod.t + i) = k) (hok : s.env.smpAnswers = []) :
    exec (decodeBit (bitData ch)) s = .next
      (onMod (fun m => { m with t := m.t + s.cfg.symbolLen, held := false, bit := 0#1 })
        (afterWords (streamWords s.cfg q s.mod.t s.cfg.symbolLen) s)) := by
  obtain ⟨hall, -⟩ := secondBitOfPairGeneratesItsSymbol s _ _ hc hheld (decodeBit_of_isBit hbit) k hk
  rw [hall (hok ▸ allOk_nil _), carrierWords_eq_streamWords, streamWords_congr fun i hi => (hq i hi).symm]

/-- An item whose operation ends the run: the end of the stream, or a character that is no bit (O14). -/
def EndsRun (item : BitItem) : Prop :=
  ∀ s, exec (decodeBit item) s = .next (onMod (fun m => { m with state := .done }) s)

theorem endsRun_bitEos : EndsRun bitEos := by
  obtain ⟨-, -, hexec⟩ := stopAndEndOfStreamFinishTheRun
  rw [EndsRun, decodeBit_of_status_eos (by decide)]
  exact fun s => (hexec 0#8 s).2

theorem endsRun_bitData {ch : Char8} (h : ¬ IsBit ch) : EndsRun (bitData ch) := by
  obtain ⟨h0, h1⟩ := not_or.mp h
  obtain ⟨-, -, hexec⟩ := stopAndEndOfStreamFinishTheRun
  rw [EndsRun, decodeBit_bitData, if_neg h0, if_neg h1]
  exact fun s => (hexec ch s).1

theorem bitPrefix_cons_of_isBit {ch : Char8} (h : IsBit ch) (chars : List Char8) :
    bitPrefix (ch :: chars) = ch :: bitPrefix chars :=
  List.takeWhile_cons_of_pos (by simpa [IsBit] using h)

theorem bitPrefix_cons_of_not_isBit {ch : Char8} (h : ¬ IsBit ch) (chars : List Char8) :
    bitPrefix (ch :: chars) = [] :=
  List.takeWhile_cons_of_neg (by simpa [IsBit] using h)

/-- The items of a run: those of the bits, one that ends the run, and the rest, an item for each character after the
bits. -/
theorem runItems_split (chars : List Char8) : ∃ item items,
    chars.map bitData ++ [bitEos] = (bitPrefix chars).map bitData ++ item :: items ∧ EndsRun item ∧
      chars.length = (bitPrefix chars).length + items.length := by
  induction chars with
  | nil => exact ⟨bitEos, [], rfl, endsRun_bitEos, rfl⟩
  | cons ch chars ih =>
    by_cases hbit : IsBit ch
    · obtain ⟨item, items, hitems, hend, hlen⟩ := ih
      rw [bitPrefix_cons_of_isBit hbit]
      refine ⟨item, items, congrArg (bitData ch :: ·) hitems, hend, ?_⟩
      rw [List.length_cons, List.length_cons, hlen, Nat.add_right_comm]
    · rw [bitPrefix_cons_of_not_isBit hbit]
      exact ⟨bitData ch, chars.map bitData ++ [bitEos], rfl, endsRun_bitData hbit, by simp⟩

/-! ### The stream of a run -/

/-- In the payload, period `4 + i` is of the `i`-th symbol (R127). -/
theorem modulatedSymbolAt_payload {p : List Char8} {l i j : ℕ} (hj : j < l) :
    modulatedSymbolAt p l (l * (4 + i) + j) = payloadSymbol p i := by
  have hpast : ¬ l * (4 + i) + j < 4 * l := by rw [Nat.mul_add, Nat.mul_comm l 4]; omega
  rw [modulatedSymbolAt, if_neg hpast, Nat.mul_add_div (by omega), Nat.div_eq_of_lt hj]
  congr 1
  omega

theorem payloadSymbol_toNat (p : List Char8) (i : ℕ) : (payloadSymbol p i).toNat =
    2 * (charBit (p.getD (2 * i) 0#8)).toNat + bitValue (p.getD (2 * i + 1) 0#8) := by
  have hlt : ∀ ch : Char8, bitValue ch < 2 := fun ch => Nat.mod_lt _ two_pos
  have h1 := hlt (p.getD (2 * i) 0#8)
  have h2 := hlt (p.getD (2 * i + 1) 0#8)
  rw [payloadSymbol, charBit, BitVec.toNat_ofNat, BitVec.toNat_ofNat]
  omega

theorem preambleWords_eq_modulated (c : Config) (p : List Char8) :
    preambleWords c (4 * c.symbolLen) = streamWords c (modulatedSymbolAt p c.symbolLen) 0 (4 * c.symbolLen) := by
  rw [preambleWords_eq_streamWords]
  refine streamWords_congr fun i hi => ?_
  rw [Nat.zero_add, modulatedSymbolAt, if_pos hi]

theorem modulate_eq_streamWords (c : Config) (chars : List Char8) :
    modulate c chars = streamWords c (modulatedSymbolAt (bitPrefix chars) c.symbolLen) 0
      (c.symbolLen * (4 + (bitPrefix chars).length / 2)) := by
  simp [modulate, streamWords]

/-! ### The turns of the bits -/

/-- `MOD`'s registers after `j` bits: a symbol for each pair, and the odd bit held. -/
def regsAfter (c : Config) (p : List Char8) (j : ℕ) : ModRegs where
  state := .run
  t := c.symbolLen * (4 + j / 2)
  held := decide (j % 2 = 1)
  bit := if j % 2 = 1 then charBit (p.getD (j - 1) 0#8) else 0#1
  cause := .none

theorem regsAfter_even (c : Config) (p : List Char8) (i : ℕ) : regsAfter c p (2 * i) =
    { state := .run, t := c.symbolLen * (4 + i), held := false, bit := 0#1, cause := .none } := by
  simp [regsAfter]

theorem regsAfter_odd (c : Config) (p : List Char8) (i : ℕ) : regsAfter c p (2 * i + 1) =
    { state := .run, t := c.symbolLen * (4 + i), held := true, bit := charBit (p.getD (2 * i) 0#8)
      cause := .none } := by
  have hhalf : (2 * i + 1) / 2 = i := by omega
  simp [regsAfter, hhalf]

/-- In a run from `s` on the bits `p`, `read` of their items have been read, and the operations of `j` of them run. -/
structure BitsConsumed (p : List Char8) (laterTurns : List Turn) (laterItems : List BitItem) (s : State)
    (read j : ℕ) (t : State) : Prop where
  cfg : t.cfg = s.cfg
  dem : t.dem = s.dem
  mod : t.mod = regsAfter s.cfg p j
  turns : t.env.turns = List.replicate (p.length - read) (.mod false) ++ laterTurns
  bitSrc : t.env.bitSrc = (p.drop read).map bitData ++ laterItems
  smpAnswers : t.env.smpAnswers = []
  smpSink : t.env.smpSink = s.env.smpSink ++ streamWords s.cfg (modulatedSymbolAt p s.cfg.symbolLen) 0 t.mod.t

/-- `t` with a schedule and the items of `BITSRC` that remain after a turn. -/
def itemTaken (rest : List Turn) (items : List BitItem) (t : State) : State :=
  { t with env := { t.env with turns := rest, bitSrc := items } }

/-- A turn in `RUN` with an item offered runs the item's operation (O5). -/
theorem step_item {t : State} {item : BitItem} {items : List BitItem} {rest : List Turn}
    (hwf : t.cfg.wellFormedMod = true) (hrun : t.mod.state = .run) (hturns : t.env.turns = .mod false :: rest)
    (hsrc : t.env.bitSrc = item :: items) : step t = exec (decodeBit item) (itemTaken rest items t) := by
  obtain ⟨-, -, hstep, -⟩ := stepRunsTheSelectedOperation t rest
  exact hstep item items _ hturns hrun hsrc hwf (by rw [hrun]; rfl)

section Bits

variable {p : List Char8} {laterTurns : List Turn} {laterItems : List BitItem} {s t : State} {j : ℕ}

/-- The strobe: the preamble is written and no item read (O11). -/
theorem bitsConsumed_start (hwf : s.cfg.wellFormedMod = true)
    (hturns : s.env.turns = .mod true :: (List.replicate p.length (.mod false) ++ laterTurns))
    (hsrc : s.env.bitSrc = p.map bitData ++ laterItems) (hok : s.env.smpAnswers = []) :
    ∃ t, step s = .next t ∧ BitsConsumed p laterTurns laterItems s 0 0 t := by
  obtain ⟨hstrobe, -⟩ := stepRunsTheSelectedOperation s (List.replicate p.length (.mod false) ++ laterTurns)
  obtain ⟨-, hpreamble⟩ := modStartEmitsThePreamble
  obtain ⟨hstart, -⟩ := hpreamble
    { s with env := { s.env with turns := List.replicate p.length (.mod false) ++ laterTurns } } hwf
  refine ⟨_, (hstrobe hturns hwf).trans (hstart (hok ▸ allOk_nil _)), rfl, rfl, ?_, rfl, hsrc, ?_, ?_⟩
  · simp [onMod, regsAfter, Nat.mul_comm]
  · simp [onMod, afterWords, hok]
  · simp only [onMod, afterWords, preambleWords_eq_modulated s.cfg p]

/-- A turn reads the next bit's item and runs its operation. -/
theorem BitsConsumed.reads (hwf : s.cfg.wellFormedMod = true) (hj : j < p.length)
    (h : BitsConsumed p laterTurns laterItems s j j t) :
    ∃ u, step t = exec (decodeBit (bitData (p.getD j 0#8))) u ∧
      BitsConsumed p laterTurns laterItems s (j + 1) j u := by
  obtain ⟨hcfg, hdem, hmod, hturns, hsrc, hok, hsink⟩ := h
  rw [show p.length - j = p.length - (j + 1) + 1 by omega] at hturns
  rw [List.drop_eq_getElem_cons hj] at hsrc
  rw [List.getD_eq_getElem _ _ hj]
  exact ⟨_, step_item (hcfg ▸ hwf) (by rw [hmod]; rfl) hturns hsrc, hcfg, hdem, hmod, rfl, rfl, hok, hsink⟩

/-- The operation of a bit: the first of a pair is held, the second writes the pair's period of the stream. -/
theorem BitsConsumed.exec_bit {read : ℕ} (hc : s.cfg.wellFormed = true) (hbit : IsBit (p.getD j 0#8))
    (h : BitsConsumed p laterTurns laterItems s read j t) :
    ∃ u, exec (decodeBit (bitData (p.getD j 0#8))) t = .next u ∧
      BitsConsumed p laterTurns laterItems s read (j + 1) u := by
  obtain ⟨hcfg, hdem, hmod, hturns, hsrc, hok, hsink⟩ := h
  rcases Nat.even_or_odd' j with ⟨i, rfl | rfl⟩
  · rw [regsAfter_even] at hmod
    refine ⟨_, exec_firstBit hbit (by rw [hmod]), hcfg, hdem, ?_, hturns, hsrc, hok, hsink⟩
    simp only [onMod, hmod, regsAfter_odd]
  · rw [regsAfter_odd] at hmod
    have hq : ∀ x < t.cfg.symbolLen, modulatedSymbolAt p s.cfg.symbolLen (t.mod.t + x) = payloadSymbol p i := by
      rw [hmod, hcfg]; exact fun x hx => modulatedSymbolAt_payload hx
    have hk : (payloadSymbol p i).toNat = 2 * t.mod.bit.toNat + bitValue (p.getD (2 * i + 1) 0#8) := by
      rw [hmod]; exact payloadSymbol_toNat p i
    refine ⟨_, exec_secondBit (hcfg ▸ hc) hbit (by rw [hmod]) hk hq hok, hcfg, hdem, ?_, hturns, hsrc, ?_, ?_⟩
    · rw [show 2 * i + 1 + 1 = 2 * (i + 1) by omega, regsAfter_even]
      simp only [onMod, afterWords, hmod, hcfg]
      rfl
    · simp [onMod, afterWords, hok]
    · simp only [onMod, afterWords, hsink, hcfg, List.append_assoc, streamWords_add, Nat.zero_add]

/-- One more turn, one more bit. -/
theorem BitsConsumed.next (hwf : s.cfg.wellFormedMod = true) (hp : ∀ ch ∈ p, IsBit ch) (hj : j < p.length)
    (h : BitsConsumed p laterTurns laterItems s j j t) :
    ∃ u, step t = .next u ∧ BitsConsumed p laterTurns laterItems s (j + 1) (j + 1) u := by
  obtain ⟨hc, -⟩ := (Config.wellFormedMod_iff s.cfg).mp hwf
  have hbit : IsBit (p.getD j 0#8) := by
    rw [List.getD_eq_getElem _ _ hj]; exact hp _ (List.getElem_mem hj)
  obtain ⟨u, hstep, hread⟩ := h.reads hwf hj
  obtain ⟨v, hexec, hv⟩ := hread.exec_bit hc hbit
  exact ⟨v, hstep.trans hexec, hv⟩

theorem BitsConsumed.run_bits (hwf : s.cfg.wellFormedMod = true) (hp : ∀ ch ∈ p, IsBit ch)
    (h : BitsConsumed p laterTurns laterItems s 0 0 t) :
    ∃ u, Sys2Proof.core.run p.length t = .next u ∧ BitsConsumed p laterTurns laterItems s p.length p.length u :=
  run_of_steps (P := fun j => BitsConsumed p laterTurns laterItems s j j) (fun _ hj _ hu => hu.next hwf hp hj) h

/-- The turn after the bits ends the run, and the item it took is used up (O14). -/
theorem BitsConsumed.ends {item : BitItem} {rest : List Turn} (hwf : s.cfg.wellFormedMod = true)
    (hend : EndsRun item)
    (h : BitsConsumed p (.mod false :: rest) (item :: laterItems) s p.length p.length t) :
    step t = .next (onMod (fun m => { m with state := .done }) (itemTaken rest laterItems t)) := by
  obtain ⟨hcfg, -, hmod, hturns, hsrc, -, -⟩ := h
  rw [Nat.sub_self] at hturns
  rw [List.drop_length] at hsrc
  rw [step_item (hcfg ▸ hwf) (by rw [hmod]; rfl) hturns hsrc, hend]

end Bits

/-- Settles O49: the strobe, the bits' turns by their invariant, the turn that ends the run, and idle turns. -/
theorem modulatorRunWritesModulate : Obligations.ModulatorRunWritesModulate := by
  unfold Obligations.ModulatorRunWritesModulate
  intro chars s hwf
  obtain ⟨item, items, hitems, hend, hlen⟩ := runItems_split chars
  have hturns : (modRun chars s).env.turns = .mod true :: (List.replicate (bitPrefix chars).length (.mod false) ++
      .mod false :: List.replicate items.length (.mod false)) := by
    rw [← List.replicate_succ, List.replicate_append_replicate, ← Nat.add_assoc, ← hlen]; rfl
  obtain ⟨t0, hstart, h0⟩ := bitsConsumed_start (s := modRun chars s) hwf hturns hitems rfl
  obtain ⟨t, hbits, h⟩ := h0.run_bits (s := modRun chars s) hwf fun ch => isBit_of_mem_bitPrefix
  have hstop := h.ends (s := modRun chars s) hwf hend
  have hrun : Sys2Proof.core.run (chars.length + 2) (modRun chars s) = _ :=
    calc Sys2Proof.core.run (chars.length + 2) (modRun chars s)
        = Sys2Proof.core.run ((bitPrefix chars).length + (items.length + 1)) t0 := by
          rw [show chars.length + 2 = (bitPrefix chars).length + (items.length + 1) + 1 by omega,
            run_succ_of_next _ hstart]
      _ = Sys2Proof.core.run (items.length + 1) t := run_add_of_next hbits
      _ = Sys2Proof.core.run items.length _ := run_succ_of_next _ hstop
      _ = .next _ := run_idle nofun rfl
  obtain ⟨hcfg, hdem, hmod, -, -, -, hsink⟩ := h
  rw [hmod] at hsink
  refine ⟨_, hrun, ?_, rfl, ?_, ?_, ?_, ?_, hdem, hcfg⟩
  · rw [modulate_eq_streamWords]
    exact hsink
  · exact congrArg ModRegs.cause hmod
  · exact congrArg ModRegs.t hmod
  · have hheld : t.mod.held = decide ((bitPrefix chars).length % 2 = 1) := congrArg ModRegs.held hmod
    exact hheld ▸ decide_eq_true_iff
  · rw [hitems, ← List.length_map (f := bitData), List.drop_append, List.drop_of_length_le (Nat.le_succ _),
      Nat.add_sub_cancel_left]
    rfl

end Sys2Proof.Proofs.ModulatorRun
end

section
/-!
SUPPORT. Proofs of O16 to O21, O23, O43 and O45: the operations of the synchronizer, spec/42_synchronizer.md. Each
operation is said once by an equation per branch of its rule, in terms of the machine's phase test; a branch with
`D_REM = 0` is a branch of the next plateau after the reload of R145.
-/

namespace Sys2Proof.Proofs.Synchronizer

open Sys2Proof Sys2Proof.Machine Sys2Proof.Safety Sys2Proof.Laws
open Sys2Proof.Proofs.Turns Sys2Proof.Proofs.Encoding Sys2Proof.Proofs.Progress

/-! ### Which items select an operation -/

theorem selectedByEos_syncEos {d : DState} (hd : inSync d = true) : SelectedByEos d .syncEos := by
  intro w m item hlow hhigh
  have hcls : d ≠ .cls := by rintro rfl; exact Bool.false_ne_true hd
  have hrow := decodeSample_eos hlow hhigh (demFetches_of_inSync hd)
  rwa [if_neg hcls] at hrow

/-- Settles O16: the strobe's operation writes the reset values. -/
theorem demStartBeginsAFreshRun : Obligations.DemStartBeginsAFreshRun := by
  unfold Obligations.DemStartBeginsAFreshRun
  exact ⟨fun _ _ _ => rfl, fun _ => rfl⟩

/-! ### The branches of the operations -/

section Branches

variable {x : ℤ} {s : State}

theorem execSyncInit_match (hzero : matchesNow s 0#2 x = true) :
    exec (.syncInit x) s =
      .next (onDem (fun d => { d with symlen := d.symlen + 1, t := d.t + 1, state := .fz }) s) := by
  simp only [exec, execSyncInit, hzero, if_true]; rfl

theorem execSyncInit_mismatch (hzero : matchesNow s 0#2 x ≠ true) :
    exec (.syncInit x) s = .next (onDem (Safety.demFailed .sync .init) s) := by
  simp only [exec, execSyncInit, hzero]; rfl

theorem execSyncFz_zero (hzero : matchesNow s 0#2 x = true) :
    exec (.syncFz x) s = .next (onDem (fun d => { d with symlen := d.symlen + 1, t := d.t + 1 }) s) := by
  simp only [exec, execSyncFz, hzero, if_true]; rfl

theorem execSyncFz_one (hlen : 1 ≤ s.dem.symlen) (hzero : matchesNow s 0#2 x ≠ true)
    (hone : matchesNow s 3#2 x = true) :
    exec (.syncFz x) s =
      .next (onDem (fun d => { d with rem := d.symlen - 1, t := d.t + 1, state := .fo }) s) := by
  obtain ⟨n, hn⟩ := Nat.exists_eq_add_of_le' hlen
  simp [exec, execSyncFz, hzero, hone, hn, onDem, State.setDem]

theorem execSyncFz_mismatch (hzero : matchesNow s 0#2 x ≠ true) (hone : matchesNow s 3#2 x ≠ true) :
    exec (.syncFz x) s = .next (onDem (Safety.demFailed .sync .fz) s) := by
  simp only [exec, execSyncFz, hzero, hone]; rfl

theorem execSyncSo_last (hone : matchesNow s 3#2 x = true) (hrem : s.dem.rem = 1) :
    exec (.syncSo x) s = .next (onDem (fun d => { d with rem := 0, t := d.t + 1, state := .cls }) s) := by
  simp only [exec, execSyncSo, hone, hrem, if_true]; rfl

theorem execSyncSo_countsDown (hone : matchesNow s 3#2 x = true) (hrem : 2 ≤ s.dem.rem) :
    exec (.syncSo x) s = .next (onDem (fun d => { d with rem := d.rem - 1, t := d.t + 1 }) s) := by
  obtain ⟨n, hn⟩ := Nat.exists_eq_add_of_le' hrem
  simp [exec, execSyncSo, hone, hn, onDem, State.setDem]

theorem execSyncSo_mismatch (hone : matchesNow s 3#2 x ≠ true) :
    exec (.syncSo x) s = .next (onDem (Safety.demFailed .sync .so) s) := by
  simp only [exec, execSyncSo, hone]; rfl

theorem execSyncSz_countsDown (hrem : 1 ≤ s.dem.rem) (hzero : matchesNow s 0#2 x = true) :
    exec (.syncSz x) s = .next (onDem (fun d => { d with rem := d.rem - 1, t := d.t + 1 }) s) := by
  obtain ⟨n, hn⟩ := Nat.exists_eq_add_of_le' hrem
  simp [exec, execSyncSz, hzero, hn, onDem, State.setDem]

theorem execSyncSz_mismatch (hrem : 1 ≤ s.dem.rem) (hzero : matchesNow s 0#2 x ≠ true) :
    exec (.syncSz x) s = .next (onDem (Safety.demFailed .sync .sz) s) := by
  obtain ⟨n, hn⟩ := Nat.exists_eq_add_of_le' hrem
  simp only [exec, execSyncSz, hn, hzero]; rfl

theorem execSyncFo_countsDown (hrem : 1 ≤ s.dem.rem) (hone : matchesNow s 3#2 x = true) :
    exec (.syncFo x) s = .next (onDem (fun d => { d with rem := d.rem - 1, t := d.t + 1 }) s) := by
  obtain ⟨n, hn⟩ := Nat.exists_eq_add_of_le' hrem
  simp [exec, execSyncFo, hone, hn, onDem, State.setDem]

theorem execSyncFo_mismatch (hrem : 1 ≤ s.dem.rem) (hone : matchesNow s 3#2 x ≠ true) :
    exec (.syncFo x) s = .next (onDem (Safety.demFailed .sync .fo) s) := by
  obtain ⟨n, hn⟩ := Nat.exists_eq_add_of_le' hrem
  simp only [exec, execSyncFo, hn, hone]; rfl

/-- R145 with nothing measured: the sample goes through both reloads, which change only `D_STATE`. -/
theorem execSyncFo_mismatch_of_zero (hrem : s.dem.rem = 0) (hlen : s.dem.symlen = 0)
    (hone : matchesNow s 3#2 x ≠ true) :
    exec (.syncFo x) s = .next (onDem (Safety.demFailed .sync .so) s) := by
  rw [execSyncFo_redispatches hrem, execSyncSz_redispatches (s := reload .sz s) hlen,
    execSyncSo_mismatch (s := reload .so (reload .sz s)) hone]
  simp [onDem, reload, State.setDem, Safety.demFailed, hrem, hlen]

end Branches

/-! ### The obligations of the operations -/

/-- Settles O17: the operation's two branches, with the machine's phase test read as the spec's. -/
theorem syncInitTestsPhaseZero : Obligations.SyncInitTestsPhaseZero := by
  unfold Obligations.SyncInitTestsPhaseZero
  refine ⟨fun _ _ _ hitem => decodeSample_data hitem, fun x s hc => ?_⟩
  simp only [← matchesNow_iff hc]
  exact ⟨execSyncInit_match, execSyncInit_mismatch⟩

/-- Settles O18: the operation's three branches that answer a next state. -/
theorem syncFzCountsTheFirstPlateau : Obligations.SyncFzCountsTheFirstPlateau := by
  unfold Obligations.SyncFzCountsTheFirstPlateau
  refine ⟨fun _ _ _ hitem => decodeSample_data hitem, fun x s hc => ?_⟩
  simp only [← matchesNow_iff hc]
  exact ⟨execSyncFz_zero, execSyncFz_one, execSyncFz_mismatch⟩

/-- Settles O19: with `D_REM = 0` the branches are those of `SYNC.SZ` after the reload. -/
theorem syncFoCountsDownOrRedispatches : Obligations.SyncFoCountsDownOrRedispatches := by
  unfold Obligations.SyncFoCountsDownOrRedispatches
  refine ⟨fun _ _ _ hitem => decodeSample_data hitem, fun x s hc => ?_⟩
  simp only [← matchesNow_iff hc]
  refine ⟨execSyncFo_countsDown, execSyncFo_mismatch, fun hrem hlen hzero => ?_, fun hrem hlen hzero => ?_,
    execSyncFo_mismatch_of_zero⟩
  · exact (execSyncFo_redispatches hrem).trans (execSyncSz_countsDown (s := reload .sz s) hlen hzero)
  · exact (execSyncFo_redispatches hrem).trans (execSyncSz_mismatch (s := reload .sz s) hlen hzero)

/-- Settles O20: with `D_REM = 0` the branches are those of `SYNC.SO` after the reload. -/
theorem syncSzCountsDownOrRedispatches : Obligations.SyncSzCountsDownOrRedispatches := by
  unfold Obligations.SyncSzCountsDownOrRedispatches
  refine ⟨fun _ _ _ hitem => decodeSample_data hitem, fun x s hc => ?_⟩
  simp only [← matchesNow_iff hc]
  refine ⟨execSyncSz_countsDown, execSyncSz_mismatch, fun hrem hlen hone => ?_, fun hrem hlen hone => ?_,
    fun hrem hone => ?_⟩
  · exact (execSyncSz_redispatches hrem).trans (execSyncSo_last (s := reload .so s) hone hlen)
  · exact (execSyncSz_redispatches hrem).trans (execSyncSo_countsDown (s := reload .so s) hone hlen)
  · exact (execSyncSz_redispatches hrem).trans (execSyncSo_mismatch (s := reload .so s) hone)

/-- Settles O21: the operation's three branches that answer a next state. -/
theorem syncSoCompletesOnTheLastSample : Obligations.SyncSoCompletesOnTheLastSample := by
  unfold Obligations.SyncSoCompletesOnTheLastSample
  refine ⟨fun _ _ _ hitem => decodeSample_data hitem, fun x s hc => ?_⟩
  simp only [← matchesNow_iff hc]
  exact ⟨execSyncSo_last, execSyncSo_countsDown, execSyncSo_mismatch⟩

/-! ### The end of the stream -/

section EndOfStream

variable {l : List Answer} {s : State}

theorem allOk_one_iff : AllOk l 1 ↔ l.headD .ok = .ok := by
  cases l <;> simp [AllOk]

theorem firstFail_zero_iff : FirstFail l 0 ↔ l.headD .ok = .fail := by
  cases l <;> simp [FirstFail, AllOk]

theorem finishDem_allOk (hok : AllOk s.env.bitAnswers 1) :
    finishDem s = .goOn (onDem (fun d => { d with state := .done }) (afterChars [0x0A#8] s)) := by
  rw [finishDem, writeChar_ok (allOk_one_iff.mp hok)]; rfl

theorem finishDem_firstFail (hfail : FirstFail s.env.bitAnswers 0) :
    finishDem s = .raised (onDem (Safety.demFailed .channel s.dem.state) (afterCharsThenFail [] s)) := by
  rw [finishDem, writeChar_fail (firstFail_zero_iff.mp hfail)]; rfl

theorem execSyncEos_fail (hparam : s.cfg.eosInSync = .fail) :
    exec .syncEos s = .next (onDem (Safety.demFailed .syncEos s.dem.state) s) := by
  simp only [exec, execSyncEos, hparam]; rfl

theorem execSyncEos_normal (hparam : s.cfg.eosInSync = .normal) : exec .syncEos s = flowResult (finishDem s) := by
  simp only [exec, execSyncEos, hparam]

end EndOfStream

/-- Settles O23: under `NORMAL` the operation is the newline and `DONE`, whose write may fail. -/
theorem endOfStreamInPreamble : Obligations.EndOfStreamInPreamble := by
  unfold Obligations.EndOfStreamInPreamble
  refine ⟨fun d => selectedByEos_syncEos, fun s => ⟨execSyncEos_fail, fun hparam hok => ?_, fun hparam hfail => ?_⟩⟩
  · rw [execSyncEos_normal hparam, finishDem_allOk hok, flowResult]
  · rw [execSyncEos_normal hparam, finishDem_firstFail hfail, flowResult]

/-! ### Time -/

/-- R26, R150: `D_T` counts the samples consumed without failing. -/
def CountsSample (s t : State) : Prop :=
  (t.dem.state ≠ .failed → t.dem.t = s.dem.t + 1) ∧ (t.dem.state = .failed → t.dem.t = s.dem.t)

section Time

variable {x : ℤ} {s t : State}

theorem countsSample_advance {d : DemRegs} (hstate : d.state ≠ .failed) (ht : d.t = s.dem.t + 1) :
    CountsSample s (s.setDem d) :=
  ⟨fun _ => ht, fun hfailed => absurd hfailed hstate⟩

theorem countsSample_raise (c : Cause) (f : DState) : CountsSample s (raiseDem c f s) :=
  ⟨fun hstate => absurd rfl hstate, fun _ => rfl⟩

theorem execSyncInit_countsSample (h : exec (.syncInit x) s = .next t) : CountsSample s t := by
  simp only [exec, execSyncInit] at h
  split at h <;> cases h
  · exact countsSample_advance nofun rfl
  · exact countsSample_raise ..

theorem execSyncFz_countsSample (hs : s.dem.state ≠ .failed) (h : exec (.syncFz x) s = .next t) :
    CountsSample s t := by
  simp only [exec, execSyncFz] at h
  split at h
  · cases h; exact countsSample_advance hs rfl
  · split at h
    · split at h <;> cases h
      exact countsSample_advance nofun rfl
    · cases h; exact countsSample_raise ..

theorem execSyncSo_countsSample (hs : s.dem.state ≠ .failed) (h : exec (.syncSo x) s = .next t) :
    CountsSample s t := by
  simp only [exec, execSyncSo] at h
  split at h
  · split at h <;> cases h
    · exact countsSample_advance nofun rfl
    · exact countsSample_advance hs rfl
  · cases h; exact countsSample_raise ..

/-- A re-dispatch keeps `D_T` and is in no failed state, so the sample counts as in the next plateau. -/
theorem execSyncSz_countsSample (hs : s.dem.state ≠ .failed) (h : exec (.syncSz x) s = .next t) :
    CountsSample s t := by
  simp only [exec, execSyncSz] at h
  split at h
  · exact execSyncSo_countsSample (s := reload .so s) nofun h
  · split at h <;> cases h
    · exact countsSample_advance hs rfl
    · exact countsSample_raise ..

theorem execSyncFo_countsSample (hs : s.dem.state ≠ .failed) (h : exec (.syncFo x) s = .next t) :
    CountsSample s t := by
  simp only [exec, execSyncFo] at h
  split at h
  · exact execSyncSz_countsSample (s := reload .sz s) nofun h
  · split at h <;> cases h
    · exact countsSample_advance hs rfl
    · exact countsSample_raise ..

end Time

/-- Settles O43, operation by operation. -/
theorem demodulatorTimeCountsSamples : Obligations.DemodulatorTimeCountsSamples := by
  unfold Obligations.DemodulatorTimeCountsSamples
  intro s t x i hi h hs
  rcases hi with rfl | rfl | rfl | rfl | rfl
  · exact execSyncInit_countsSample h
  · exact execSyncFz_countsSample hs h
  · exact execSyncFo_countsSample hs h
  · exact execSyncSz_countsSample hs h
  · exact execSyncSo_countsSample hs h

/-! ### The order of the states -/

section Order

variable {s t : State}

/-- R154: the outcomes of an operation in `CLS` are `CLS`, `DONE` and `FAILED`. -/
theorem inSync_of_sampleOutcome_cls (ho : SampleOutcome s t) (hcls : s.dem.state = .cls) :
    inSync t.dem.state = false := by
  cases ho with
  | channelFails | eosInPreamble | ends | mismatch | synchronises | decisionFails => rfl
  | scores x hs | decides x cs hs => exact congrArg inSync hs
  | firstSample hs | plateauGrows hs | plateauEnds hs => exact nomatch hs.symm.trans hcls
  | countsDown hn hs => simp [hcls] at hs
  | redispatches hr hs ht => simp [hcls] at hs

/-- Under `EOS_IN_SYNC = FAIL` the only outcome in `DONE` is that of `CLS.EOS`. -/
theorem cls_of_sampleOutcome_done (ho : SampleOutcome s t) (hrunning : s.dem.state ≠ .done)
    (hparam : s.cfg.eosInSync = .fail) (hdone : t.dem.state = .done) : s.dem.state = .cls := by
  induction ho with
  | channelFails | eosInPreamble | mismatch | firstSample | plateauEnds | synchronises | decisionFails =>
    exact nomatch hdone
  | ends hs => exact hs.resolve_right (by simp [hparam])
  | plateauGrows | countsDown | scores | decides => exact absurd hdone hrunning
  | redispatches hr hs ht ih =>
    rcases hs with ⟨-, rfl⟩ | ⟨-, rfl⟩ <;> exact nomatch ih nofun hparam hdone

end Order

/-- Settles O45: a turn without strobe waits or runs a fetched operation, whose outcomes keep the order. -/
theorem synchronisationIsNeverLeftBackwards : Obligations.SynchronisationIsNeverLeftBackwards := by
  unfold Obligations.SynchronisationIsNeverLeftBackwards
  intro s t rest hturn h
  rw [step_cons hturn] at h
  rcases demTurn_outcome h with ⟨hstart, -⟩ | ⟨-, rfl⟩ | ⟨-, hfetch, items, ho⟩
  · exact absurd hstart Bool.false_ne_true
  · exact ⟨congrArg inSync, fun _ => .inr⟩
  · obtain ⟨hrunning, -⟩ := demFetches_iff.mp hfetch
    have hcls := inSync_of_sampleOutcome_cls ho
    have hdone := cls_of_sampleOutcome_done ho hrunning
    exact ⟨hcls, fun hparam hlast => .inl (hdone hparam hlast)⟩

end Sys2Proof.Proofs.Synchronizer
end

section
/-!
SUPPORT. Proof of O50, spec/42_synchronizer.md R151. After `n` samples of `PREAMBLE(l)` the registers of `DEM` are known
exactly (`syncRegs`); each sample takes them one further, by the branch of O17 to O21 that its place in the four
plateaus selects.
-/

namespace Sys2Proof.Proofs.PreambleRun

open Sys2Proof Sys2Proof.Machine Sys2Proof.Safety Sys2Proof.Laws
open Sys2Proof.Proofs.Independence Sys2Proof.Proofs.Numerics Sys2Proof.Proofs.Selection
open Sys2Proof.Proofs.Generator Sys2Proof.Proofs.ModulatorRun Sys2Proof.Proofs.Synchronizer

/-! ### The registers along the preamble -/

/-- `DEM`'s registers in a running state with no period begun. -/
def runningRegs (d : DState) (t symlen rem : ℕ) : DemRegs where
  state := d
  t := t
  symlen := symlen
  rem := rem
  cnt := { c0 := 0, c1 := 0, c2 := 0, c3 := 0 }
  pos := 0
  cause := .none
  fstate := .init

/-- `DEM`'s registers after `n` samples of `PREAMBLE(l)`. -/
def syncRegs (l n : ℕ) : DemRegs :=
  if n = 0 then runningRegs .init 0 0 0
  else if n ≤ l then runningRegs .fz n n 0
  else if n ≤ 2 * l then runningRegs .fo n l (2 * l - n)
  else if n ≤ 3 * l then runningRegs .sz n l (3 * l - n)
  else if n < 4 * l then runningRegs .so n l (4 * l - n)
  else runningRegs .cls n l 0

section Regs

variable {l n : ℕ}

theorem syncRegs_zero : syncRegs l 0 = runningRegs .init 0 0 0 := rfl

theorem syncRegs_fz (h0 : 0 < n) (h1 : n ≤ l) : syncRegs l n = runningRegs .fz n n 0 := by
  rw [syncRegs, if_neg (by omega), if_pos h1]

theorem syncRegs_fo (h1 : l < n) (h2 : n ≤ 2 * l) : syncRegs l n = runningRegs .fo n l (2 * l - n) := by
  rw [syncRegs, if_neg (by omega), if_neg (by omega), if_pos h2]

theorem syncRegs_sz (h2 : 2 * l < n) (h3 : n ≤ 3 * l) : syncRegs l n = runningRegs .sz n l (3 * l - n) := by
  rw [syncRegs, if_neg (by omega), if_neg (by omega), if_neg (by omega), if_pos h3]

theorem syncRegs_so (h3 : 3 * l < n) (h4 : n < 4 * l) : syncRegs l n = runningRegs .so n l (4 * l - n) := by
  rw [syncRegs, if_neg (by omega), if_neg (by omega), if_neg (by omega), if_neg (by omega), if_pos h4]

theorem syncRegs_cls (hl : 1 ≤ l) : syncRegs l (4 * l) = runningRegs .cls (4 * l) l 0 := by
  rw [syncRegs, if_neg (by omega), if_neg (by omega), if_neg (by omega), if_neg (by omega), if_neg (by omega)]

/-- `D_T` counts the samples. -/
theorem syncRegs_t : (syncRegs l n).t = n := by
  unfold syncRegs
  split_ifs with h0
  · exact h0.symm
  all_goals rfl

end Regs

/-! ### One sample -/

/-- A `DATA` item with the sample `x` takes `DEM`'s registers to `d`, and changes nothing else. -/
def Consumes (s : State) (x : ℤ) (d : DemRegs) : Prop :=
  ∃ op, SelectedByData s.dem.state op ∧ exec (op x) s = .next (onDem (fun _ => d) s)

/-- The state's operation, with its effect on the registers at hand. -/
theorem consumes_of_exec {s : State} {d d' : DemRegs} {f : DemRegs → DemRegs} {op : ℤ → Instr} {x : ℤ}
    (hd : s.dem = d) (hop : SelectedByData d.state op) (hexec : exec (op x) s = .next (onDem f s))
    (hf : f d = d') : Consumes s x d' :=
  ⟨op, hd ▸ hop, by rw [hexec, onDem, hd, hf]; rfl⟩

section Sample

variable {s : State} {x : ℤ} {l n : ℕ}

/-- The first plateau: `INIT`, then `FZ` counts. -/
theorem consumes_firstZeros (hc : s.cfg.wellFormed = true) (hd : s.dem = syncRegs l n) (hn : n < l)
    (hzero : Matches s.cfg s.dem.t 0b00#2 x) : Consumes s x (syncRegs l (n + 1)) := by
  rw [syncRegs_fz n.succ_pos hn]
  rcases Nat.eq_zero_or_pos n with rfl | hpos
  · obtain ⟨hop, hinit⟩ := syncInitTestsPhaseZero
    obtain ⟨hfirst, -⟩ := hinit x s hc
    rw [syncRegs_zero] at hd
    exact consumes_of_exec hd hop (hfirst hzero) rfl
  · obtain ⟨hop, hfz⟩ := syncFzCountsTheFirstPlateau
    obtain ⟨hcounts, -⟩ := hfz x s hc
    rw [syncRegs_fz hpos hn.le] at hd
    exact consumes_of_exec hd hop (hcounts hzero) rfl

/-- The first `11` plateau: its first sample ends `FZ`, then `FO` counts down. -/
theorem consumes_firstOnes (hc : s.cfg.wellFormed = true) (hd : s.dem = syncRegs l n) (hl : 1 ≤ l) (hlow : l ≤ n)
    (hhigh : n < 2 * l) (hone : Matches s.cfg s.dem.t 0b11#2 x)
    (hfirst : n = l → ¬ Matches s.cfg s.dem.t 0b00#2 x) : Consumes s x (syncRegs l (n + 1)) := by
  rw [syncRegs_fo (by omega) hhigh]
  rcases Nat.eq_or_lt_of_le hlow with rfl | hlater
  · obtain ⟨hop, hfz⟩ := syncFzCountsTheFirstPlateau
    obtain ⟨-, hends, -⟩ := hfz x s hc
    rw [syncRegs_fz hl le_rfl] at hd
    have hlen : 1 ≤ s.dem.symlen := by rw [hd]; exact hl
    refine consumes_of_exec hd hop (hends hlen (hfirst rfl) hone) ?_
    rw [show 2 * l - (l + 1) = l - 1 by omega]; rfl
  · obtain ⟨hop, hfo⟩ := syncFoCountsDownOrRedispatches
    obtain ⟨hcounts, -⟩ := hfo x s hc
    rw [syncRegs_fo hlater hhigh.le] at hd
    have hrem : 1 ≤ s.dem.rem := by rw [hd]; exact Nat.sub_pos_of_lt hhigh
    exact consumes_of_exec hd hop (hcounts hrem hone) rfl

/-- The second `00` plateau: its first sample is re-dispatched from `FO`, then `SZ` counts down. -/
theorem consumes_secondZeros (hc : s.cfg.wellFormed = true) (hd : s.dem = syncRegs l n) (hl : 1 ≤ l)
    (hlow : 2 * l ≤ n) (hhigh : n < 3 * l) (hzero : Matches s.cfg s.dem.t 0b00#2 x) :
    Consumes s x (syncRegs l (n + 1)) := by
  rw [syncRegs_sz (by omega) hhigh]
  rcases Nat.eq_or_lt_of_le hlow with rfl | hlater
  · obtain ⟨hop, hfo⟩ := syncFoCountsDownOrRedispatches
    obtain ⟨-, -, hredispatches, -⟩ := hfo x s hc
    rw [syncRegs_fo (by omega) le_rfl] at hd
    have hrem : s.dem.rem = 0 := by rw [hd]; exact Nat.sub_self _
    have hlen : 1 ≤ s.dem.symlen := by rw [hd]; exact hl
    refine consumes_of_exec hd hop (hredispatches hrem hlen hzero) ?_
    rw [show 3 * l - (2 * l + 1) = l - 1 by omega]; rfl
  · obtain ⟨hop, hsz⟩ := syncSzCountsDownOrRedispatches
    obtain ⟨hcounts, -⟩ := hsz x s hc
    rw [syncRegs_sz hlater hhigh.le] at hd
    have hrem : 1 ≤ s.dem.rem := by rw [hd]; exact Nat.sub_pos_of_lt hhigh
    exact consumes_of_exec hd hop (hcounts hrem hzero) rfl

/-- The second `11` plateau: its first sample is re-dispatched from `SZ`, then `SO` counts down; its last sample
completes the synchronisation, the first sample too when `l = 1`. -/
theorem consumes_secondOnes (hc : s.cfg.wellFormed = true) (hd : s.dem = syncRegs l n) (hl : 1 ≤ l)
    (hlow : 3 * l ≤ n) (hhigh : n < 4 * l) (hone : Matches s.cfg s.dem.t 0b11#2 x) :
    Consumes s x (syncRegs l (n + 1)) := by
  rcases Nat.eq_or_lt_of_le hlow with rfl | hlater
  · obtain ⟨hop, hsz⟩ := syncSzCountsDownOrRedispatches
    obtain ⟨-, -, hcompletes, hredispatches, -⟩ := hsz x s hc
    rw [syncRegs_sz (by omega) le_rfl] at hd
    have hrem : s.dem.rem = 0 := by rw [hd]; exact Nat.sub_self _
    have hlen : s.dem.symlen = l := by rw [hd]; rfl
    rcases Nat.eq_or_lt_of_le hl with rfl | hlong
    · exact consumes_of_exec hd hop (hcompletes hrem hlen hone) rfl
    · rw [syncRegs_so (by omega) (by omega), show 4 * l - (3 * l + 1) = l - 1 by omega]
      exact consumes_of_exec hd hop (hredispatches hrem (hlen ▸ hlong) hone) rfl
  · obtain ⟨hop, hso⟩ := syncSoCompletesOnTheLastSample
    obtain ⟨hcompletes, hcounts, -⟩ := hso x s hc
    rw [syncRegs_so hlater hhigh] at hd
    have hrem : s.dem.rem = 4 * l - n := by rw [hd]; rfl
    rcases Nat.eq_or_lt_of_le hhigh with hlast | hmore
    · rw [show n + 1 = 4 * l from hlast, syncRegs_cls hl]
      refine consumes_of_exec hd hop (hcompletes hone (by omega)) ?_
      rw [← hlast]; rfl
    · rw [syncRegs_so (by omega) hmore]
      exact consumes_of_exec hd hop (hcounts hone (by omega)) rfl

/-- Plateau `j` of the preamble is `00` or `11` as `j` is even or odd (R57). -/
theorem preambleSymbolAt_of_plateau {j : ℕ} (hlow : l * j ≤ n) (hhigh : n < l * j + l) :
    preambleSymbolAt l n = if j % 2 = 0 then 0b00#2 else 0b11#2 := by
  obtain ⟨i, rfl⟩ := Nat.exists_eq_add_of_le hlow
  exact preambleSymbolAt_of_period (by omega)

/-- Sample `n` of the preamble takes the registers from `n` samples to `n + 1`. -/
theorem consumes_preamble (hc : s.cfg.wellFormed = true) (hth : 1 / 2 < (s.cfg.amplitude : ℚ) * s.cfg.threshold)
    (hl : 1 ≤ l) (hno : ¬ Matches s.cfg l 0b00#2 (sample s.cfg l 0b11#2)) (hn : n < 4 * l)
    (hd : s.dem = syncRegs l n) :
    Consumes s (sample s.cfg n (preambleSymbolAt l n)) (syncRegs l (n + 1)) := by
  obtain ⟨-, -, hA, -, -⟩ := (Config.wellFormed_iff s.cfg).mp hc
  have ht : s.dem.t = n := by rw [hd, syncRegs_t]
  have hown (k : Symbol) : Matches s.cfg s.dem.t k (sample s.cfg n k) := ht ▸ matches_sample hA hth n k
  rcases Nat.lt_or_ge n l with h1 | h1
  · rw [preambleSymbolAt_of_plateau (j := 0) (by omega) (by omega)]
    exact consumes_firstZeros hc hd h1 (hown _)
  rcases Nat.lt_or_ge n (2 * l) with h2 | h2
  · rw [preambleSymbolAt_of_plateau (j := 1) (by omega) (by omega)]
    exact consumes_firstOnes hc hd hl h1 h2 (hown _) (by rintro rfl; rw [ht]; exact hno)
  rcases Nat.lt_or_ge n (3 * l) with h3 | h3
  · rw [preambleSymbolAt_of_plateau (j := 2) (by omega) (by omega)]
    exact consumes_secondZeros hc hd hl h2 h3 (hown _)
  · rw [preambleSymbolAt_of_plateau (j := 3) (by omega) (by omega)]
    exact consumes_secondOnes hc hd hl h3 hn (hown _)

end Sample

/-! ### The run -/

/-- `s` in a run on `PREAMBLE(l)`, after `n` of its samples. -/
noncomputable def afterSamples (l : ℕ) (s : State) (n : ℕ) : State :=
  { s with
    dem := syncRegs l n
    env := { s.env with
      turns := List.replicate (4 * l - n) (.dem false)
      smpSrc := (preambleItems s.cfg l).drop n } }

section Run

variable {s : State} {l n : ℕ}

/-- A turn of a fetching `DEM` with a sample offered runs the sample's operation (O5). -/
theorem step_dataSample {t : State} {x : ℤ} {d : DemRegs} {items : List SampleItem} {rest : List Turn}
    (hwf : t.cfg.wellFormed = true) (hfetch : demFetches t.dem.state = true)
    (hturns : t.env.turns = .dem false :: rest) (hx : sampleInRange t.cfg.sampleBits x = true)
    (hsrc : t.env.smpSrc = sampleData t.cfg.sampleBits x :: items)
    (hcons : Consumes { t with env := { t.env with turns := rest, smpSrc := items } } x d) :
    step t = .next { t with dem := d, env := { t.env with turns := rest, smpSrc := items } } := by
  obtain ⟨op, hop, hexec⟩ := hcons
  obtain ⟨hlt, hval⟩ := RoundTrip.sampleData_spec (sampleBits_pos hwf) hx
  obtain ⟨-, -, -, hstep⟩ := stepRunsTheSelectedOperation t rest
  have hdec := hop t.cfg.sampleBits t.mod.state _ hlt
  rw [hval] at hdec
  exact (hstep _ items _ hturns hfetch hsrc hwf hdec).trans hexec

theorem preambleItems_drop (c : Config) (hn : n < 4 * l) : (preambleItems c l).drop n =
    sampleData c.sampleBits (sample c n (preambleSymbolAt l n)) :: (preambleItems c l).drop (n + 1) := by
  rw [List.drop_eq_getElem_cons (by simpa [preambleItems] using hn)]
  simp [preambleItems]

theorem demFetches_syncRegs : demFetches (syncRegs l n).state = true := by
  unfold syncRegs
  split_ifs <;> rfl

theorem step_afterSamples (hwf : s.cfg.wellFormed = true)
    (hth : 1 / 2 < (s.cfg.amplitude : ℚ) * s.cfg.threshold) (hl : 1 ≤ l)
    (hno : ¬ Matches s.cfg l 0b00#2 (sample s.cfg l 0b11#2)) (hn : n < 4 * l) :
    step (afterSamples l s n) = .next (afterSamples l s (n + 1)) := by
  have hturns : (afterSamples l s n).env.turns = .dem false :: List.replicate (4 * l - (n + 1)) (.dem false) := by
    rw [afterSamples, show 4 * l - n = 4 * l - (n + 1) + 1 by omega, List.replicate_succ]
  exact step_dataSample hwf demFetches_syncRegs hturns (sampleInRange_sample hwf n (preambleSymbolAt l n))
    (preambleItems_drop s.cfg hn) (consumes_preamble hwf hth hl hno hn rfl)

/-- The strobe begins a fresh run and reads no sample (O16). -/
theorem step_preambleRun (hwf : s.cfg.wellFormed = true) : step (preambleRun l s) = .next (afterSamples l s 0) := by
  obtain ⟨-, hstrobe, -, -⟩ := stepRunsTheSelectedOperation (preambleRun l s) (List.replicate (4 * l) (.dem false))
  exact hstrobe rfl hwf

end Run

/-- Settles O50: the strobe, then each sample by its place in the four plateaus. -/
theorem preambleIsSynchronised : Obligations.PreambleIsSynchronised := by
  unfold Obligations.PreambleIsSynchronised
  intro l s hwf hl hth hno
  have hstep : ∀ n < 4 * l, ∀ t, t = afterSamples l s n → ∃ u, step t = .next u ∧ u = afterSamples l s (n + 1) := by
    rintro n hn _ rfl
    exact ⟨_, step_afterSamples hwf hth hl hno hn, rfl⟩
  obtain ⟨_, hrun, rfl⟩ := run_of_steps hstep rfl
  have hread : (preambleItems s.cfg l).drop (4 * l) = [] := List.drop_of_length_le (by simp [preambleItems])
  rw [run_succ_of_next _ (step_preambleRun hwf), hrun, afterSamples, syncRegs_cls hl, Nat.sub_self, hread]
  rfl

end Sys2Proof.Proofs.PreambleRun
end

section
/-!
SUPPORT. Proofs of O24 to O29: the operations of `CLS` and the failed read of `DEM`, spec/43_classifier.md. A lane of
the scoring is one counter of `D_CNT`; the scan of R172 keeps the best of the candidates it has seen; a decision is two
writes, of which the first failing one ends the run.
-/

namespace Sys2Proof.Proofs.Classifier

open Sys2Proof Sys2Proof.Machine Sys2Proof.Safety Sys2Proof.Laws
open Sys2Proof.Proofs.Generator Sys2Proof.Proofs.Synchronizer

/-! ### Scoring -/

/-- R178: each counter is bumped by its own candidate's match and by no other. -/
theorem getCount_scoreCounts (c : Config) (t : ℕ) (x : ℤ) (cnt : Counts) (k : Symbol) :
    getCount (scoreCounts c t x cnt) k = bump (phaseMatch c t k x) (getCount cnt k) := by
  obtain rfl | rfl | rfl | rfl : k = 0#2 ∨ k = 1#2 ∨ k = 2#2 ∨ k = 3#2 := by revert k; decide
  all_goals rfl

theorem scored_scoreCounts {c : Config} (hc : c.wellFormed = true) (t : ℕ) (x : ℤ) (cnt : Counts) :
    Scored c t x cnt (scoreCounts c t x cnt) := by
  intro k
  rw [getCount_scoreCounts, ← phaseMatch_iff hc]
  exact ⟨fun hmatch => if_pos hmatch, fun hno => if_neg hno⟩

section Sample

variable {x : ℤ} {s : State}

theorem execClsSample_inside (hpos : s.dem.pos + 1 ≠ s.dem.symlen) :
    exec (.clsSample x) s = .next (scoreSample x s) := by
  rw [execClsSample_eq, if_neg hpos]

theorem execClsSample_last (hpos : s.dem.pos + 1 = s.dem.symlen) :
    exec (.clsSample x) s = flowResult (decidePeriod (scoreSample x s)) := by
  rw [execClsSample_eq, if_pos hpos]

end Sample

/-- Settles O24: a sample inside a period is scored and nothing more. -/
theorem clsSampleScoresFourLanes : Obligations.ClsSampleScoresFourLanes := by
  unfold Obligations.ClsSampleScoresFourLanes
  intro x s hc hpos
  exact ⟨_, scored_scoreCounts hc s.dem.t x s.dem.cnt, execClsSample_inside hpos⟩

/-! ### The winner -/

section Winner

variable {cnt : Counts} {b j k : Symbol} {m : ℕ}

/-- `b` is the scan's best once the candidates `0 .. m` have been looked at. -/
def Leads (cnt : Counts) (m : ℕ) (b : Symbol) : Prop :=
  b.toNat ≤ m ∧ (∀ j : Symbol, j.toNat ≤ m → getCount cnt j ≤ getCount cnt b) ∧
    ∀ j : Symbol, j.toNat < b.toNat → getCount cnt j < getCount cnt b

theorem leads_zero (cnt : Counts) : Leads cnt 0 0#2 := by
  refine ⟨le_rfl, fun j hj => ?_, fun j hj => absurd hj (Nat.not_lt_zero _)⟩
  obtain rfl : j = 0#2 := BitVec.eq_of_toNat_eq (Nat.le_zero.mp hj)
  exact le_rfl

/-- One turn of the scan: the next candidate leads if it is strictly better, and otherwise the best so far does. -/
theorem leads_better (h : Leads cnt m b) (hk : k.toNat = m + 1) : Leads cnt (m + 1) (better cnt b k) := by
  obtain ⟨hb, hmax, hfirst⟩ := h
  have hseen {j : Symbol} (hj : j.toNat ≤ m + 1) : j.toNat ≤ m ∨ j = k := by
    rcases Nat.le_or_eq_of_le_succ hj with hle | heq
    · exact .inl hle
    · exact .inr (BitVec.eq_of_toNat_eq (heq.trans hk.symm))
  unfold better
  split
  next hlt =>
    refine ⟨hk.le, fun j hj => ?_, fun j hj => (hmax j (by omega)).trans_lt hlt⟩
    rcases hseen hj with hle | rfl
    · exact ((hmax j hle).trans_lt hlt).le
    · exact le_rfl
  next hge =>
    refine ⟨Nat.le_succ_of_le hb, fun j hj => ?_, hfirst⟩
    rcases hseen hj with hle | rfl
    · exact hmax j hle
    · exact Nat.le_of_not_lt hge

theorem wins_winner (cnt : Counts) : Wins cnt (winner cnt) := by
  have hscan : Leads cnt 3 (winner cnt) :=
    leads_better (leads_better (leads_better (leads_zero cnt) rfl) rfl) rfl
  obtain ⟨-, hmax, hfirst⟩ := hscan
  exact ⟨fun j => hmax j (Nat.le_of_lt_succ j.isLt), hfirst⟩

/-- Of two winners neither has the lower index: it would have a strictly lower count. -/
theorem wins_unique (hj : Wins cnt j) (hk : Wins cnt k) : j = k := by
  obtain ⟨hmaxj, hfirstj⟩ := hj
  obtain ⟨hmaxk, hfirstk⟩ := hk
  have hjk : ¬ j.toNat < k.toNat := fun h => (hfirstk j h).not_ge (hmaxj k)
  have hkj : ¬ k.toNat < j.toNat := fun h => (hfirstj k h).not_ge (hmaxk j)
  exact BitVec.eq_of_toNat_eq (by omega)

theorem winner_eq (h : Wins cnt k) : winner cnt = k :=
  wins_unique (wins_winner cnt) h

end Winner

/-- Settles O27: the scan keeps a leader, and a winner is unique. -/
theorem everyPeriodHasOneWinner : Obligations.EveryPeriodHasOneWinner := by
  unfold Obligations.EveryPeriodHasOneWinner
  exact fun cnt => ⟨wins_winner cnt, fun j hj => wins_unique hj (wins_winner cnt)⟩

/-! ### The decision -/

/-- The characters the machine writes for a symbol are R77's. -/
theorem symbolChars_eq (k : Symbol) : symbolChars k = [firstChar k, secondChar k] := by
  revert k; decide

section Decision

variable {c : Char8} {n : ℕ} {s : State}

theorem writeChar_allOk (hok : AllOk s.env.bitAnswers 1) : writeChar c s = .goOn (afterChars [c] s) :=
  writeChar_ok (allOk_one_iff.mp hok)

theorem writeChar_firstFail (hfail : FirstFail s.env.bitAnswers 0) :
    writeChar c s = .raised (onDem (Safety.demFailed .channel s.dem.state) (afterCharsThenFail [] s)) :=
  writeChar_fail (firstFail_zero_iff.mp hfail)

/-- Characters written one after the other are written together. -/
theorem afterChars_afterChars (cs ds : List Char8) (s : State) :
    afterChars ds (afterChars cs s) = afterChars (cs ++ ds) s := by
  simp [afterChars, List.drop_drop]

theorem afterCharsThenFail_afterChars (cs ds : List Char8) (s : State) :
    afterCharsThenFail ds (afterChars cs s) = afterCharsThenFail (cs ++ ds) s := by
  simp [afterChars, afterCharsThenFail, List.drop_drop, Nat.add_assoc]

/-- R172 with both writes answered `ok`. -/
theorem decidePeriod_allOk (hok : AllOk s.env.bitAnswers 2) :
    decidePeriod s = .goOn (onDem (fun d => { d with cnt := zeroCounts, pos := 0 })
      (afterChars (symbolChars (winner s.dem.cnt)) s)) := by
  obtain ⟨hfirst, hsecond⟩ := allOk_add (n := 1) (m := 1).mp hok
  rw [decidePeriod, writeChar_allOk hfirst, flowThen, writeChar_allOk (s := afterChars [_] s) hsecond, flowThen,
    afterChars_afterChars, symbolChars_eq]
  rfl

/-- R172 with the first or the second write answered `fail`. -/
theorem decidePeriod_firstFail (hn : n < 2) (hfail : FirstFail s.env.bitAnswers n) :
    decidePeriod s = .raised (onDem (Safety.demFailed .channel s.dem.state)
      (afterCharsThenFail ((symbolChars (winner s.dem.cnt)).take n) s)) := by
  obtain rfl | rfl : n = 0 ∨ n = 1 := by omega
  · rw [decidePeriod, writeChar_firstFail hfail, flowThen]
    rfl
  · obtain ⟨hfirst, hsecond⟩ := firstFail_add (n := 1) (m := 0).mp hfail
    rw [decidePeriod, writeChar_allOk hfirst, flowThen, writeChar_firstFail (s := afterChars [_] s) hsecond, flowThen,
      afterCharsThenFail_afterChars, symbolChars_eq]
    rfl

end Decision

/-- Settles O26: the candidate that wins is the scan's. -/
theorem clsDecideEmitsTheWinner : Obligations.ClsDecideEmitsTheWinner := by
  unfold Obligations.ClsDecideEmitsTheWinner
  intro k s hk
  obtain rfl := winner_eq hk
  exact ⟨fun hok => congrArg flowResult (decidePeriod_allOk hok),
    fun n hn hfail => congrArg flowResult (decidePeriod_firstFail hn hfail)⟩

/-- Settles O25: the sample is scored, and the decision is that of O26 on the counts with the sample in them. -/
theorem clsSampleDecidesACompletePeriod : Obligations.ClsSampleDecidesACompletePeriod := by
  unfold Obligations.ClsSampleDecidesACompletePeriod
  intro x s hc hpos
  have hwins := wins_winner (scoreSample x s).dem.cnt
  obtain ⟨hall, hfirst⟩ := clsDecideEmitsTheWinner _ (scoreSample x s) hwins
  refine ⟨_, _, scored_scoreCounts hc s.dem.t x s.dem.cnt, hwins, fun hok => ?_, fun n hn hfail => ?_⟩
  · exact (execClsSample_last hpos).trans (hall hok)
  · exact (execClsSample_last hpos).trans (hfirst n hn hfail)

/-! ### The end of the stream and the failed read -/

theorem execClsEos_eq (s : State) : exec .clsEos s = flowResult (finishDem s) := rfl

theorem selectedByEos_clsEos : SelectedByEos .cls .clsEos :=
  fun _ _ _ hlow hhigh => decodeSample_eos hlow hhigh rfl

/-- Settles O28: the operation is the newline and `DONE`, whose write may fail. -/
theorem clsEosWritesTheNewline : Obligations.ClsEosWritesTheNewline := by
  unfold Obligations.ClsEosWritesTheNewline
  refine ⟨selectedByEos_clsEos, fun s => ⟨fun hok => ?_, fun hfail => ?_⟩⟩
  · rw [execClsEos_eq, finishDem_allOk hok, flowResult]
  · rw [execClsEos_eq, finishDem_firstFail hfail, flowResult]

/-- Settles O29: the operation is `raise ChannelError` and no more, and R84 selects it. -/
theorem failedSampleReadFailsTheRun : Obligations.FailedSampleReadFailsTheRun := by
  unfold Obligations.FailedSampleReadFailsTheRun
  exact ⟨fun _ hfetch _ _ _ hlow hhigh => decodeSample_fail hlow hhigh hfetch, fun _ => rfl⟩

end Sys2Proof.Proofs.Classifier
end

section
/-!
SUPPORT. Proof of O51, spec/43_classifier.md R177. `DEM` receives a stretch of a stream of carrier samples, one turn for
each, whatever turns and items come after it. In a symbol period the registers after each sample are known exactly
(`periodRegs`): each counter is the number of the period's samples that its candidate matches.
-/

namespace Sys2Proof.Proofs.PeriodRun

open Sys2Proof Sys2Proof.Machine Sys2Proof.Safety Sys2Proof.Laws
open Sys2Proof.Proofs.Independence Sys2Proof.Proofs.Invariant Sys2Proof.Proofs.Numerics Sys2Proof.Proofs.Selection
open Sys2Proof.Proofs.Generator Sys2Proof.Proofs.ModulatorRun Sys2Proof.Proofs.Synchronizer
open Sys2Proof.Proofs.PreambleRun Sys2Proof.Proofs.Classifier

/-! ### Receiving a stream -/

/-- `s` with `DEM`'s registers `d`, about to receive the samples `n .. stop - 1` of the stream `q`, before the turns and
the items of `s` itself. -/
noncomputable def receiving (q : ℕ → Symbol) (stop : ℕ) (s : State) (n : ℕ) (d : DemRegs) : State :=
  { s with
    dem := d
    env := { s.env with
      turns := List.replicate (stop - n) (.dem false) ++ s.env.turns
      smpSrc := streamWords s.cfg q n (stop - n) ++ s.env.smpSrc } }

/-- `s` with what comes after the samples, every write to `BITSINK` answered `ok` (log entry 2). -/
def followedBy (turns : List Turn) (items : List SampleItem) (s : State) : State :=
  { s with env := { s.env with turns := turns, smpSrc := items, bitAnswers := [] } }

section Receiving

variable {q : ℕ → Symbol} {stop n : ℕ} {s : State} {d : DemRegs} {op : ℤ → Instr}

/-- With nothing left to receive, the turns and the items are those of `s`. -/
theorem receiving_stop : receiving q stop s stop d = { s with dem := d } := by
  simp [receiving, streamWords]

theorem streamWords_succ (c : Config) (q : ℕ → Symbol) (t n : ℕ) :
    streamWords c q t (n + 1) = bitsW c.sampleBits (sample c t (q t)) :: streamWords c q (t + 1) n := by
  rw [Nat.add_comm, streamWords_add]
  rfl

/-- A turn receives the next sample and runs its operation (O5). -/
theorem step_receiving (hwf : s.cfg.wellFormed = true) (hn : n < stop) (hfetch : demFetches d.state = true)
    (hop : SelectedByData d.state op) :
    step (receiving q stop s n d) = exec (op (sample s.cfg n (q n))) (receiving q stop s (n + 1) d) := by
  have hleft : stop - n = stop - (n + 1) + 1 := by omega
  have hturns : (receiving q stop s n d).env.turns = .dem false :: (receiving q stop s (n + 1) d).env.turns := by
    simp only [receiving, hleft, List.replicate_succ, List.cons_append]
  have hsrc : (receiving q stop s n d).env.smpSrc =
      bitsW s.cfg.sampleBits (sample s.cfg n (q n)) :: (receiving q stop s (n + 1) d).env.smpSrc := by
    simp only [receiving, hleft, streamWords_succ, List.cons_append]
  obtain ⟨-, -, -, hstep⟩ := stepRunsTheSelectedOperation (receiving q stop s n d)
    (receiving q stop s (n + 1) d).env.turns
  have hdec := hop s.cfg.sampleBits s.mod.state _ (bitsW_lt s.cfg.sampleBits (sample s.cfg n (q n)))
  rw [sintW_bitsW (sampleBits_pos hwf) (sampleInRange_sample hwf n (q n))] at hdec
  exact hstep _ _ _ hturns hfetch hsrc hwf hdec

/-- `m` samples that only take the registers from one value to the next are received in `m` steps. -/
theorem run_receiving {m : ℕ} {regs : ℕ → DemRegs} (hwf : s.cfg.wellFormed = true) (hstop : n + m ≤ stop)
    (hfetch : ∀ i < m, demFetches (regs i).state = true)
    (hcons : ∀ i < m, Consumes (receiving q stop s (n + i + 1) (regs i)) (sample s.cfg (n + i) (q (n + i)))
      (regs (i + 1))) :
    Sys2Proof.core.run m (receiving q stop s n (regs 0)) = .next (receiving q stop s (n + m) (regs m)) := by
  have hstep : ∀ i < m, ∀ t, t = receiving q stop s (n + i) (regs i) →
      ∃ u, step t = .next u ∧ u = receiving q stop s (n + (i + 1)) (regs (i + 1)) := by
    rintro i hi _ rfl
    obtain ⟨op, hop, hexec⟩ := hcons i hi
    exact ⟨_, (step_receiving hwf (by omega) (hfetch i hi) hop).trans hexec, rfl⟩
  obtain ⟨_, hrun, rfl⟩ := run_of_steps hstep rfl
  exact hrun

end Receiving

/-! ### The counters of a period -/

/-- In the period of symbol `k` that is the `l` samples from time index `t` on, each lower-indexed candidate fails to
match a sample (R177). -/
def LowerMiss (c : Config) (k : Symbol) (t l : ℕ) : Prop :=
  ∀ j : Symbol, j.toNat < k.toNat → ∃ n, n < l ∧ ¬ Matches c (t + n) j (sample c (t + n) k)

/-- The counters after the first `n` samples of a period of symbol `k` that begins at time index `t`. -/
noncomputable def periodCounts (c : Config) (k : Symbol) (t : ℕ) : ℕ → Counts
  | 0 => zeroCounts
  | n + 1 => scoreCounts c (t + n) (sample c (t + n) k) (periodCounts c k t n)

section Counts

variable {c : Config} {k : Symbol} {t l : ℕ}

/-- Each counter is the number of samples that its candidate matches. -/
theorem getCount_periodCounts (c : Config) (k : Symbol) (t n : ℕ) (j : Symbol) : getCount (periodCounts c k t n) j =
    Nat.count (fun i => phaseMatch c (t + i) j (sample c (t + i) k) = true) n := by
  induction n with
  | zero => rw [periodCounts, getCount_zeroCounts, Nat.count_zero]
  | succ n ih =>
    rw [periodCounts, getCount_scoreCounts, ih, Nat.count_succ, bump]
    split <;> rfl

/-- The symbol sent is matched by every sample, and a lower-indexed candidate is not. -/
theorem wins_periodCounts (hc : c.wellFormed = true) (hth : 1 / 2 < (c.amplitude : ℚ) * c.threshold)
    (hlow : LowerMiss c k t l) : Wins (periodCounts c k t l) k := by
  obtain ⟨-, -, hA, -, -⟩ := (Config.wellFormed_iff c).mp hc
  have hfull : getCount (periodCounts c k t l) k = l := by
    rw [getCount_periodCounts]
    exact Nat.count_iff_forall.mpr fun i _ => (phaseMatch_iff hc _ _ _).mpr (matches_sample hA hth (t + i) k)
  rw [Wins, hfull]
  refine ⟨fun j => ?_, fun j hj => ?_⟩
  · rw [getCount_periodCounts]
    exact Nat.count_le _
  · obtain ⟨n, hn, hno⟩ := hlow j hj
    rw [getCount_periodCounts]
    exact lt_of_le_of_ne (Nat.count_le _) fun hall =>
      hno ((phaseMatch_iff hc _ _ _).mp (Nat.count_iff_forall.mp hall n hn))

end Counts

/-! ### One period -/

/-- The registers `d` after the first `n` samples of a period of symbol `k` that begins with them. -/
noncomputable def periodRegs (c : Config) (k : Symbol) (d : DemRegs) (n : ℕ) : DemRegs :=
  { d with cnt := periodCounts c k d.t n, t := d.t + n, pos := n }

section Period

variable {q : ℕ → Symbol} {stop n : ℕ} {k : Symbol} {s : State} {d : DemRegs}

theorem periodRegs_zero (c : Config) (k : Symbol) (hpos : d.pos = 0) (hcnt : d.cnt = zeroCounts) :
    periodRegs c k d 0 = d := by
  rw [periodRegs, periodCounts, Nat.add_zero, ← hcnt, ← hpos]

theorem selectedByData_clsSample : SelectedByData .cls .clsSample :=
  fun _ _ _ hitem => decodeSample_data hitem

/-- A sample inside the period takes the registers one further. -/
theorem consumes_inPeriod (hd : s.dem = periodRegs s.cfg k d n) (hcls : d.state = .cls) (hn : n + 1 < d.symlen) :
    Consumes s (sample s.cfg (d.t + n) k) (periodRegs s.cfg k d (n + 1)) := by
  have hinside : s.dem.pos + 1 ≠ s.dem.symlen := by rw [hd]; exact hn.ne
  have hop : SelectedByData s.dem.state .clsSample := by rw [hd, periodRegs, hcls]; exact selectedByData_clsSample
  exact ⟨_, hop, by rw [execClsSample_inside hinside, scoreSample, hd]; rfl⟩

/-- The period's last sample is scored too, and the period decided (R172). -/
theorem exec_lastOfPeriod (hd : s.dem = periodRegs s.cfg k d n) (hn : n + 1 = d.symlen)
    (hwins : Wins (periodCounts s.cfg k d.t (n + 1)) k) (hok : s.env.bitAnswers = []) :
    exec (.clsSample (sample s.cfg (d.t + n) k)) s =
      .next (onDem (fun _ => { d with cnt := zeroCounts, t := d.t + (n + 1), pos := 0 })
        (afterChars (symbolChars k) s)) := by
  have hlast : s.dem.pos + 1 = s.dem.symlen := by rw [hd]; exact hn
  have hscored : (scoreSample (sample s.cfg (d.t + n) k) s).dem = periodRegs s.cfg k d (n + 1) := by
    rw [scoreSample, setDem_dem, hd]; rfl
  have hwinner : winner (scoreSample (sample s.cfg (d.t + n) k) s).dem.cnt = k := by
    rw [hscored]; exact winner_eq hwins
  have hanswers : AllOk (scoreSample (sample s.cfg (d.t + n) k) s).env.bitAnswers 2 := by
    rw [scoreSample, setDem_env, hok]; exact allOk_nil 2
  rw [execClsSample_last hlast, decidePeriod_allOk hanswers, hwinner, flowResult, onDem]
  simp only [afterChars, hscored]
  rfl

/-- A period of symbol `k` in a stream, received from its first sample on, appends the characters of `k`. -/
theorem run_period (hwf : s.cfg.wellFormed = true) (hth : 1 / 2 < (s.cfg.amplitude : ℚ) * s.cfg.threshold)
    (hok : s.env.bitAnswers = []) (hcls : d.state = .cls) (hpos : d.pos = 0) (hcnt : d.cnt = zeroCounts)
    (hlen : 1 ≤ d.symlen) (hstop : d.t + d.symlen ≤ stop) (hq : ∀ i < d.symlen, q (d.t + i) = k)
    (hlow : LowerMiss s.cfg k d.t d.symlen) :
    Sys2Proof.core.run d.symlen (receiving q stop s d.t d) =
      .next (receiving q stop (afterChars (symbolChars k) s) (d.t + d.symlen) { d with t := d.t + d.symlen }) := by
  obtain ⟨m, hm⟩ := Nat.exists_eq_add_of_le' hlen
  have hfetch (i : ℕ) : demFetches (periodRegs s.cfg k d i).state = true := by rw [periodRegs, hcls]; rfl
  have hinside : Sys2Proof.core.run m (receiving q stop s d.t (periodRegs s.cfg k d 0)) =
      .next (receiving q stop s (d.t + m) (periodRegs s.cfg k d m)) := by
    refine run_receiving hwf (by omega) (fun i _ => hfetch i) fun i hi => ?_
    rw [hq i (by omega)]
    exact consumes_inPeriod rfl hcls (by omega)
  have hlast : step (receiving q stop s (d.t + m) (periodRegs s.cfg k d m)) =
      .next (receiving q stop (afterChars (symbolChars k) s) (d.t + (m + 1))
        { d with cnt := zeroCounts, t := d.t + (m + 1), pos := 0 }) := by
    have hop : SelectedByData (periodRegs s.cfg k d m).state .clsSample := by
      rw [periodRegs, hcls]; exact selectedByData_clsSample
    rw [step_receiving hwf (by omega) (hfetch m) hop, hq m (by omega)]
    exact exec_lastOfPeriod rfl hm.symm (hm ▸ wins_periodCounts hwf hth hlow) hok
  rw [periodRegs_zero s.cfg k hpos hcnt] at hinside
  rw [hm, run_add_of_next hinside, run_one, hlast, ← hcnt, ← hpos, hm]
  rfl

end Period

/-- Settles O51: one period, with nothing after it. -/
theorem generatedPeriodIsDecidedAsItsSymbol : Obligations.GeneratedPeriodIsDecidedAsItsSymbol := by
  unfold Obligations.GeneratedPeriodIsDecidedAsItsSymbol
  intro k s hwf hth hcls hpos hcnt hlen hlow
  have hstart : symbolPeriod k s =
      receiving (fun _ => k) (s.dem.t + s.dem.symlen) (followedBy [] [] s) s.dem.t s.dem := by
    simp [symbolPeriod, receiving, followedBy, carrierWords_eq_streamWords]
  rw [hstart, run_period (s := followedBy [] [] s) hwf hth rfl hcls hpos hcnt hlen le_rfl (fun _ _ => rfl) hlow,
    receiving_stop]
  simp [followedBy, afterChars]

end Sys2Proof.Proofs.PeriodRun
end

section
/-!
SUPPORT. Proof of O52, spec/43_classifier.md R177. A run of `DEM` on a modulated text is the strobe, the preamble (O50),
one period for each pair of bits (O51), and the end of the stream (O28), each received with the rest of the stream still
to come. In the reference configuration R114 tells every candidate from the symbol sent within two samples.
-/

namespace Sys2Proof.Proofs.DemodulatorRun

open Sys2Proof Sys2Proof.Machine Sys2Proof.Safety Sys2Proof.Laws
open Sys2Proof.Proofs.Independence Sys2Proof.Proofs.Numerics Sys2Proof.Proofs.Selection Sys2Proof.Proofs.Generator
open Sys2Proof.Proofs.ModulatorRun Sys2Proof.Proofs.Synchronizer Sys2Proof.Proofs.PreambleRun
open Sys2Proof.Proofs.Classifier Sys2Proof.Proofs.PeriodRun

/-! ### The text -/

section Text

variable {chars : List Char8} {i : ℕ}

theorem bitPrefix_eq_self (hbits : ∀ ch ∈ chars, IsBit ch) : bitPrefix chars = chars := by
  rw [bitPrefix, List.takeWhile_eq_self_iff]
  simpa [IsBit] using hbits

/-- R75 and R77 undo each other. -/
theorem symbolChars_of_bits {a b : Char8} (ha : IsBit a) (hb : IsBit b) :
    symbolChars (BitVec.ofNat 2 (2 * bitValue a + bitValue b)) = [a, b] := by
  rcases ha with rfl | rfl <;> rcases hb with rfl | rfl <;> decide

/-- A pair more of the text is the characters of its symbol more. -/
theorem take_pair (hbits : ∀ ch ∈ chars, IsBit ch) (hi : 2 * i + 1 < chars.length) :
    chars.take (2 * (i + 1)) = chars.take (2 * i) ++ symbolChars (payloadSymbol chars i) := by
  have hfirst : 2 * i < chars.length := by omega
  rw [payloadSymbol, List.getD_eq_getElem _ _ hfirst, List.getD_eq_getElem _ _ hi,
    symbolChars_of_bits (hbits _ (List.getElem_mem hfirst)) (hbits _ (List.getElem_mem hi)),
    show 2 * (i + 1) = 2 * i + 1 + 1 by omega, ← List.take_append_getElem hi, ← List.take_append_getElem hfirst,
    List.append_assoc]
  rfl

end Text

/-! ### The stages of the run -/

/-- `s` with what `DEM.RUN` offers after the samples: the end of the stream, and a turn for it. -/
def beforeEos (s : State) : State :=
  followedBy [.dem false] [sampleEos s.cfg.sampleBits] s

theorem afterChars_nil (s : State) : afterChars [] s = s := by
  simp [afterChars]

section Stages

variable {chars : List Char8} {q : ℕ → Symbol} {s : State} {l stop : ℕ}

/-- The stretch of the preamble (O50), with the stream going on after it. -/
theorem run_preamble (hwf : s.cfg.wellFormed = true) (hth : 1 / 2 < (s.cfg.amplitude : ℚ) * s.cfg.threshold)
    (hl : 1 ≤ l) (hno : ¬ Matches s.cfg l 0b00#2 (sample s.cfg l 0b11#2)) (hstop : l * 4 ≤ stop)
    (hq : ∀ i < l * 4, q i = preambleSymbolAt l i) :
    Sys2Proof.core.run (l * 4) (receiving q stop s 0 .reset) =
      .next (receiving q stop s (l * 4) (runningRegs .cls (l * 4) l 0)) := by
  have hcons : ∀ i < l * 4, Consumes (receiving q stop s (0 + i + 1) (syncRegs l i))
      (sample s.cfg (0 + i) (q (0 + i))) (syncRegs l (i + 1)) := by
    intro i hi
    rw [Nat.zero_add, hq i hi]
    exact consumes_preamble (s := receiving q stop s (i + 1) (syncRegs l i)) hwf hth hl hno (by omega) rfl
  have hrun := run_receiving (regs := syncRegs l) hwf (by omega) (fun _ _ => demFetches_syncRegs) hcons
  rw [Nat.zero_add, Nat.mul_comm l 4, syncRegs_cls hl, Nat.mul_comm 4 l] at hrun
  exact hrun

/-- `i` periods of the payload (O51) append `i` pairs of the text. -/
theorem run_periods (hwf : s.cfg.wellFormed = true) (hth : 1 / 2 < (s.cfg.amplitude : ℚ) * s.cfg.threshold)
    (hl : 1 ≤ l) (hok : s.env.bitAnswers = []) (hbits : ∀ ch ∈ chars, IsBit ch)
    (hlow : ∀ (t : ℕ) (k : Symbol), LowerMiss s.cfg k t l) {i : ℕ} (hi : 2 * i ≤ chars.length)
    (hstop : l * (4 + i) ≤ stop) :
    Sys2Proof.core.run (l * i) (receiving (modulatedSymbolAt chars l) stop s (l * 4) (runningRegs .cls (l * 4) l 0)) =
      .next (receiving (modulatedSymbolAt chars l) stop (afterChars (chars.take (2 * i)) s) (l * (4 + i))
        (runningRegs .cls (l * (4 + i)) l 0)) := by
  induction i with
  | zero => rw [Nat.mul_zero, List.take_zero, afterChars_nil]; rfl
  | succ i ih =>
    have hnext : l * (4 + i) + l = l * (4 + (i + 1)) := by ring
    have hperiod := run_period (q := modulatedSymbolAt chars l) (stop := stop) (k := payloadSymbol chars i)
      (s := afterChars (chars.take (2 * i)) s) (d := runningRegs .cls (l * (4 + i)) l 0) hwf hth
      (by simp [afterChars, hok]) rfl rfl rfl hl (hnext ▸ hstop) (fun _ hj => modulatedSymbolAt_payload hj)
      (hlow (l * (4 + i)) _)
    rw [Nat.mul_succ, run_add_of_next (ih (by omega) (by omega)), take_pair hbits (by omega),
      ← afterChars_afterChars, ← hnext]
    exact hperiod

/-- The end of the stream in `CLS`, after the characters `cs`: the newline, and the run is over (O28). -/
theorem step_endOfStream {cs : List Char8} {d : DemRegs} (hwf : s.cfg.wellFormed = true) (hcls : d.state = .cls) :
    step (receiving q stop (afterChars cs (beforeEos s)) stop d) = .next
      { s with
        dem := { d with state := .done }
        env := { s.env with
          turns := [], smpSrc := [], bitAnswers := [], bitSink := s.env.bitSink ++ cs ++ [0x0A#8] } } := by
  have hpow : 0 < 2 ^ s.cfg.sampleBits := Nat.two_pow_pos _
  have hdec : decode s.cfg.sampleBits s.mod.state d.state (.sampleItem (sampleEos s.cfg.sampleBits)) = .ok .clsEos := by
    rw [hcls]
    exact selectedByEos_clsEos _ _ _ (by rw [sampleEos]; omega) (by rw [sampleEos]; omega)
  obtain ⟨-, -, -, hstep⟩ := stepRunsTheSelectedOperation { afterChars cs (beforeEos s) with dem := d } []
  obtain ⟨-, heos⟩ := clsEosWritesTheNewline
  obtain ⟨hwritten, -⟩ := heos { afterChars cs (followedBy [] [] s) with dem := d }
  have hok : AllOk ([].drop cs.length) 1 := by rw [List.drop_nil]; exact allOk_nil 1
  rw [receiving_stop]
  refine ((hstep _ [] _ rfl (hcls ▸ rfl) rfl hwf hdec).trans (hwritten hok)).trans ?_
  simp [onDem, afterChars, followedBy]

end Stages

/-! ### The whole run -/

section Run

variable {chars : List Char8} {s : State}

theorem modulate_length (hbits : ∀ ch ∈ chars, IsBit ch) :
    (modulate s.cfg chars).length = s.cfg.symbolLen * (4 + chars.length / 2) := by
  rw [modulate_eq_streamWords, bitPrefix_eq_self hbits, streamWords_length]

/-- The strobe begins a fresh run and reads no sample (O16). -/
theorem step_roundTrip (hwf : s.cfg.wellFormed = true) (hbits : ∀ ch ∈ chars, IsBit ch) :
    step (roundTrip chars s) = .next (receiving (modulatedSymbolAt chars s.cfg.symbolLen)
      (s.cfg.symbolLen * (4 + chars.length / 2)) (beforeEos s) 0 .reset) := by
  obtain ⟨-, hstrobe, -, -⟩ := stepRunsTheSelectedOperation (roundTrip chars s)
    (List.replicate ((modulate s.cfg chars).length + 1) (.dem false))
  obtain ⟨-, hfresh⟩ := demStartBeginsAFreshRun
  rw [hstrobe rfl hwf, hfresh, modulate_length hbits, List.replicate_succ']
  simp [onDem, DemRegs.reset, roundTrip, receiving, beforeEos, followedBy, modulate_eq_streamWords,
    bitPrefix_eq_self hbits]

/-- In any configuration that tells the symbols apart in a preamble and in a period, `DEM` gives back what was
modulated. -/
theorem run_roundTrip (hwf : s.cfg.wellFormed = true) (hth : 1 / 2 < (s.cfg.amplitude : ℚ) * s.cfg.threshold)
    (hl : 1 ≤ s.cfg.symbolLen)
    (hno : ¬ Matches s.cfg s.cfg.symbolLen 0b00#2 (sample s.cfg s.cfg.symbolLen 0b11#2))
    (hlow : ∀ (t : ℕ) (k : Symbol), LowerMiss s.cfg k t s.cfg.symbolLen)
    (hbits : ∀ ch ∈ chars, IsBit ch) (heven : chars.length % 2 = 0) :
    Sys2Proof.core.run ((modulate s.cfg chars).length + 2) (roundTrip chars s) = .next
      { s with
        dem := runningRegs .done (s.cfg.symbolLen * (4 + chars.length / 2)) s.cfg.symbolLen 0
        env := { s.env with
          turns := [], smpSrc := [], bitAnswers := [], bitSink := s.env.bitSink ++ chars ++ [0x0A#8] } } := by
  have hpreamble := run_preamble (s := beforeEos s) (q := modulatedSymbolAt chars s.cfg.symbolLen)
    (stop := s.cfg.symbolLen * (4 + chars.length / 2)) hwf hth hl hno
    (Nat.mul_le_mul_left _ (Nat.le_add_right 4 _)) fun i hi => if_pos (by rwa [Nat.mul_comm])
  have hpayload := run_periods (s := beforeEos s) (i := chars.length / 2) hwf hth hl rfl hbits hlow (by omega) le_rfl
  have hwhole : 2 * (chars.length / 2) = chars.length := by omega
  have hsteps : (modulate s.cfg chars).length + 2 =
      s.cfg.symbolLen * 4 + (s.cfg.symbolLen * (chars.length / 2) + 1) + 1 := by
    rw [modulate_length hbits]; ring
  rw [hwhole, List.take_length] at hpayload
  rw [hsteps, run_succ_of_next _ (step_roundTrip hwf hbits), run_add_of_next hpreamble, run_add_of_next hpayload,
    run_one]
  exact step_endOfStream hwf rfl

end Run

/-! ### The reference configuration -/

/-- R114: of two samples in a row at most one is at a coincidence. -/
theorem lowerMiss_reference {l : ℕ} (hl : 2 ≤ l) (t : ℕ) (k : Symbol) : LowerMiss .reference k t l := by
  intro j hjk
  have hne : j ≠ k := by rintro rfl; exact lt_irrefl _ hjk
  have hoff {n : ℕ} (ht : (t + n) % 9 ≠ 0) : ¬ Matches .reference (t + n) j (sample .reference (t + n) k) :=
    not_matches_of_apart (ref_reference_apart hne fun ⟨h9, _⟩ => ht h9)
  by_cases h0 : (t + 0) % 9 = 0
  · exact ⟨1, by omega, hoff (by omega)⟩
  · exact ⟨0, by omega, hoff h0⟩

/-- R114: `00` and `11` are no partners, and never coincide. -/
theorem not_matches_zero_reference (t : ℕ) : ¬ Matches .reference t 0b00#2 (sample .reference t 0b11#2) :=
  not_matches_of_apart (ref_reference_apart (by decide) fun ⟨_, hpartner⟩ => absurd hpartner (by decide))

/-- Settles O52: the reference configuration with any symbol length from 2 on tells the symbols apart, its carrier and
its phase test being those of R114. -/
theorem roundTripReproducesTheBits : Obligations.RoundTripReproducesTheBits := by
  unfold Obligations.RoundTripReproducesTheBits
  intro l chars s hl hcfg hbits heven
  have hlen : s.cfg.symbolLen = l := by rw [hcfg]
  have hwf : s.cfg.wellFormed = true := by rw [hcfg]; exact reference_wellFormed
  have hth : 1 / 2 < (s.cfg.amplitude : ℚ) * s.cfg.threshold := by
    rw [hcfg, reference_threshold]; norm_num [Config.reference]
  have hno : ¬ Matches s.cfg s.cfg.symbolLen 0b00#2 (sample s.cfg s.cfg.symbolLen 0b11#2) := by
    rw [hcfg]; exact not_matches_zero_reference l
  have hlow : ∀ (t : ℕ) (k : Symbol), LowerMiss s.cfg k t s.cfg.symbolLen := by
    rw [hcfg]; exact lowerMiss_reference hl
  refine ⟨_, run_roundTrip hwf hth (by omega) hno hlow hbits heven, rfl, rfl, rfl, hlen, ?_, rfl, rfl⟩
  rw [hlen]
  rfl

end Sys2Proof.Proofs.DemodulatorRun
end

section
/-!
SUPPORT. Proofs of O46 and O47, spec/60_exceptions.md R199 and R207. The only operation of a synchronizer state that
offers a character is `SYNC.EOS` under `EOS_IN_SYNC = NORMAL`, and it never ends with `ERR_SYNC`; a failed unit fetches
nothing, and the other unit's turns do not reach its registers.
-/

namespace Sys2Proof.Proofs.Failure

open Sys2Proof Sys2Proof.Machine Sys2Proof.Laws
open Sys2Proof.Proofs.Turns Sys2Proof.Proofs.Streams Sys2Proof.Proofs.Selection

/-! ### No output before synchronisation -/

/-- How a run ends with the newline (R152, R174): in `DONE`, or with `ERR_CHANNEL` when the write fails. -/
def EndedByNewline (t : State) : Prop :=
  t.dem.state = .done ∨ t.dem.cause = .channel

theorem finishDem_endedByNewline {s t : State} (h : flowResult (finishDem s) = .next t) : EndedByNewline t := by
  rcases finishDem_cases s with he | he <;> rw [he] at h <;> cases h
  · exact .inl rfl
  · exact .inr rfl

theorem not_endedByNewline {t : State} (hstate : t.dem.state = .failed) (hcause : t.dem.cause = .sync) :
    ¬ EndedByNewline t := by
  simp [EndedByNewline, hstate, hcause]

/-- An operation fetched in a synchronizer state leaves the environment alone, but for the newline of `SYNC.EOS` under
`EOS_IN_SYNC = NORMAL`. -/
theorem execSampleOp_env_of_inSync {d : DState} {i : Instr} {s t : State} (hi : SampleOp d i) (hd : inSync d = true)
    (h : exec i s = .next t) : t.env = s.env ∨ s.cfg.eosInSync = .normal ∧ EndedByNewline t := by
  cases hi with
  | rdfail => cases h; exact .inl rfl
  | syncEos =>
    simp only [exec, execSyncEos] at h
    split at h
    next => cases h; exact .inl rfl
    next hparam => exact .inr ⟨hparam, finishDem_endedByNewline h⟩
  | init x => exact .inl (execSyncInit_env h)
  | fz x => exact .inl (execSyncFz_env h)
  | fo x => exact .inl (execSyncFo_env h)
  | sz x => exact .inl (execSyncSz_env h)
  | so x => exact .inl (execSyncSo_env h)
  | clsEos | cls => exact absurd hd Bool.false_ne_true

/-- Settles O46: the turn waits, or runs an operation that offers no character, or ends by the newline, which needs
`EOS_IN_SYNC = NORMAL` and excludes `ERR_SYNC`. -/
theorem noOutputBeforeSynchronisation : Obligations.NoOutputBeforeSynchronisation := by
  unfold Obligations.NoOutputBeforeSynchronisation
  intro s t rest hturn h hsync hcase
  rw [step_cons hturn] at h
  rcases demTurn_cases h with ⟨hstart, -⟩ | ⟨-, rfl⟩ | ⟨-, -, -, item, items, i, -, hi, he⟩
  · exact absurd hstart Bool.false_ne_true
  · exact ⟨rfl, rfl⟩
  · rcases execSampleOp_env_of_inSync hi hsync he with henv | ⟨hnormal, hended⟩
    · rw [henv]; exact ⟨rfl, rfl⟩
    · rcases hcase with hfail | ⟨hstate, hcause⟩
      · exact nomatch hfail.symm.trans hnormal
      · exact absurd hended (not_endedByNewline hstate hcause)

/-! ### Failure is final -/

theorem failed_mod_keeps_registers {s t : State} {turn : Turn} {rest : List Turn} (hturn : s.env.turns = turn :: rest)
    (h : step s = .next t) (hreset : turn ≠ .reset) (hfailed : s.mod.state = .failed) (hstrobe : turn ≠ .mod true) :
    t.mod = s.mod := by
  cases turn with
  | reset => exact absurd rfl hreset
  | mod start =>
    obtain rfl : start = false := by simpa using hstrobe
    have hidle := (haltedAndWaitingUnitsDoNothing s rest).1 hturn (.inl (by simp [hfailed]))
    cases hidle.symm.trans h
    rfl
  | dem start =>
    obtain ⟨hmod, -⟩ := (unitsDoNotTouchEachOther s t rest start h).2 hturn
    exact hmod

theorem failed_dem_keeps_registers {s t : State} {turn : Turn} {rest : List Turn} (hturn : s.env.turns = turn :: rest)
    (h : step s = .next t) (hreset : turn ≠ .reset) (hfailed : s.dem.state = .failed) (hstrobe : turn ≠ .dem true) :
    t.dem = s.dem := by
  cases turn with
  | reset => exact absurd rfl hreset
  | mod start =>
    obtain ⟨hdem, -⟩ := (unitsDoNotTouchEachOther s t rest start h).1 hturn
    exact hdem
  | dem start =>
    obtain rfl : start = false := by simpa using hstrobe
    have hidle := (haltedAndWaitingUnitsDoNothing s rest).2 hturn (.inr (.inl hfailed))
    cases hidle.symm.trans h
    rfl

/-- Settles O47: a failed unit's own turn is idle (O6), and a turn of the other unit leaves its registers (O38). -/
theorem failureIsFinal : Obligations.FailureIsFinal := by
  unfold Obligations.FailureIsFinal
  intro s t turn rest hturn h hreset
  exact ⟨failed_mod_keeps_registers hturn h hreset, failed_dem_keeps_registers hturn h hreset⟩

end Sys2Proof.Proofs.Failure
end

section
/-!
SUPPORT. Proofs of O9 and O37, spec/70_reset_and_hazards.md R220 and R226. A `RESET` turn is two register writes on the
state without that turn; the configuration stands outside those writes and outside both units' frames.
-/

namespace Sys2Proof.Proofs.Reset

open Sys2Proof Sys2Proof.Machine Sys2Proof.Laws

/-- A `RESET` turn is the two units' reset on the state whose schedule has lost that turn, and nothing is fetched. -/
theorem step_reset {s : State} {rest : List Turn} (hturn : s.env.turns = .reset :: rest) :
    step s = .next (resetUnits (dropTurn rest s)) :=
  step_cons hturn

/-- The two reset writes replace the registers and keep the constants and the environment (R40, R220). -/
theorem resetUnits_eq (s : State) : resetUnits s = { cfg := s.cfg, mod := .reset, dem := .reset, env := s.env } := rfl

/-- Settles O9: the reset values are those of R40's table, and dropping the turn changes the schedule alone. -/
theorem resetStrobeWritesEveryRegister : Obligations.ResetStrobeWritesEveryRegister := by
  unfold Obligations.ResetStrobeWritesEveryRegister
  intro s rest hturn
  rw [step_reset hturn, resetUnits_eq, dropTurn_cfg, dropTurn_env]
  rfl

/-- Settles O37: a step waits, resets, or takes one unit's turn, and each of these keeps the constants (`step_cfg`). -/
theorem configurationNeverChanges : Obligations.ConfigurationNeverChanges := by
  unfold Obligations.ConfigurationNeverChanges
  intro s t h
  exact Progress.step_cfg h

end Sys2Proof.Proofs.Reset
end
